-- ==== Sys2Proof/Word.lean ====
section
/-! DEFINITION. The word types of the FDC (00_scope.md R9, R10). Each is an abbreviation of a bit vector, so that the
library's lemmas apply. -/

namespace Sys2Proof

/-- A command or response frame: 64 bits (R9, R44). -/
abbrev Frame := BitVec 64

/-- One byte of a frame on a byte transport (R33), or of the single-wire frame (R57). -/
abbrev Byte := BitVec 8

/-- The bit pattern of an IEEE 754 binary32 value: sign, 8 exponent bits, 23 fraction bits (R12, R33). -/
abbrev F32 := BitVec 32

/-- A 32-bit unsigned value: a time in milliseconds, a counter, a configured limit (R9). -/
abbrev U32 := BitVec 32

/-- A 16-bit field in tenths: of a degree Celsius, read with `toInt` (i16), or of a percent, read with `toNat` (u16) (R9, R10). -/
abbrev Tenths := BitVec 16

/-- One bit as a one-bit vector, for a response field (R50). -/
def bit (b : Bool) : BitVec 1 := BitVec.ofBool b

end Sys2Proof
end

