-- ==== Sys2Proof/Syntax.lean ====
section
/-! DEFINITION. The sixteen commands (30_encoding.md R45 to R47), one constructor per row of opcode_table.json, with the
operands of R46. -/

namespace Sys2Proof

/-- A command with its operands. Reserved bits are no operand: a frame with one set is illegal and names no command (R49). -/
inductive Instr where
  /-- DECODE_SAMPLE, format N (R61). -/
  | decodeSample
  /-- PID_COMPUTE, format F: ARG = pv (R65). -/
  | pidCompute (arg : F32)
  /-- PID_SET_SETPOINT, format F: ARG = sp (R66). -/
  | pidSetSetpoint (arg : F32)
  /-- PID_RESET, format N (R67). -/
  | pidReset
  /-- PID_ENABLE, format B: EN (R68). -/
  | pidEnable (en : Bool)
  /-- PID_SET_KP, format F: ARG = k (R69). -/
  | pidSetKp (arg : F32)
  /-- PID_SET_KI, format F: ARG = k (R69). -/
  | pidSetKi (arg : F32)
  /-- PID_SET_KD, format F: ARG = k (R69). -/
  | pidSetKd (arg : F32)
  /-- SENSOR_UPDATE, format N (R71). -/
  | sensorUpdate
  /-- SENSOR_IS_SAFE, format N (R72). -/
  | sensorIsSafe
  /-- SENSOR_RECOVER, format N (R73). -/
  | sensorRecover
  /-- HEATER_CHECK, format H: PWR, ON and the current-sensor status CST (R76); CST = 3 is illegal (R49 c). -/
  | heaterCheck (pwr : F32) (on : Bool) (cst : BitVec 2)
  /-- HEATER_RESET, format N (R77). -/
  | heaterReset
  /-- ARBITER_STEP, format A: SS, HS, SPT and TT (R79). -/
  | arbiterStep (ss hs : Bool) (spt tt : Tenths)
  /-- BUTTON_POLL, format N (R83). -/
  | buttonPoll
  /-- EVENTS_READ, format N (R86). -/
  | eventsRead
deriving DecidableEq, Repr

end Sys2Proof
end

