-- ==== Sys2Proof/WellFormed.lean ====
section
/-! DEFINITION. When a command is well-formed. Every operand field takes every value of its width but one: the
current-sensor status CST = 3 is reserved, and the frame that carries it is illegal (30_encoding.md R46, R49 c). -/

namespace Sys2Proof

/-- Whether the FDC executes the command, rather than answering its frame as illegal (R49). -/
def Instr.wf : Instr → Bool
  | .decodeSample => true
  | .pidCompute _ => true
  | .pidSetSetpoint _ => true
  | .pidReset => true
  | .pidEnable _ => true
  | .pidSetKp _ => true
  | .pidSetKi _ => true
  | .pidSetKd _ => true
  | .sensorUpdate => true
  | .sensorIsSafe => true
  | .sensorRecover => true
  | .heaterCheck _ _ cst => cst != 3#2
  | .heaterReset => true
  | .arbiterStep _ _ _ _ => true
  | .buttonPoll => true
  | .eventsRead => true

end Sys2Proof
end

