-- ==== Sys2Proof/Decode.lean ====
section
/-! DEFINITION. Frames as bytes (20_memory.md R33), the decoder (30_encoding.md R45 to R49), the opcode map as a table
(R47), and the encoder written from the same formats. -/

namespace Sys2Proof

/-- The bytes of a frame on a byte transport, big-endian: "byte 0 is bits [63:56] and byte 7 is bits [7:0]" (R33). -/
def bytesOfFrame (f : Frame) : List Byte :=
  [f.extractLsb' 56 8, f.extractLsb' 48 8, f.extractLsb' 40 8, f.extractLsb' 32 8,
   f.extractLsb' 24 8, f.extractLsb' 16 8, f.extractLsb' 8 8, f.extractLsb' 0 8]

/-- The frame a byte transport delivers (R33). A delivery that is not a whole 64-bit frame has none (R34). -/
def frameOfBytes : List Byte → Option Frame
  | [b0, b1, b2, b3, b4, b5, b6, b7] => some (b0 ++ b1 ++ b2 ++ b3 ++ b4 ++ b5 ++ b6 ++ b7)
  | _ => none

/-- OPC = CMD[63:56] (R44). -/
def opcOf (f : Frame) : BitVec 8 := f.extractLsb' 56 8

/-- Format N: RES = [55:0] (R45). -/
def formatN (f : Frame) (i : Instr) : Option Instr :=
  if f.extractLsb' 0 56 = 0#56 then some i else none

/-- Format F: RES = [55:32], ARG = [31:0] (R45, R46). -/
def formatF (f : Frame) (k : F32 → Instr) : Option Instr :=
  if f.extractLsb' 32 24 = 0#24 then some (k (f.extractLsb' 0 32)) else none

/-- Format B: RES = [55:1], EN = [0] (R45, R46). -/
def formatB (f : Frame) (k : Bool → Instr) : Option Instr :=
  if f.extractLsb' 1 55 = 0#55 then some (k (f.getLsbD 0)) else none

/-- Format H: RES = [55:35], CST = [34:33], ON = [32], PWR = [31:0]; CST = 3 is illegal (R45, R46, R48, R49 c). -/
def formatH (f : Frame) (k : F32 → Bool → BitVec 2 → Instr) : Option Instr :=
  if f.extractLsb' 35 21 = 0#21 then
    if f.extractLsb' 33 2 = 3#2 then none
    else some (k (f.extractLsb' 0 32) (f.getLsbD 32) (f.extractLsb' 33 2))
  else none

/-- Format A: RES = [55:34], SS = [33], HS = [32], SPT = [31:16], TT = [15:0] (R45, R46). -/
def formatA (f : Frame) (k : Bool → Bool → Tenths → Tenths → Instr) : Option Instr :=
  if f.extractLsb' 34 22 = 0#22 then
    some (k (f.getLsbD 33) (f.getLsbD 32) (f.extractLsb' 16 16) (f.extractLsb' 0 16))
  else none

/-- The decoder: the command a frame names, or none for an illegal frame (R47 to R49). "Every encoding is either exactly
one listed command or illegal" (R49). -/
def decode (f : Frame) : Option Instr :=
  match opcOf f with
  | 0x10#8 => formatN f .decodeSample
  | 0x20#8 => formatF f .pidCompute
  | 0x21#8 => formatF f .pidSetSetpoint
  | 0x22#8 => formatN f .pidReset
  | 0x23#8 => formatB f .pidEnable
  | 0x24#8 => formatF f .pidSetKp
  | 0x25#8 => formatF f .pidSetKi
  | 0x26#8 => formatF f .pidSetKd
  | 0x30#8 => formatN f .sensorUpdate
  | 0x31#8 => formatN f .sensorIsSafe
  | 0x32#8 => formatN f .sensorRecover
  | 0x40#8 => formatH f .heaterCheck
  | 0x41#8 => formatN f .heaterReset
  | 0x50#8 => formatA f .arbiterStep
  | 0x60#8 => formatN f .buttonPoll
  | 0x70#8 => formatN f .eventsRead
  | _ => none

/-- The command in a delivery of bytes; none where the bytes are no whole frame or the frame is illegal. -/
def decodeBytes (bs : List Byte) : Option Instr := (frameOfBytes bs).bind decode

/-- The host's question: the command the decoder reads from the table word `w` of `nbits` bits. The table numbers bits as the
frame does, so the word is the frame, delivered as its eight bytes. -/
def decodeTableWord (nbits w : Nat) : Option Instr :=
  decodeBytes (bytesOfFrame (BitVec.ofNat 64 (w % 2 ^ nbits)))

/-- The five formats of R45. -/
inductive Format where
  | n | f | b | h | a
deriving DecidableEq, Repr

/-- A row of the opcode map: opcode, mnemonic, format, match and mask (R47). -/
structure OpcodeRow where
  opc : BitVec 8
  mnemonic : String
  format : Format
  matchBits : Frame
  maskBits : Frame
deriving DecidableEq, Repr

/-- The opcode map of R47, row by row. -/
def opcodeMap : List OpcodeRow := [
  ⟨0x10#8, "DECODE_SAMPLE", .n, 0x1000000000000000#64, 0xFFFFFFFFFFFFFFFF#64⟩,
  ⟨0x20#8, "PID_COMPUTE", .f, 0x2000000000000000#64, 0xFFFFFFFF00000000#64⟩,
  ⟨0x21#8, "PID_SET_SETPOINT", .f, 0x2100000000000000#64, 0xFFFFFFFF00000000#64⟩,
  ⟨0x22#8, "PID_RESET", .n, 0x2200000000000000#64, 0xFFFFFFFFFFFFFFFF#64⟩,
  ⟨0x23#8, "PID_ENABLE", .b, 0x2300000000000000#64, 0xFFFFFFFFFFFFFFFE#64⟩,
  ⟨0x24#8, "PID_SET_KP", .f, 0x2400000000000000#64, 0xFFFFFFFF00000000#64⟩,
  ⟨0x25#8, "PID_SET_KI", .f, 0x2500000000000000#64, 0xFFFFFFFF00000000#64⟩,
  ⟨0x26#8, "PID_SET_KD", .f, 0x2600000000000000#64, 0xFFFFFFFF00000000#64⟩] ++ [
  ⟨0x30#8, "SENSOR_UPDATE", .n, 0x3000000000000000#64, 0xFFFFFFFFFFFFFFFF#64⟩,
  ⟨0x31#8, "SENSOR_IS_SAFE", .n, 0x3100000000000000#64, 0xFFFFFFFFFFFFFFFF#64⟩,
  ⟨0x32#8, "SENSOR_RECOVER", .n, 0x3200000000000000#64, 0xFFFFFFFFFFFFFFFF#64⟩,
  ⟨0x40#8, "HEATER_CHECK", .h, 0x4000000000000000#64, 0xFFFFFFF800000000#64⟩,
  ⟨0x41#8, "HEATER_RESET", .n, 0x4100000000000000#64, 0xFFFFFFFFFFFFFFFF#64⟩,
  ⟨0x50#8, "ARBITER_STEP", .a, 0x5000000000000000#64, 0xFFFFFFFC00000000#64⟩,
  ⟨0x60#8, "BUTTON_POLL", .n, 0x6000000000000000#64, 0xFFFFFFFFFFFFFFFF#64⟩,
  ⟨0x70#8, "EVENTS_READ", .n, 0x7000000000000000#64, 0xFFFFFFFFFFFFFFFF#64⟩]

/-- "A frame selects a row when (CMD & mask) = match" (R47). -/
def OpcodeRow.selectedBy (r : OpcodeRow) (f : Frame) : Bool := f &&& r.maskBits == r.matchBits

/-- The mnemonic of a command's row (R47). -/
def mnemonicOf : Instr → String
  | .decodeSample => "DECODE_SAMPLE"
  | .pidCompute _ => "PID_COMPUTE"
  | .pidSetSetpoint _ => "PID_SET_SETPOINT"
  | .pidReset => "PID_RESET"
  | .pidEnable _ => "PID_ENABLE"
  | .pidSetKp _ => "PID_SET_KP"
  | .pidSetKi _ => "PID_SET_KI"
  | .pidSetKd _ => "PID_SET_KD"
  | .sensorUpdate => "SENSOR_UPDATE"
  | .sensorIsSafe => "SENSOR_IS_SAFE"
  | .sensorRecover => "SENSOR_RECOVER"
  | .heaterCheck _ _ _ => "HEATER_CHECK"
  | .heaterReset => "HEATER_RESET"
  | .arbiterStep _ _ _ _ => "ARBITER_STEP"
  | .buttonPoll => "BUTTON_POLL"
  | .eventsRead => "EVENTS_READ"

/-- A frame of format N (R45). -/
def encodeN (opc : BitVec 8) : Frame := opc ++ 0#56

/-- A frame of format F (R45). -/
def encodeF (opc : BitVec 8) (arg : F32) : Frame := opc ++ 0#24 ++ arg

/-- The encoder: the frame of a command, from the formats of R45 and the opcodes of R47. -/
def encode : Instr → Frame
  | .decodeSample => encodeN 0x10#8
  | .pidCompute arg => encodeF 0x20#8 arg
  | .pidSetSetpoint arg => encodeF 0x21#8 arg
  | .pidReset => encodeN 0x22#8
  | .pidEnable en => 0x23#8 ++ 0#55 ++ bit en
  | .pidSetKp arg => encodeF 0x24#8 arg
  | .pidSetKi arg => encodeF 0x25#8 arg
  | .pidSetKd arg => encodeF 0x26#8 arg
  | .sensorUpdate => encodeN 0x30#8
  | .sensorIsSafe => encodeN 0x31#8
  | .sensorRecover => encodeN 0x32#8
  | .heaterCheck pwr on cst => 0x40#8 ++ 0#21 ++ cst ++ bit on ++ pwr
  | .heaterReset => encodeN 0x41#8
  | .arbiterStep ss hs spt tt => 0x50#8 ++ 0#22 ++ bit ss ++ bit hs ++ spt ++ tt
  | .buttonPoll => encodeN 0x60#8
  | .eventsRead => encodeN 0x70#8

end Sys2Proof
end

