-- ==== Sys2Proof/Config.lean ====
section
/-! DEFINITION. The configuration CFG of the FDC (00_scope.md R7), the example configuration EX, and the one free value
of the model. -/

namespace Sys2Proof

/-- CFG: "a structure with the named fields below. It is fixed before the first command and never changes afterwards"
(R7). Field by field as the table of R7 has them; f32 fields hold bit patterns, i16 and u16 fields 16 bits. -/
structure Cfg where
  /-- KP0: reset value of PID.KP. -/
  kp0 : F32
  /-- KI0: reset value of PID.KI. -/
  ki0 : F32
  /-- KD0: reset value of PID.KD. -/
  kd0 : F32
  /-- OUT_MIN: PID output lower clamp. DESIGN CHOICE (log entry 15): a parameter within R8, where D49 decides 0.0. -/
  outMin : F32
  /-- OUT_MAX: PID output upper clamp. DESIGN CHOICE (log entry 15): a parameter within R8, where D49 decides 100.0. -/
  outMax : F32
  /-- SAMPLE_TIME_MS: PID minimum sample period. -/
  sampleTimeMs : U32
  /-- T_START_US: host-start low interval on DQ. -/
  tStartUs : U32
  /-- HS_TIMEOUT_US: handshake wait limit. -/
  hsTimeoutUs : U32
  /-- BIT_TIMEOUT_US: data-bit wait limit. -/
  bitTimeoutUs : U32
  /-- BIT_THRESHOLD_US: high-duration threshold for bit 1. -/
  bitThresholdUs : U32
  /-- POLL_G_US: the polling granularity G. -/
  pollGUs : U32
  /-- READ_INTERVAL_MS: minimum interval between monitor reads. -/
  readIntervalMs : U32
  /-- MAX_SENSOR_FAILURES: failure count that latches SH unsafe. -/
  maxSensorFailures : U32
  /-- POWER_THRESHOLD_W: heater power below which a check is low. -/
  powerThresholdW : F32
  /-- HEATER_FAULT_MAX: fault count that latches HH.FAILED. -/
  heaterFaultMax : U32
  /-- DISCONNECTED_IS_FAULT: a disconnected current sensor counts as 0 W. -/
  disconnectedIsFault : Bool
  /-- OVERSHOOT_MARGIN: overshoot cut-off margin, i16 tenths °C. -/
  overshootMargin : Tenths
  /-- BTN_ACTIVE_LEVEL: the BTN_PIN level that means "pressed". -/
  btnActiveLevel : Bool
  /-- DEBOUNCE_MS: debounce window. -/
  debounceMs : U32
  /-- HOLD_MS: hold threshold. -/
  holdMs : U32
  /-- REPEAT_MS: fast-repeat interval. -/
  repeatMs : U32
  /-- SINGLE_STEP: "single" increment, u16 tenths °C. -/
  singleStep : Tenths
  /-- FAST_STEP: "fast" increment, u16 tenths °C. -/
  fastStep : Tenths
  /-- SP_MIN: setpoint wrap target, i16 tenths °C. -/
  spMin : Tenths
  /-- SP_MAX: setpoint wrap limit, i16 tenths °C. -/
  spMax : Tenths
  /-- SP_DEFAULT: reset value of BTN.SP, i16 tenths °C. -/
  spDefault : Tenths
deriving DecidableEq, Repr

/-- EX, the example configuration of R7: gains 4.0, 0.5, 1.0; output 0.0 to 100.0; power threshold 5.0.
DESIGN CHOICE (log entry 1): `State.reset` holds it as the loaded configuration; the OPEN fields have no value of their own. -/
def Cfg.ex : Cfg where
  kp0 := 0x40800000#32
  ki0 := 0x3F000000#32
  kd0 := 0x3F800000#32
  outMin := 0x00000000#32
  outMax := 0x42C80000#32
  sampleTimeMs := 1000#32
  tStartUs := 20000#32
  hsTimeoutUs := 100#32
  bitTimeoutUs := 100#32
  bitThresholdUs := 50#32
  pollGUs := 10#32
  readIntervalMs := 2000#32
  maxSensorFailures := 3#32
  powerThresholdW := 0x40A00000#32
  heaterFaultMax := 3#32
  disconnectedIsFault := false
  overshootMargin := 50#16
  btnActiveLevel := false
  debounceMs := 50#32
  holdMs := 650#32
  repeatMs := 470#32
  singleStep := 10#16
  fastStep := 50#16
  spMin := 300#16
  spMax := 800#16
  spDefault := 500#16

/-- The free value of the model: the sign and payload bits of a NaN that an operation produces. 93_implementation_defined.md
admits "any value" and R64 says it is never observable; nothing in Lean can evaluate it (log entry 4). -/
opaque Config.freeNaNBits : BitVec 32

end Sys2Proof
end

