-- ==== Sys2Proof/Machine/Binary32.lean ====
section
/-! DEFINITION. IEEE 754 binary32 arithmetic (00_scope.md R12, R13): a bit pattern is read as a datum, an operation computes
exactly on integers and rounds once, and a datum is written back as a bit pattern.

A finite magnitude is held as a whole number of units of 2^-149, the smallest subnormal: every finite binary32 value is one.
All of R12's operations then are: compute the exact ratio of integers, round it. -/

namespace Sys2Proof.Machine

/-- A binary32 datum. There is one NaN: its sign and payload are never observable (R64). -/
inductive Datum where
  | nan
  /-- An infinity; `neg` is its sign. -/
  | inf (neg : Bool)
  /-- A finite value: its sign, and its magnitude in units of 2^-149. -/
  | fin (neg : Bool) (mag : Nat)
deriving DecidableEq, Repr

/-- The number of units of 2^-149 in 1.0. -/
def f32One : Nat := 2 ^ 149

/-- 2^128 in units of 2^-149: the first magnitude beyond the finite binary32 values. -/
def f32Limit : Nat := 2 ^ 128 * f32One

/-- The datum of a bit pattern: sign at the top bit, then the 8 exponent bits, then the 23 fraction bits (R12, R33). -/
def f32Datum (b : F32) : Datum :=
  let neg := b.msb
  let e := (b.extractLsb' 23 8).toNat
  let f := (b.extractLsb' 0 23).toNat
  if e = 255 then
    if f = 0 then .inf neg else .nan
  else if e = 0 then .fin neg f
  else .fin neg ((2 ^ 23 + f) * 2 ^ (e - 1))

/-- The exponent of the binary32 value of a magnitude: how many low bits of the magnitude lie below its 24-bit significand. -/
def f32Exponent (mag : Nat) : Nat := Nat.log2 mag - 23

/-- The bit pattern of a sign and the 31 bits below it. -/
def f32Pattern (neg : Bool) (low : Nat) : F32 :=
  bit neg ++ BitVec.ofNat 31 low

/-- A NaN an operation produced: its sign and payload are the free value of the model (log entry 4). -/
def f32FreeNaN : F32 := 0x7FC00000#32 ||| (Config.freeNaNBits &&& 0x803FFFFF#32)

/-- The bit pattern of a datum. With significand m and exponent q the bits below the sign are q * 2^23 + m: for a normal value
the significand's top bit adds the 1 by which the exponent field exceeds q, and for a subnormal one q is 0. -/
def f32Bits : Datum → F32
  | .nan => f32FreeNaN
  | .inf neg => f32Pattern neg 0x7F800000
  | .fin neg mag => f32Pattern neg (f32Exponent mag * 2 ^ 23 + mag / 2 ^ f32Exponent mag)

/-- The integer nearest to n / d, ties to even. -/
def nearestEven (n d : Nat) : Nat :=
  let q := n / d
  let r := n % d
  if 2 * r < d then q
  else if d < 2 * r then q + 1
  else q + q % 2

/-- The binary32 value nearest to the exact value (n / d) units, ties to even, overflowing to infinity (R12). -/
def f32Round (neg : Bool) (n d : Nat) : Datum :=
  let q := f32Exponent (n / d)
  let mag := nearestEven n (d * 2 ^ q) * 2 ^ q
  if mag < f32Limit then .fin neg mag else .inf neg

/-- The signed number of units of a finite datum. -/
def signedMag (neg : Bool) (mag : Nat) : Int := if neg then -(mag : Int) else (mag : Int)

/-- `f32_neg(a)` "flips the sign bit only" (R12). -/
def f32Neg : Datum → Datum
  | .nan => .nan
  | .inf neg => .inf (!neg)
  | .fin neg mag => .fin (!neg) mag

/-- The sum of two finite values, rounded once. An exact zero is +0 unless both operands are negative (R12). -/
def f32AddFin (na : Bool) (a : Nat) (nb : Bool) (b : Nat) : Datum :=
  let sum := signedMag na a + signedMag nb b
  if sum = 0 then .fin (na && nb) 0
  else f32Round (decide (sum < 0)) sum.natAbs 1

/-- `f32_add(a,b)` (R12). -/
def f32Add : Datum → Datum → Datum
  | .nan, _ => .nan
  | _, .nan => .nan
  | .inf na, .inf nb => if na = nb then .inf na else .nan
  | .inf na, .fin _ _ => .inf na
  | .fin _ _, .inf nb => .inf nb
  | .fin na a, .fin nb b => f32AddFin na a nb b

/-- `f32_sub(a,b)` (R12). -/
def f32Sub (a b : Datum) : Datum := f32Add a (f32Neg b)

/-- `f32_mul(a,b)` (R12). -/
def f32Mul : Datum → Datum → Datum
  | .nan, _ => .nan
  | _, .nan => .nan
  | .inf na, .inf nb => .inf (na ^^ nb)
  | .inf na, .fin nb b => if b = 0 then .nan else .inf (na ^^ nb)
  | .fin na a, .inf nb => if a = 0 then .nan else .inf (na ^^ nb)
  | .fin na a, .fin nb b => f32Round (na ^^ nb) (a * b) f32One

/-- `f32_div(a,b)` (R12). -/
def f32Div : Datum → Datum → Datum
  | .nan, _ => .nan
  | _, .nan => .nan
  | .inf _, .inf _ => .nan
  | .inf na, .fin nb _ => .inf (na ^^ nb)
  | .fin na _, .inf nb => .fin (na ^^ nb) 0
  | .fin na a, .fin nb b =>
    if b = 0 then (if a = 0 then .nan else .inf (na ^^ nb))
    else f32Round (na ^^ nb) (a * f32One) b

/-- `f32_from_int(n)`: "the nearest binary32, ties-to-even" (R12). -/
def f32FromInt (n : Int) : Datum := f32Round (decide (n < 0)) (n.natAbs * f32One) 1

/-- The place of a datum in IEEE order; none for a NaN. An infinity stands at the limit, beyond every finite value. -/
def f32Key : Datum → Option Int
  | .nan => none
  | .inf neg => some (signedMag neg f32Limit)
  | .fin neg mag => some (signedMag neg mag)

/-- `f32_le(a,b)`: "false when either operand is NaN, and −0.0 compares equal to +0.0" (R12). -/
def f32Le (a b : Datum) : Bool :=
  match f32Key a, f32Key b with
  | some x, some y => decide (x ≤ y)
  | _, _ => false

/-- `f32_lt(a,b)` (R12). -/
def f32Lt (a b : Datum) : Bool :=
  match f32Key a, f32Key b with
  | some x, some y => decide (x < y)
  | _, _ => false

/-- `f32_ge(a,b)` (R12). -/
def f32Ge (a b : Datum) : Bool := f32Le b a

/-- `f32_gt(a,b)` (R12). -/
def f32Gt (a b : Datum) : Bool := f32Lt b a

/-- `clamp(x, lo, hi)`: "A NaN argument gives lo" (R13). -/
def f32Clamp (x lo hi : Datum) : Datum :=
  if f32Ge x lo && f32Le x hi then x
  else if f32Gt x hi then hi
  else lo

/-- Whether a datum is a finite value (R8). -/
def f32IsFinite : Datum → Bool
  | .fin _ _ => true
  | .inf _ => false
  | .nan => false

/-- The literal 0.0. -/
def f32Zero : Datum := .fin false 0

/-- The literal 2.0. -/
def f32Two : Datum := .fin false (2 * f32One)

/-- The literal 10.0. -/
def f32Ten : Datum := .fin false (10 * f32One)

/-- The literal 1000.0. -/
def f32Thousand : Datum := .fin false (1000 * f32One)

end Sys2Proof.Machine
end

