-- ==== Sys2Proof/Machine/Configuration.lean ====
section
/-! DEFINITION. Well-formed configurations (00_scope.md R8) and the constant the PID unit computes from CFG (41_pid.md R62). -/

namespace Sys2Proof.Machine

/-- Whether a bit pattern is a finite binary32 value (R8). -/
def finiteField (b : F32) : Bool := f32IsFinite (f32Datum b)

/-- OUT_MIN as a datum. -/
def outMin (c : Cfg) : Datum := f32Datum c.outMin

/-- OUT_MAX as a datum. -/
def outMax (c : Cfg) : Datum := f32Datum c.outMax

/-- `IMAX = f32_mul(2.0, f32_sub(CFG.OUT_MAX, CFG.OUT_MIN))` (R62). -/
def imax (c : Cfg) : Datum := f32Mul f32Two (f32Sub (outMax c) (outMin c))

/-- The six binary32 fields are finite, the output range is not empty, IMAX is finite, the power threshold is positive (R8).
DESIGN CHOICE (log entry 15): OUT_MIN and OUT_MAX are any pair R8 admits, not D49's 0.0 and 100.0 alone. -/
def cfgNumbersWf (c : Cfg) : Bool :=
  finiteField c.kp0 && finiteField c.ki0 && finiteField c.kd0 && finiteField c.outMin && finiteField c.outMax &&
  finiteField c.powerThresholdW && f32Lt (outMin c) (outMax c) && f32IsFinite (imax c) &&
  f32Gt (f32Datum c.powerThresholdW) f32Zero

/-- The conditions of R8 on the times, counts and thresholds. -/
def cfgTimesWf (c : Cfg) : Bool :=
  decide (1 ≤ c.sampleTimeMs.toNat) && decide (1 ≤ c.repeatMs.toNat) && decide (1 ≤ c.holdMs.toNat) &&
  decide (1 ≤ c.maxSensorFailures.toNat) && decide (1 ≤ c.heaterFaultMax.toNat) &&
  decide (c.bitThresholdUs.toNat < c.bitTimeoutUs.toNat) && decide (c.pollGUs.toNat ≤ 10)

/-- The conditions of R8 on the temperatures, setpoints and steps. -/
def cfgSetpointsWf (c : Cfg) : Bool :=
  decide (0 ≤ c.overshootMargin.toInt) && decide (1 ≤ c.singleStep.toNat) && decide (1 ≤ c.fastStep.toNat) &&
  decide (c.spMin.toInt ≤ c.spDefault.toInt) && decide (c.spDefault.toInt ≤ c.spMax.toInt)

/-- Whether a configuration is well-formed: every condition of R8. -/
def cfgWf (c : Cfg) : Bool := cfgNumbersWf c && cfgTimesWf c && cfgSetpointsWf c

end Sys2Proof.Machine
end

