-- ==== Sys2Proof/Machine/State.lean ====
section
/-! DEFINITION. The state of the FDC as plain data: every register of 10_state.md R21 to R29, the ports of R17, and the
reset of 70_reset_and_hazards.md R100. -/

namespace Sys2Proof.Machine

/-- The PID unit registers (R22). -/
structure Pid where
  /-- PID.KP, proportional gain. -/
  kp : F32
  /-- PID.KI, integral gain. -/
  ki : F32
  /-- PID.KD, derivative gain. -/
  kd : F32
  /-- PID.SP, controller setpoint, °C. -/
  sp : F32
  /-- PID.I, integral accumulator, °C·s. -/
  i : F32
  /-- PID.LPV, last process value, °C. -/
  lpv : F32
  /-- PID.LOUT, last output. -/
  lout : F32
  /-- PID.LT, last sample time: NOW of the last full computation. -/
  lt : U32
  /-- PID.EN, enabled. -/
  en : Bool
deriving DecidableEq, Repr

/-- The result code of a decode, and the contents of SH.LERR: 0 success or none, 1 Timeout, 2 ChecksumMismatch,
3 NoResponse (R24, R88). -/
inductive ErrCode where
  | ok
  | timeout
  | checksumMismatch
  | noResponse
deriving DecidableEq, Repr

/-- The sensor-health unit registers (R24). -/
structure SensorHealth where
  /-- SH.FAILS, consecutive failures, saturating. -/
  fails : U32
  /-- SH.SAFE, is_safe. -/
  safe : Bool
  /-- SH.PROB, probation. -/
  prob : Bool
  /-- SH.LERR, last error code. -/
  lerr : ErrCode
  /-- SH.T, temperature of the last good sample, i16 tenths °C. -/
  t : Tenths
  /-- SH.H, humidity of the last good sample, u16 tenths %RH. -/
  h : Tenths
  /-- SH.LRT, NOW of the last decoder invocation by the monitor. -/
  lrt : U32
deriving DecidableEq, Repr

/-- The heater-monitor unit registers (R25). -/
structure HeaterHealth where
  /-- HH.CNT, consecutive current faults, saturating. -/
  cnt : U32
  /-- HH.FAILED, heater_failed. -/
  failed : Bool
deriving DecidableEq, Repr

/-- The arbiter's states (R26): 0 = SN, 1 = SOC, 2 = U. "3 is never written", so it has no constructor. -/
inductive ArbState where
  /-- Safe-Normal. -/
  | sn
  /-- Safe-Overshoot-Cutoff. -/
  | soc
  /-- Unsafe. -/
  | u
deriving DecidableEq, Repr

/-- The arbiter unit registers (R26). -/
structure Arbiter where
  /-- ARB.ST. -/
  st : ArbState
  /-- ARB.DUTY, the heater command last computed, %. -/
  duty : F32
  /-- ARB.SAFE, overall_safe last computed. -/
  safe : Bool
deriving DecidableEq, Repr

/-- The button unit registers (R27). Idle, Pressed-Waiting and Fast-Repeat are (held, fast) = (0,0), (1,0), (1,1). -/
structure Button where
  /-- BTN.RAW, last raw level seen, pressed = 1. -/
  raw : Bool
  /-- BTN.DEB, debounced level, pressed = 1. -/
  deb : Bool
  /-- BTN.LCT, last raw transition time. -/
  lct : U32
  /-- BTN.PST, press-start time. -/
  pst : U32
  /-- BTN.HELD, is-held flag. -/
  held : Bool
  /-- BTN.FAST, fast-repeat-active flag. -/
  fast : Bool
  /-- BTN.LFT, last fast-increment time. -/
  lft : U32
  /-- BTN.SP, the setpoint, i16 tenths °C. -/
  sp : Tenths
deriving DecidableEq, Repr

/-- One run of the line trace: a level and a duration in µs (R53). -/
structure Run where
  level : Bool
  us : Nat
deriving DecidableEq, Repr

/-- What the clock, the button and the sensor peer supply for one command (92_eei_decisions.md, free inputs): NOW, the level
of BTN_PIN, the line trace from the instant the FDC releases DQ (R53; after the list the line is high forever), and the
measurement draws (R54): the offset of each measured duration from the true one, cut to ±G; where the list has ended, 0. -/
structure Env where
  now : U32
  btnPin : Bool
  line : List Run
  draws : List Int
deriving DecidableEq, Repr

/-- One delivery on port CMD: the bytes a transport carries (R33, R34), and the environment of that command. -/
structure Delivery where
  bytes : List Byte
  env : Env
deriving DecidableEq, Repr

/-- What the FDC does to its side of the line DQ (R6, R54). -/
inductive DqEvent where
  /-- The FDC drives DQ low for this many µs. -/
  | driveLow (us : Nat)
  /-- The FDC releases DQ. -/
  | release
deriving DecidableEq, Repr

/-- What a completed command shows outside (R6): its response frame, and its drive of DQ in order. -/
structure Response where
  rsp : Frame
  dq : List DqEvent
deriving DecidableEq, Repr

/-- The faults of the machine. The FDC has none: "every abnormal outcome" is an illegal command's answer, a result code or
a latch (60_exceptions.md R87 to R89), each of them a next state. -/
inductive Fault where
deriving DecidableEq, Repr

/-- The reasons a step has no meaning. Each is one the spec itself names as a refusal of the model. -/
inductive Refusal where
  /-- An instruction whose meaning is not written yet. Raised by no arm of `exec`. Safe: a refusal is never a claim's
  next state. -/
  | notModelled (mnemonic : String)
  /-- CFG is ill-formed: "A model refuses an ill-formed configuration: the FDC is not defined for one" (R8). Raised by
  `step`. Safe: it allows nothing. -/
  | illFormedConfiguration
  /-- The transport delivered a partial frame: "it refuses, and gives no meaning" (R34). Raised by `step`. Safe: it
  allows nothing. -/
  | partialFrame
deriving DecidableEq, Repr

/-- The state of the FDC (R21 to R29) and its ports (R17). -/
structure State where
  /-- CFG: "one read-only copy" (R29). -/
  cfg : Cfg
  /-- The PID unit (R22). -/
  pid : Pid
  /-- DEC.DQ_OE: 1 while the FDC drives DQ low (R23). -/
  dqOe : Bool
  /-- The sensor-health unit (R24). -/
  sh : SensorHealth
  /-- The heater-monitor unit (R25). -/
  hh : HeaterHealth
  /-- The arbiter unit (R26). -/
  arb : Arbiter
  /-- The button unit (R27). -/
  btn : Button
  /-- The event register EVT, 4 bits (R28). -/
  evt : BitVec 4
  /-- The environment of the command that runs, or ran last (R18). The model's own field (log entry 3). -/
  env : Env
  /-- The deliveries the host has still to make on CMD, oldest first. The model's own form of the port (log entry 2). -/
  inbox : List Delivery
  /-- The responses given on RSP, oldest first. The model's own form of the port (log entry 2). -/
  outbox : List Response
deriving DecidableEq, Repr

/-- The PID registers after reset (R100). -/
def Pid.reset (c : Cfg) : Pid where
  kp := c.kp0
  ki := c.ki0
  kd := c.kd0
  sp := 0#32
  i := 0#32
  lpv := 0#32
  lout := 0#32
  lt := 0#32
  en := true

/-- The sensor-health registers after reset (R100). -/
def SensorHealth.reset : SensorHealth where
  fails := 0#32
  safe := true
  prob := false
  lerr := .ok
  t := 0#16
  h := 0#16
  lrt := 0#32

/-- The heater-monitor registers after reset (R100). -/
def HeaterHealth.reset : HeaterHealth where
  cnt := 0#32
  failed := false

/-- The arbiter registers after reset (R100). -/
def Arbiter.reset : Arbiter where
  st := .sn
  duty := 0#32
  safe := true

/-- The button registers after reset (R100). -/
def Button.reset (c : Cfg) : Button where
  raw := false
  deb := false
  lct := 0#32
  pst := 0#32
  held := false
  fast := false
  lft := 0#32
  sp := c.spDefault

/-- The environment field before the first command. DESIGN CHOICE (log entry 3): no legal command reads it. -/
def Env.reset : Env where
  now := 0#32
  btnPin := false
  line := []
  draws := []

/-- The FDC when reset is released, with the configuration `c` loaded (R100, R102): "every register holds the value below,
and the FDC waits for its first command". -/
def State.resetWith (c : Cfg) : State where
  cfg := c
  pid := Pid.reset c
  dqOe := false
  sh := SensorHealth.reset
  hh := HeaterHealth.reset
  arb := Arbiter.reset
  btn := Button.reset c
  evt := 0#4
  env := Env.reset
  inbox := []
  outbox := []

/-- The FDC when reset is released with the example configuration EX loaded. DESIGN CHOICE (log entry 1): which
configuration is loaded is the platform's; claims are about every state, or every `resetWith c`. -/
def State.reset : State := State.resetWith Cfg.ex

end Sys2Proof.Machine
end

