-- ==== Sys2Proof/Machine/Ops.lean ====
section
/-! DEFINITION. The operations every command shares: writing one unit's registers, the clock, the counters, the events, the
line drive, completing a command, and the one exception (00_scope.md R14 to R16; 60_exceptions.md R87). -/

namespace Sys2Proof.Machine

/-- Writes the PID unit's registers. -/
def State.withPid (s : State) (p : Pid) : State := { s with pid := p }

/-- Writes DEC.DQ_OE. -/
def State.withDqOe (s : State) (b : Bool) : State := { s with dqOe := b }

/-- Writes the sensor-health unit's registers. -/
def State.withSh (s : State) (u : SensorHealth) : State := { s with sh := u }

/-- Writes the heater-monitor unit's registers. -/
def State.withHh (s : State) (u : HeaterHealth) : State := { s with hh := u }

/-- Writes the arbiter unit's registers. -/
def State.withArb (s : State) (u : Arbiter) : State := { s with arb := u }

/-- Writes the button unit's registers. -/
def State.withBtn (s : State) (u : Button) : State := { s with btn := u }

/-- Writes EVT. -/
def State.withEvt (s : State) (v : BitVec 4) : State := { s with evt := v }

/-- `elapsed(t) = (NOW − t) mod 2^32` (R15), for the NOW sampled at the start of the command (R18). -/
def elapsed (now t : U32) : Nat := (now - t).toNat

/-- `sat_inc32(n) = min(n + 1, 2^32 − 1)` (R14). -/
def satInc32 (n : U32) : U32 := BitVec.ofNat 32 (min (n.toNat + 1) (2 ^ 32 - 1))

/-- The events of EVT (R28). -/
inductive Event where
  | sensorFailure
  | enteredUnsafe
  | heaterFailure
  | setpointChanged
deriving DecidableEq, Repr

/-- The bit of EVT that holds an event (R28, R85). -/
def eventBit : Event → BitVec 4
  | .sensorFailure => 0b0001#4
  | .enteredUnsafe => 0b0010#4
  | .heaterFailure => 0b0100#4
  | .setpointChanged => 0b1000#4

/-- `emit(E)` "sets EVT[E] <- 1. A bit already set stays set" (R85). -/
def emit (e : Event) (s : State) : State := s.withEvt (s.evt ||| eventBit e)

/-- `DQ.drive_low(t)` "sets DEC.DQ_OE <- 1 and holds it for t µs" (R54). -/
def driveLow (s : State) : State := s.withDqOe true

/-- `DQ.release()` "sets DEC.DQ_OE <- 0" (R54). -/
def releaseLine (s : State) : State := s.withDqOe false

/-- Completes a command with a response (R16): one frame out for the one frame in (R35), and what the FDC did to DQ. -/
def respondWith (rsp : Frame) (dq : List DqEvent) (s : State) : State :=
  { s with outbox := s.outbox ++ [⟨rsp, dq⟩] }

/-- A normal response, STATUS = 0x00 (R50), of a command that does not drive DQ. -/
def respond (payload : BitVec 56) (s : State) : State := respondWith (0x00#8 ++ payload) [] s

/-- The answer to an illegal frame: STATUS = 0x01, RSP[55:0] = 0 (R50, R87). -/
def illegalResponse : Frame := 0x01#8 ++ 0#56

/-- `raise IllegalCommand`: the FDC's one exception. "No register is written, NOW is not sampled, DQ is not driven, and
BTN_PIN is not read" (R87); the next command is decoded normally. There is no saved state and no handler (R92), and so no
return from it (R93). -/
def illegalCommand (s : State) : State := respondWith illegalResponse [] s

/-- Takes the next delivery off CMD without executing anything. -/
def dropDelivery (rest : List Delivery) (s : State) : State := { s with inbox := rest }

/-- Takes the next delivery off CMD and samples its environment, once, as a legal command starts (R18, R48). -/
def acceptDelivery (d : Delivery) (rest : List Delivery) (s : State) : State :=
  { s with inbox := rest, env := d.env }

end Sys2Proof.Machine
end

