-- ==== Sys2Proof/Machine/Flags.lean ====
section
/-! DEFINITION. The one-bit state of 10_state.md R21: the safety latch SH.SAFE with its probation flag SH.PROB, the heater
latch HH.FAILED, and the enable flag PID.EN. EVT is written by `emit` (Ops). -/

namespace Sys2Proof.Machine

/-- Clears SH.SAFE, ends probation and emits ENTERED_UNSAFE, "exactly once": only when SH.SAFE was 1 (R71, R76). -/
def tripSensorSafe (s : State) : State :=
  if s.sh.safe then
    emit .enteredUnsafe (s.withSh { s.sh with safe := false, prob := false })
  else s

/-- Sets SH.SAFE and SH.PROB and clears the failure counter, only while unsafe (R73). -/
def recoverSensorSafe (s : State) : State :=
  if s.sh.safe then s
  else s.withSh { s.sh with fails := 0#32, safe := true, prob := true }

/-- Latches HH.FAILED and emits HEATER_FAILURE, only when HH.FAILED was 0 (R76). -/
def latchHeaterFailed (s : State) : State :=
  if s.hh.failed then s
  else emit .heaterFailure (s.withHh { s.hh with failed := true })

/-- Clears HH.FAILED and HH.CNT (R77). -/
def clearHeaterFailed (s : State) : State := s.withHh { s.hh with failed := false, cnt := 0#32 }

/-- Writes PID.EN alone (R68). -/
def setPidEnable (en : Bool) (p : Pid) : Pid := { p with en := en }

end Sys2Proof.Machine
end

