-- ==== Sys2Proof/Machine/Operands.lean ====
section
/-! DEFINITION. How the commands read their operands (30_encoding.md R46; 43_heater_monitor.md R75; 44_arbiter.md R79;
45_button.md R81), and the fields of the responses (30_encoding.md R50). -/

namespace Sys2Proof.Machine

/-- The current-sensor status: CST 0, 1, 2 (R46). -/
inductive CurrentStatus where
  | ok
  | disconnected
  | overvoltage
deriving DecidableEq, Repr

/-- The status a CST field names; CST = 3 is reserved (R46, R75). -/
def currentStatus (cst : BitVec 2) : Option CurrentStatus :=
  match cst with
  | 0#2 => some .ok
  | 1#2 => some .disconnected
  | 2#2 => some .overvoltage
  | _ => none

/-- "not f32_ge(PWR, CFG.POWER_THRESHOLD_W)": a NaN power is below (R75). -/
def belowThreshold (c : Cfg) (pwr : F32) : Bool := !f32Ge (f32Datum pwr) (f32Datum c.powerThresholdW)

/-- Whether a check is low, by the current-sensor status (R75). -/
def lowPower (c : Cfg) (pwr : F32) : CurrentStatus → Bool
  | .ok => belowThreshold c pwr
  | .disconnected => c.disconnectedIsFault
  | .overvoltage => belowThreshold c pwr

/-- A temperature or setpoint in tenths as binary32 °C: `f32_div(f32_from_int(n), 10.0)` (R79, R107). -/
def celsius (n : Tenths) : F32 := f32Bits (f32Div (f32FromInt n.toInt) f32Ten)

/-- `pr`: 1 when BTN_PIN is at the active level (R81). -/
def pressed (c : Cfg) (pin : Bool) : Bool := pin == c.btnActiveLevel

/-- The 2-bit code of a decode result (R24, R50, R88). -/
def errBits : ErrCode → BitVec 2
  | .ok => 0#2
  | .timeout => 1#2
  | .checksumMismatch => 2#2
  | .noResponse => 3#2

/-- The 2-bit code of an arbiter state (R26, R50). -/
def arbBits : ArbState → BitVec 2
  | .sn => 0#2
  | .soc => 1#2
  | .u => 2#2

/-- DECODE_SAMPLE: RSP[33:32] = ERR, [31:16] = humidity, [15:0] = temperature (R50). -/
def decodeFields (err : ErrCode) (h t : Tenths) : BitVec 56 := 0#22 ++ errBits err ++ h ++ t

/-- PID_COMPUTE: RSP[31:0] = output (R50). -/
def pidFields (out : F32) : BitVec 56 := 0#24 ++ out

/-- SENSOR_UPDATE: RSP[31:16] = SH.H, [15:0] = SH.T (R50). -/
def sampleFields (h t : Tenths) : BitVec 56 := 0#24 ++ h ++ t

/-- SENSOR_IS_SAFE: RSP[0] = SH.SAFE (R50). -/
def safeFields (safe : Bool) : BitVec 56 := 0#55 ++ bit safe

/-- HEATER_CHECK: RSP[32] = HH.FAILED, [31:0] = HH.CNT (R50). -/
def heaterFields (failed : Bool) (cnt : U32) : BitVec 56 := 0#23 ++ bit failed ++ cnt

/-- ARBITER_STEP: RSP[34:33] = ARB.ST, [32] = overall_safe, [31:0] = duty (R50). -/
def arbiterFields (st : ArbState) (safe : Bool) (duty : F32) : BitVec 56 :=
  0#21 ++ arbBits st ++ bit safe ++ duty

/-- BUTTON_POLL: RSP[32] = setpoint changed this poll, [15:0] = BTN.SP (R50). -/
def buttonFields (changed : Bool) (sp : Tenths) : BitVec 56 := 0#23 ++ bit changed ++ 0#16 ++ sp

/-- EVENTS_READ: RSP[3:0] = EVT before clearing (R50). -/
def eventFields (v : BitVec 4) : BitVec 56 := 0#52 ++ v

end Sys2Proof.Machine
end

