-- ==== Sys2Proof/Machine/PidUnit.lean ====
section
/-! DEFINITION. The PID controller and its seven commands (41_pid.md R62 to R69). -/

namespace Sys2Proof.Machine

/-- The terms of one full computation, each "one rounded binary32 operation, evaluated in the order written" (R63). -/
structure PidTerms where
  dt : Datum
  err : Datum
  p : Datum
  d : Datum
  i : Datum
  u : Datum
deriving DecidableEq, Repr

/-- The lines of R63 from dt to u, for elapsed milliseconds `e`. -/
def pidTerms (r : Pid) (e : Nat) (pv : F32) : PidTerms :=
  let dt := f32Div (f32FromInt e) f32Thousand
  let err := f32Sub (f32Datum r.sp) (f32Datum pv)
  let p := f32Mul (f32Datum r.kp) err
  let dm := f32Sub (f32Datum pv) (f32Datum r.lpv)
  let d := f32Neg (f32Div (f32Mul (f32Datum r.kd) dm) dt)
  let i := f32Mul (f32Datum r.ki) (f32Datum r.i)
  let u := f32Add (f32Add p i) d
  ⟨dt, err, p, d, i, u⟩

/-- `sat`: "saturated in the direction the error is pushing it" (R63). -/
def pidSaturated (c : Cfg) (x : PidTerms) : Bool :=
  (f32Ge x.u (outMax c) && f32Gt x.err f32Zero) || (f32Le x.u (outMin c) && f32Lt x.err f32Zero)

/-- The accumulator after a full computation: `clamp(f32_add(PID.I, f32_mul(err, dt)), f32_neg(IMAX), IMAX)` unless saturated (R63).
DEDUCED (log entry 16): a NaN gain does not enter this line, so it drives PID.I to −IMAX only where err is NaN (R64 a). -/
def pidAccumulator (c : Cfg) (r : Pid) (x : PidTerms) : F32 :=
  if pidSaturated c x then r.i
  else f32Bits (f32Clamp (f32Add (f32Datum r.i) (f32Mul x.err x.dt)) (f32Neg (imax c)) (imax c))

/-- The output of a full computation: `clamp(u, CFG.OUT_MIN, CFG.OUT_MAX)` (R63). -/
def pidOutput (c : Cfg) (x : PidTerms) : F32 := f32Bits (f32Clamp x.u (outMin c) (outMax c))

/-- Whether `PidCore` runs a full computation: enabled, and the sample time has elapsed (R63). -/
def pidRuns (c : Cfg) (now : U32) (r : Pid) : Bool :=
  r.en && decide (c.sampleTimeMs.toNat ≤ elapsed now r.lt)

/-- The registers after a full computation (R63). -/
def pidFull (c : Cfg) (now : U32) (pv : F32) (r : Pid) : Pid :=
  let x := pidTerms r (elapsed now r.lt) pv
  { r with i := pidAccumulator c r x, lpv := pv, lt := now, lout := pidOutput c x }

/-- `PidCore(pv)`: the registers after it, and its output (R63). A disabled call returns +0.0 and a gated one PID.LOUT;
neither writes a register. -/
def pidCore (c : Cfg) (now : U32) (pv : F32) (r : Pid) : Pid × F32 :=
  if r.en = false then (r, 0#32)
  else if elapsed now r.lt < c.sampleTimeMs.toNat then (r, r.lout)
  else (pidFull c now pv r, (pidFull c now pv r).lout)

/-- `PidReset()` (R67): I, LPV and LOUT to +0.0. -/
def pidClear (r : Pid) : Pid := { r with i := 0#32, lpv := 0#32, lout := 0#32 }

/-- PID_COMPUTE (R65). -/
def execPidCompute (arg : F32) (s : State) : Host.Outcome State Fault Refusal :=
  let (r, out) := pidCore s.cfg s.env.now arg s.pid
  .next (respond (pidFields out) (s.withPid r))

/-- PID_SET_SETPOINT (R66). -/
def execPidSetSetpoint (arg : F32) (s : State) : Host.Outcome State Fault Refusal :=
  .next (respond 0#56 (s.withPid { s.pid with sp := arg }))

/-- PID_RESET (R67). -/
def execPidReset (s : State) : Host.Outcome State Fault Refusal :=
  .next (respond 0#56 (s.withPid (pidClear s.pid)))

/-- PID_ENABLE (R68): EN = 1 resets "every time, even when already enabled"; EN = 0 changes PID.EN alone. -/
def execPidEnable (en : Bool) (s : State) : Host.Outcome State Fault Refusal :=
  let r := setPidEnable en s.pid
  .next (respond 0#56 (s.withPid (if en then pidClear r else r)))

/-- PID_SET_KP (R69). -/
def execPidSetKp (arg : F32) (s : State) : Host.Outcome State Fault Refusal :=
  .next (respond 0#56 (s.withPid { s.pid with kp := arg }))

/-- PID_SET_KI (R69). -/
def execPidSetKi (arg : F32) (s : State) : Host.Outcome State Fault Refusal :=
  .next (respond 0#56 (s.withPid { s.pid with ki := arg }))

/-- PID_SET_KD (R69). -/
def execPidSetKd (arg : F32) (s : State) : Host.Outcome State Fault Refusal :=
  .next (respond 0#56 (s.withPid { s.pid with kd := arg }))

end Sys2Proof.Machine
end

