-- ==== Sys2Proof/Machine/ArbiterUnit.lean ====
section
/-! DEFINITION. The temperature and safety arbiter (44_arbiter.md R78, R79). -/

namespace Sys2Proof.Machine

/-- `ArbNext(SS, HS, SPT, TT)`: "a function of the command's operands alone" (R78). Safety is tested before overshoot. -/
def arbNext (c : Cfg) (ss hs : Bool) (spt tt : Tenths) : ArbState :=
  if ss && hs then
    if spt.toInt + c.overshootMargin.toInt < tt.toInt then .soc else .sn
  else .u

/-- The PID registers and the duty of a step in the state `st` (R79): in SN what PidCore gives, otherwise "the PID is reset"
and the duty is +0.0. -/
def arbDuty (c : Cfg) (now : U32) (st : ArbState) (tt : Tenths) (r : Pid) : Pid × F32 :=
  match st with
  | .sn => pidCore c now (celsius tt) r
  | .soc => (pidClear r, 0#32)
  | .u => (pidClear r, 0#32)

/-- ARBITER_STEP (R79). -/
def execArbiterStep (ss hs : Bool) (spt tt : Tenths) (s : State) : Host.Outcome State Fault Refusal :=
  let st := arbNext s.cfg ss hs spt tt
  let (r, duty) := arbDuty s.cfg s.env.now st tt s.pid
  .next (respond (arbiterFields st (ss && hs) duty) ((s.withPid r).withArb ⟨st, duty, ss && hs⟩))

end Sys2Proof.Machine
end

