-- ==== Sys2Proof/Machine/ButtonUnit.lean ====
section
/-! DEFINITION. The button debouncer and press-type state machine (45_button.md R81 to R83). -/

namespace Sys2Proof.Machine

/-- The edge a debounce reports (R81). -/
inductive Edge where
  | none
  | press
  | release
deriving DecidableEq, Repr

/-- The first line of `Debounce(pr)`: "a raw level change resets a debounce timer" (R81). -/
def sampleRaw (now : U32) (pr : Bool) (b : Button) : Button :=
  if pr ≠ b.raw then { b with raw := pr, lct := now } else b

/-- `Debounce(pr)` (R81). -/
def debounce (c : Cfg) (now : U32) (pr : Bool) (b : Button) : Button × Edge :=
  let b1 := sampleRaw now pr b
  if c.debounceMs.toNat ≤ elapsed now b1.lct ∧ b1.raw ≠ b1.deb then
    ({ b1 with deb := b1.raw }, if b1.raw then .press else .release)
  else (b1, .none)

/-- The setpoint after `Inc(s)`: "exceeding the configured maximum resets it to the configured minimum" (R82). The sum is over
integers. -/
def incSetpoint (c : Cfg) (step sp : Tenths) : Tenths :=
  if c.spMax.toInt < sp.toInt + step.toNat then c.spMin
  else BitVec.ofInt 16 (sp.toInt + step.toNat)

/-- The button unit inside one poll, with the poll's `changed` flag (R83). -/
structure Poll where
  b : Button
  changed : Bool
deriving DecidableEq, Repr

/-- `Inc(s)`: the setpoint, and `changed <- 1` (R82); its event is emitted at the end of the poll. -/
def incBy (c : Cfg) (step : Tenths) (p : Poll) : Poll :=
  ⟨{ p.b with sp := incSetpoint c step p.b.sp }, true⟩

/-- Step 2: in Fast-Repeat, "further 'fast' increments every fixed repeat interval until released" (R83). -/
def pollRepeat (c : Cfg) (now : U32) (p : Poll) : Poll :=
  if p.b.held = true ∧ p.b.fast = true ∧ c.repeatMs.toNat ≤ elapsed now p.b.lft then
    let q := incBy c c.fastStep p
    ⟨{ q.b with lft := now }, q.changed⟩
  else p

/-- Step 3a: "Idle → Pressed-Waiting on debounced press edge (records press-start time)" (R83). -/
def pollPress (now : U32) (edge : Edge) (p : Poll) : Poll :=
  if edge = .press ∧ p.b.held = false ∧ p.b.fast = false then
    ⟨{ p.b with held := true, pst := now }, p.changed⟩
  else p

/-- The increment of step 3b, from Pressed-Waiting only: "single" before the hold threshold, "fast" after it (R83). -/
def releaseInc (c : Cfg) (now : U32) (p : Poll) : Poll :=
  if p.b.held = true ∧ p.b.fast = false then
    if elapsed now p.b.pst < c.holdMs.toNat then incBy c c.singleStep p else incBy c c.fastStep p
  else p

/-- Step 3b: "On debounced release", back to Idle (R83). -/
def pollRelease (c : Cfg) (now : U32) (edge : Edge) (p : Poll) : Poll :=
  if edge = .release then
    let q := releaseInc c now p
    ⟨{ q.b with held := false, fast := false }, q.changed⟩
  else p

/-- Step 4: "if held past a hold threshold, transition to Fast-Repeat: apply one immediate 'fast' increment" (R83). -/
def pollHold (c : Cfg) (now : U32) (p : Poll) : Poll :=
  if p.b.held = true ∧ p.b.fast = false ∧ p.b.deb = true ∧ c.holdMs.toNat ≤ elapsed now p.b.pst then
    let q := incBy c c.fastStep { p with b := { p.b with fast := true } }
    ⟨{ q.b with lft := now }, q.changed⟩
  else p

/-- One poll of the button unit: debounce, repeat, press or release, hold, "each reading the results of the one before" (R83). -/
def pollButton (c : Cfg) (now : U32) (pin : Bool) (b : Button) : Poll :=
  let (b1, edge) := debounce c now (pressed c pin) b
  pollHold c now (pollRelease c now edge (pollPress now edge (pollRepeat c now ⟨b1, false⟩)))

/-- BUTTON_POLL (R83): SETPOINT_CHANGED "with each increment"; RSP[32] is "setpoint changed this poll" (R50), which a repeat
at the same NOW answers with 0 (DEDUCED from R36 and R83, log entry 9). -/
def execButtonPoll (s : State) : Host.Outcome State Fault Refusal :=
  let p := pollButton s.cfg s.env.now s.env.btnPin s.btn
  let s1 := s.withBtn p.b
  let s2 := if p.changed then emit .setpointChanged s1 else s1
  .next (respond (buttonFields p.changed p.b.sp) s2)

end Sys2Proof.Machine
end

