-- ==== Sys2Proof/Machine/Line.lean ====
section
/-! DEFINITION. The single-wire line and the decode procedure (40_decoder.md R53 to R60). -/

namespace Sys2Proof.Machine

/-- One wait of a decode (R54): the level and limit waited with, and the true remaining duration of the run found, none when
it is infinite. -/
structure Wait where
  level : Bool
  limit : Nat
  us : Option Nat
deriving DecidableEq, Repr

/-- Where a decode stands: the rest of the line trace, the draws not yet used, and the waits made since the release of the
line, in order. It exists only while a decode runs (10_state.md R31 a). -/
structure LineState where
  runs : List Run
  draws : List Int
  waits : List Wait
deriving DecidableEq, Repr

/-- The remaining duration of the current run when its level is `L`, 0 when its level is not `L`, none when it is infinite;
and the trace after that run. "Adjacent runs of one level are one run", and a trace that ends high "ends in an infinite run of
1" (R53). R53 admits positive durations only: an entry of duration 0 is no run and is passed over (log entry 5). -/
def currentRun (L : Bool) : List Run → Option Nat × List Run
  | [] => (if L then none else some 0, [])
  | r :: rs =>
    if r.level = L ∨ r.us = 0 then
      ((currentRun L rs).1.map (r.us + ·), (currentRun L rs).2)
    else (some 0, r :: rs)

/-- The measured duration of a run of true duration `d`: the offset `x` from it, within max(0, d − G) ≤ m ≤ d + G (R54).
Every such m is the measurement for some offset. -/
def measured (G d : Nat) (x : Int) : Nat := max (d - G) (min (d + G) ((d : Int) + x).toNat)

/-- `DQ.wait_while(L, limit)` (R54): the measured duration, or none for TIMEOUT. A run that is not at level `L` returns 0 and
takes neither time nor a draw. -/
def waitWhile (G : Nat) (L : Bool) (limit : Nat) (l : LineState) : Option Nat × LineState :=
  let d? := (currentRun L l.runs).1
  let waits := l.waits ++ [⟨L, limit, d?⟩]
  match d? with
  | none => (none, { l with waits := waits })
  | some d =>
    if d = 0 then (some 0, { l with waits := waits })
    else
      let m := measured G d (l.draws.head?.getD 0)
      if limit < m then (none, ⟨l.runs, l.draws.tail, waits⟩)
      else (some m, ⟨(currentRun L l.runs).2, l.draws.tail, waits⟩)

/-- Step 2 of the procedure: the handshake waits, in order. True when every one passed (R55). -/
def handshake (c : Cfg) : List Bool → LineState → Bool × LineState
  | [], l => (true, l)
  | L :: Ls, l =>
    match waitWhile c.pollGUs.toNat L c.hsTimeoutUs.toNat l with
    | (none, l') => (false, l')
    | (some _, l') => handshake c Ls l'

/-- The levels the handshake waits on: "for L in [1, 0, 1]" (R55). -/
def handshakeLevels : List Bool := [true, false, true]

/-- `bit(m) = 1` when `m > CFG.BIT_THRESHOLD_US` (R56). DEDUCED (log entry 17): a run of d = BIT_THRESHOLD_US − G, which R56 counts
among those that "may decode to either value", gives 0 only, since R54 bounds m by d + G. -/
def bitOfDuration (c : Cfg) (m : Nat) : Bool := decide (c.bitThresholdUs.toNat < m)

/-- `S[n] <- b` for a bit that is 0 so far (R55). -/
def putBit (sr : BitVec 40) (n : Nat) (b : Bool) : BitVec 40 := if b then sr ||| (1#40 <<< n) else sr

/-- Step 3 of the procedure: reads the last `n` of the 40 data bits, the next one into S[n − 1] (R55). None on a Timeout. -/
def readBits (c : Cfg) : Nat → BitVec 40 → LineState → Option (BitVec 40) × LineState
  | 0, sr, l => (some sr, l)
  | n + 1, sr, l =>
    match waitWhile c.pollGUs.toNat false c.bitTimeoutUs.toNat l with
    | (none, l1) => (none, l1)
    | (some _, l1) =>
      match waitWhile c.pollGUs.toNat true c.bitTimeoutUs.toNat l1 with
      | (none, l2) => (none, l2)
      | (some m, l2) => readBits c n (putBit sr n (bitOfDuration c m)) l2

/-- The bytes B0 to B4: "The first bit received is the most significant bit of B0" (R57). -/
def wireByte (sr : BitVec 40) (k : Nat) : Byte := sr.extractLsb' (32 - 8 * k) 8

/-- `(B0 + B1 + B2 + B3) mod 256 = B4` (R55 step 4). -/
def checksumOk (sr : BitVec 40) : Bool :=
  wireByte sr 0 + wireByte sr 1 + wireByte sr 2 + wireByte sr 3 == wireByte sr 4

/-- `hum(B0, B1) = (B0 << 8) | B1` (R58). -/
def humidityOf (b0 b1 : Byte) : Tenths := b0 ++ b1

/-- `mag = ((B2 & 0x7F) << 8) | B3` (R59). -/
def temperatureMag (b2 b3 : Byte) : Tenths := (b2 &&& 0x7F#8) ++ b3

/-- `temp(B2, B3) = −mag` when B2[7] = 1, and `mag` otherwise (R59). -/
def temperatureOf (b2 b3 : Byte) : Tenths :=
  if b2.msb then -(temperatureMag b2 b3) else temperatureMag b2 b3

/-- The result of a decode: an error code and, on success, a sample (R55). -/
structure DecodeResult where
  err : ErrCode
  t : Tenths
  h : Tenths
deriving DecidableEq, Repr

/-- A failed decode reports no sample: "never partially valid" (R61). -/
def decodeFailure (e : ErrCode) : DecodeResult := ⟨e, 0#16, 0#16⟩

/-- Steps 4 and 5: the checksum, and the sample (R55). -/
def sampleOf (sr : BitVec 40) : DecodeResult :=
  if checksumOk sr then ⟨.ok, temperatureOf (wireByte sr 2) (wireByte sr 3), humidityOf (wireByte sr 0) (wireByte sr 1)⟩
  else decodeFailure .checksumMismatch

/-- Steps 2 to 5 of `Decode()`, from the release of the line (R55): "The first failing step ends the procedure." -/
def decodeFrom (c : Cfg) (l : LineState) : DecodeResult × LineState :=
  match handshake c handshakeLevels l with
  | (false, l1) => (decodeFailure .noResponse, l1)
  | (true, l1) =>
    match readBits c 40 0#40 l1 with
    | (none, l2) => (decodeFailure .timeout, l2)
    | (some sr, l2) => (sampleOf sr, l2)

/-- The line when the FDC releases it: trace time 0 (R53). -/
def lineStart (e : Env) : LineState := ⟨e.line, e.draws, []⟩

/-- The result of a decode with the line trace and draws of an environment. -/
def decodeLine (c : Cfg) (e : Env) : DecodeResult := (decodeFrom c (lineStart e)).1

/-- The waits a decode makes, in order. -/
def decodeWaits (c : Cfg) (e : Env) : List Wait := (decodeFrom c (lineStart e)).2.waits

/-- The µs a wait takes: its run's duration, and no more than "its limit plus CFG.POLL_G_US" (R41). The spec gives a timed-out
wait no exact duration, only this bound (log entry 6). -/
def waitUs (G : Nat) (w : Wait) : Nat :=
  match w.us with
  | none => w.limit + G
  | some d => min d (w.limit + G)

/-- The µs from the start of the low drive to the end of the decode (R41, R112). -/
def decodeUs (c : Cfg) (e : Env) : Nat :=
  c.tStartUs.toNat + ((decodeWaits c e).map (waitUs c.pollGUs.toNat)).sum

/-- What a decode does to DQ: it drives the line low for CFG.T_START_US and releases it (R55 step 1). -/
def decodeDrive (c : Cfg) : List DqEvent := [.driveLow c.tStartUs.toNat, .release]

/-- `Decode()` on the state: "The procedure writes no other register" than DEC.DQ_OE (R55). -/
def runDecode (s : State) : DecodeResult × State :=
  let s1 := releaseLine (driveLow s)
  (decodeLine s1.cfg s1.env, s1)

end Sys2Proof.Machine
end

