-- ==== Sys2Proof/Machine/Decoder.lean ====
section
/-! DEFINITION. The protocol decoder's command (40_decoder.md R61). -/

namespace Sys2Proof.Machine

/-- DECODE_SAMPLE (R61). -/
def execDecodeSample (s : State) : Host.Outcome State Fault Refusal :=
  let (r, s1) := runDecode s
  .next (respondWith (0x00#8 ++ decodeFields r.err r.h r.t) (decodeDrive s.cfg) s1)

end Sys2Proof.Machine
end

