-- ==== Sys2Proof/Machine/EventUnit.lean ====
section
/-! DEFINITION. The event register's command (46_events.md R86). -/

namespace Sys2Proof.Machine

/-- EVENTS_READ: "The read and the clear are one atomic step" (R86). -/
def execEventsRead (s : State) : Host.Outcome State Fault Refusal :=
  .next (respond (eventFields s.evt) (s.withEvt 0#4))

end Sys2Proof.Machine
end

