-- ==== Sys2Proof/Machine/HeaterMonitor.lean ====
section
/-! DEFINITION. The heater-current monitor's commands (43_heater_monitor.md R75 to R77). -/

namespace Sys2Proof.Machine

/-- The counter after a check: `sat_inc32(HH.CNT)` when commanded on and low, 0 for "any other combination" (R76). -/
def heaterCount (on low : Bool) (cnt : U32) : U32 := if on && low then satInc32 cnt else 0#32

/-- The latch test and its two effects (R76): at or over the threshold, HH.FAILED latches and SH.SAFE is forced false. -/
def heaterLatch (s : State) : State :=
  if s.cfg.heaterFaultMax.toNat ≤ s.hh.cnt.toNat then tripSensorSafe (latchHeaterFailed s) else s

/-- HEATER_CHECK on the registers, for a check that is or is not low (R76). -/
def heaterCheckState (on low : Bool) (s : State) : State :=
  heaterLatch (s.withHh { s.hh with cnt := heaterCount on low s.hh.cnt })

/-- HEATER_CHECK (R76). CST = 3 names no status: "the command is illegal" (R75). -/
def execHeaterCheck (pwr : F32) (on : Bool) (cst : BitVec 2) (s : State) : Host.Outcome State Fault Refusal :=
  match currentStatus cst with
  | none => .next (illegalCommand s)
  | some st =>
    let s1 := heaterCheckState on (lowPower s.cfg pwr st) s
    .next (respond (heaterFields s1.hh.failed s1.hh.cnt) s1)

/-- HEATER_RESET (R77). -/
def execHeaterReset (s : State) : Host.Outcome State Fault Refusal :=
  .next (respond 0#56 (clearHeaterFailed s))

end Sys2Proof.Machine
end

