-- ==== Sys2Proof/Machine/SensorMonitor.lean ====
section
/-! DEFINITION. The sensor-health monitor's commands (42_sensor_health.md R71 to R73). -/

namespace Sys2Proof.Machine

/-- Whether SENSOR_UPDATE invokes the decoder: `elapsed(SH.LRT) ≥ CFG.READ_INTERVAL_MS` (R71). -/
def sensorGateOpen (s : State) : Bool :=
  decide (s.cfg.readIntervalMs.toNat ≤ elapsed s.env.now s.sh.lrt)

/-- The success branch (R71): the counter and probation end, the sample is cached, SH.SAFE is not set. -/
def recordSuccess (t h : Tenths) (s : State) : State :=
  s.withSh { s.sh with fails := 0#32, prob := false, t := t, h := h }

/-- The failure branch before the latch test (R71): count, record the error, emit SENSOR_FAILURE. -/
def countFailure (e : ErrCode) (s : State) : State :=
  emit .sensorFailure (s.withSh { s.sh with fails := satInc32 s.sh.fails, lerr := e })

/-- `SH.FAILS ≥ CFG.MAX_SENSOR_FAILURES or SH.PROB = 1` (R71). -/
def failureTrips (s : State) : Bool :=
  decide (s.cfg.maxSensorFailures.toNat ≤ s.sh.fails.toNat) || s.sh.prob

/-- The failure branch (R71). -/
def recordFailure (e : ErrCode) (s : State) : State :=
  let s1 := countFailure e s
  if failureTrips s1 then tripSensorSafe s1 else s1

/-- The two branches on a decode's result (R71). -/
def recordResult (r : DecodeResult) (s : State) : State :=
  match r.err with
  | .ok => recordSuccess r.t r.h s
  | .timeout => recordFailure .timeout s
  | .checksumMismatch => recordFailure .checksumMismatch s
  | .noResponse => recordFailure .noResponse s

/-- The body of SENSOR_UPDATE behind its gate (R71): the interval restarts, the decoder runs, the result is recorded. -/
def sensorRead (s : State) : State :=
  let (r, s1) := runDecode (s.withSh { s.sh with lrt := s.env.now })
  recordResult r s1

/-- SENSOR_UPDATE (R71): "always returns the last good sample". -/
def execSensorUpdate (s : State) : Host.Outcome State Fault Refusal :=
  let s1 := if sensorGateOpen s then sensorRead s else s
  let dq := if sensorGateOpen s then decodeDrive s.cfg else []
  .next (respondWith (0x00#8 ++ sampleFields s1.sh.h s1.sh.t) dq s1)

/-- SENSOR_IS_SAFE (R72). -/
def execSensorIsSafe (s : State) : Host.Outcome State Fault Refusal :=
  .next (respond (safeFields s.sh.safe) s)

/-- SENSOR_RECOVER (R73). -/
def execSensorRecover (s : State) : Host.Outcome State Fault Refusal :=
  .next (respond 0#56 (recoverSensorSafe s))

end Sys2Proof.Machine
end

