-- ==== Sys2Proof/Machine/Dispatch.lean ====
section
/-! DEFINITION. The meaning of every command, one arm per row of the opcode map (30_encoding.md R47). -/

namespace Sys2Proof.Machine

def exec (i : Instr) (s : State) : Host.Outcome State Fault Refusal :=
  match i with
  | .decodeSample => Sys2Proof.Machine.execDecodeSample s
  | .pidCompute arg => Sys2Proof.Machine.execPidCompute arg s
  | .pidSetSetpoint arg => Sys2Proof.Machine.execPidSetSetpoint arg s
  | .pidReset => Sys2Proof.Machine.execPidReset s
  | .pidEnable en => Sys2Proof.Machine.execPidEnable en s
  | .pidSetKp arg => Sys2Proof.Machine.execPidSetKp arg s
  | .pidSetKi arg => Sys2Proof.Machine.execPidSetKi arg s
  | .pidSetKd arg => Sys2Proof.Machine.execPidSetKd arg s
  | .sensorUpdate => Sys2Proof.Machine.execSensorUpdate s
  | .sensorIsSafe => Sys2Proof.Machine.execSensorIsSafe s
  | .sensorRecover => Sys2Proof.Machine.execSensorRecover s
  | .heaterCheck pwr on cst => Sys2Proof.Machine.execHeaterCheck pwr on cst s
  | .heaterReset => Sys2Proof.Machine.execHeaterReset s
  | .arbiterStep ss hs spt tt => Sys2Proof.Machine.execArbiterStep ss hs spt tt s
  | .buttonPoll => Sys2Proof.Machine.execButtonPoll s
  | .eventsRead => Sys2Proof.Machine.execEventsRead s

end Sys2Proof.Machine
end

