-- ==== Sys2Proof/Machine/Step.lean ====
section
/-! DEFINITION. One step: the FDC takes the next delivery on CMD and runs that command to completion (20_memory.md R35, R39;
30_encoding.md R48). -/

namespace Sys2Proof.Machine

/-- `decode(CMD)` and what follows it (R48): an illegal frame raises IllegalCommand and samples nothing; a legal one samples
its environment and executes. A partial frame is refused (R34). -/
def runDelivery (d : Delivery) (rest : List Delivery) (s : State) : Host.Outcome State Fault Refusal :=
  match frameOfBytes d.bytes with
  | none => .refused .partialFrame
  | some f =>
    match decode f with
    | none => .next (illegalCommand (dropDelivery rest s))
    | some i => exec i (acceptDelivery d rest s)

/-- One step. An ill-formed configuration is refused (R8). With nothing delivered the FDC "is idle between commands, and idling
changes nothing" (R99). -/
def step (s : State) : Host.Outcome State Fault Refusal :=
  if cfgWf s.cfg then
    match s.inbox with
    | [] => .next s
    | d :: rest => runDelivery d rest s
  else .refused .illFormedConfiguration

/-- The state `s` with the frame `w` as the next delivery on CMD, under the environment that delivery would have had anyway:
the one already waiting at the head of the inbox, or the current one when nothing waits. -/
def State.withFetchWord (s : State) (nbits w : Nat) : State :=
  let bytes := bytesOfFrame (BitVec.ofNat 64 (w % 2 ^ nbits))
  match s.inbox with
  | [] => { s with inbox := [⟨bytes, s.env⟩] }
  | d :: rest => { s with inbox := ⟨bytes, d.env⟩ :: rest }

end Sys2Proof.Machine
end

