-- ==== Sys2Proof/Machine/Assembler.lean ====
section
/-! DEFINITION. The textual syntax of commands (30_encoding.md R52): a line of text to the commands it spells. "An assembler
refuses any other spelling." Text is a list of characters; spaces around a mnemonic or an operand are dropped (log entry 8). -/

namespace Sys2Proof.Machine

/-- Splits text at every separator. -/
def splitText (sep : Char) : List Char → List (List Char)
  | [] => [[]]
  | c :: cs =>
    if c = sep then [] :: splitText sep cs
    else
      match splitText sep cs with
      | [] => [[c]]
      | w :: ws => (c :: w) :: ws

/-- Text without the spaces at its two ends. -/
def trimText (t : List Char) : List Char :=
  ((t.dropWhile (· = ' ')).reverse.dropWhile (· = ' ')).reverse

/-- The value of a decimal digit. -/
def digitValue (c : Char) : Option Nat :=
  if '0'.toNat ≤ c.toNat ∧ c.toNat ≤ '9'.toNat then some (c.toNat - '0'.toNat) else none

/-- The value of a hexadecimal digit. -/
def hexValue (c : Char) : Option Nat :=
  if 'a'.toNat ≤ c.toNat ∧ c.toNat ≤ 'f'.toNat then some (10 + (c.toNat - 'a'.toNat))
  else if 'A'.toNat ≤ c.toNat ∧ c.toNat ≤ 'F'.toNat then some (10 + (c.toNat - 'A'.toNat))
  else digitValue c

/-- The number a list of digits of a base spells; none when one is no digit. -/
def digitsFrom (base : Nat) (value : Char → Option Nat) : Nat → List Char → Option Nat
  | acc, [] => some acc
  | acc, c :: cs =>
    match value c with
    | none => none
    | some v => digitsFrom base value (base * acc + v) cs

/-- A nonempty decimal numeral. -/
def parseNat (t : List Char) : Option Nat :=
  if t = [] then none else digitsFrom 10 digitValue 0 t

/-- A sign, and the text after it. -/
def takeSign : List Char → Bool × List Char
  | '-' :: cs => (true, cs)
  | cs => (false, cs)

/-- `<int>`: "a decimal integer in [−32768, 32767]" (R52). -/
def parseInt16 (t : List Char) : Option Tenths :=
  match parseNat (takeSign t).2 with
  | none => none
  | some n =>
    let v := signedMag (takeSign t).1 n
    if -32768 ≤ v ∧ v ≤ 32767 then some (BitVec.ofInt 16 v) else none

/-- The value of a decimal literal as a ratio: digits, and optionally a point and more digits. -/
def parseDecimal (t : List Char) : Option (Nat × Nat) :=
  match splitText '.' t with
  | [whole] => (parseNat whole).map (·, 1)
  | [whole, frac] =>
    match parseNat whole, parseNat frac with
    | some n, some f => some (n * 10 ^ frac.length + f, 10 ^ frac.length)
    | _, _ => none
  | _ => none

/-- `raw(0xHHHHHHHH)`: "gives the 32 bits directly" (R52). -/
def parseRaw : List Char → Option F32
  | 'r' :: 'a' :: 'w' :: '(' :: '0' :: 'x' :: rest =>
    if rest.length = 9 ∧ rest.getLast? = some ')' then
      (digitsFrom 16 hexValue 0 (rest.take 8)).map (BitVec.ofNat 32)
    else none
  | _ => none

/-- `<f32>`: "a decimal literal rounded to the nearest binary32, ties-to-even, or raw(0xHHHHHHHH)" (R52). -/
def parseF32 (t : List Char) : Option F32 :=
  match parseDecimal (takeSign t).2 with
  | some (n, d) => some (f32Bits (f32Round (takeSign t).1 (n * f32One) d))
  | none => parseRaw t

/-- `<0|1>` (R52). -/
def parseBit : List Char → Option Bool
  | ['0'] => some false
  | ['1'] => some true
  | _ => none

/-- `on` and `off` (R52). -/
def parseOnOff (t : List Char) : Option Bool :=
  if t = "on".toList then some true else if t = "off".toList then some false else none

/-- `ok`, `disc` and `ovv` "encode CST = 0, 1 and 2. CST = 3 has no spelling" (R52). -/
def parseStatus (t : List Char) : Option (BitVec 2) :=
  if t = "ok".toList then some 0#2
  else if t = "disc".toList then some 1#2
  else if t = "ovv".toList then some 2#2
  else none

/-- An operand `key=value`: the value. -/
def keyed (key : String) (t : List Char) : Option (List Char) :=
  if t.take (key.length + 1) = key.toList ++ ['='] then some (t.drop (key.length + 1)) else none

/-- The command with no operand that a mnemonic names. -/
def assembleN (m : List Char) : Option Instr :=
  [Instr.decodeSample, .pidReset, .sensorUpdate, .sensorIsSafe, .sensorRecover, .heaterReset, .buttonPoll, .eventsRead].find?
    fun i => decide (m = (mnemonicOf i).toList)

/-- The command with one binary32 operand that a mnemonic names. -/
def assembleF (m : List Char) (x : F32) : Option Instr :=
  [Instr.pidCompute x, .pidSetSetpoint x, .pidSetKp x, .pidSetKi x, .pidSetKd x].find?
    fun i => decide (m = (mnemonicOf i).toList)

/-- HEATER_CHECK's operands (R52). -/
def assembleHeater (p o c : List Char) : Option Instr :=
  match parseF32 p, parseOnOff o, parseStatus c with
  | some pwr, some on, some cst => some (.heaterCheck pwr on cst)
  | _, _, _ => none

/-- ARBITER_STEP's operands (R52). -/
def assembleArbiter (t sp ss hs : List Char) : Option Instr :=
  match (keyed "t" t).bind parseInt16, (keyed "sp" sp).bind parseInt16, (keyed "ss" ss).bind parseBit,
    (keyed "hs" hs).bind parseBit with
  | some tt, some spt, some s, some h => some (.arbiterStep s h spt tt)
  | _, _, _, _ => none

/-- The pseudo-instruction `PID_SET_GAINS kp, ki, kd` "expands to PID_SET_KP kp ; PID_SET_KI ki ; PID_SET_KD kd, in that
order" (R52). -/
def pidSetGains (kp ki kd : F32) : List Instr := [.pidSetKp kp, .pidSetKi ki, .pidSetKd kd]

/-- The commands a mnemonic and its operands spell (R52). -/
def assembleWords (m : List Char) (ops : List (List Char)) : Option (List Instr) :=
  match ops with
  | [] => (assembleN m).map ([·])
  | [a] =>
    if m = "PID_ENABLE".toList then (parseBit a).map fun b => [.pidEnable b]
    else ((parseF32 a).bind (assembleF m)).map ([·])
  | [a, b, c] =>
    if m = "HEATER_CHECK".toList then (assembleHeater a b c).map ([·])
    else if m = "PID_SET_GAINS".toList then
      match parseF32 a, parseF32 b, parseF32 c with
      | some kp, some ki, some kd => some (pidSetGains kp ki kd)
      | _, _, _ => none
    else none
  | [a, b, c, d] => if m = "ARBITER_STEP".toList then (assembleArbiter a b c d).map ([·]) else none
  | _ => none

/-- The commands a line of text spells: a mnemonic followed by comma-separated operands (R52). -/
def assembleLine (line : List Char) : Option (List Instr) :=
  let t := trimText line
  let m := t.takeWhile (· ≠ ' ')
  let rest := trimText (t.drop m.length)
  assembleWords m (if rest = [] then [] else (splitText ',' rest).map trimText)

end Sys2Proof.Machine
end

