-- ==== Sys2Proof/Machine/HostProgram.lean ====
section
/-! DEFINITION. What the host runs on the FDC, over `step`: issuing a command (00_scope.md R5), the boot and the re-seed
(70_reset_and_hazards.md R102, R107), the control cycle (R103), the on/off rule (R108) and leaving Unsafe (R109). -/

namespace Sys2Proof.Machine

/-- The next state of an outcome, if it is one. -/
def nextState (o : Host.Outcome State Fault Refusal) : Option State :=
  match o with
  | .next t => some t
  | .fault _ => none
  | .refused _ => none

/-- The delivery of a command's frame, as bytes, under an environment. -/
def deliver (i : Instr) (e : Env) : Delivery := ⟨bytesOfFrame (encode i), e⟩

/-- The host sends the command `i` next and waits for its response (R5). -/
def issue (i : Instr) (e : Env) (s : State) : Option State :=
  nextState (step { s with inbox := deliver i e :: s.inbox })

/-- The response frame the host received last. -/
def lastRsp (s : State) : Frame :=
  match s.outbox.getLast? with
  | some r => r.rsp
  | none => 0#64

/-- The host sends commands one after the other, each under its environment. -/
def issueAll : List (Instr × Env) → State → Option State
  | [], s => some s
  | (i, e) :: rest, s => (issue i e s).bind (issueAll rest)

/-- The re-seed `PID_SET_SETPOINT f32_div(f32_from_int(SP), 10.0)` (R107). -/
def reseed (sp : Tenths) : Instr := .pidSetSetpoint (celsius sp)

/-- What the host sends before the first ARBITER_STEP: step 3 of R102. -/
def bootSequence (c : Cfg) : List Instr := [reseed c.spDefault]

/-- `ON = f32_gt(previous applied duty, 0.0)` (R108). -/
def commandedOn (duty : F32) : Bool := f32Gt (f32Datum duty) f32Zero

/-- Leaving Unsafe after a heater latch: "HEATER_RESET and then SENSOR_RECOVER" (R109). -/
def leaveUnsafe : List Instr := [.heaterReset, .sensorRecover]

/-- The CST field of a current-sensor status (R46). -/
def statusBits : CurrentStatus → BitVec 2
  | .ok => 0#2
  | .disconnected => 1#2
  | .overvoltage => 2#2

/-- What the host brings to a control cycle (R103): the power reading and its status, whether the heater was commanded on while
it was taken, the setpoint of the latest BUTTON_POLL, and the environment of each of the five commands. -/
structure CycleInput where
  pwr : F32
  cst : CurrentStatus
  onPrev : Bool
  sp : Tenths
  env1 : Env
  env2 : Env
  env3 : Env
  env4 : Env
  env5 : Env
deriving DecidableEq, Repr

/-- What a control cycle leaves: the FDC's state, the duty the host applies, overall_safe, and the cycle's events (R103). -/
structure CycleResult where
  state : State
  duty : F32
  safe : Bool
  events : BitVec 4
deriving DecidableEq, Repr

/-- One control cycle (R103): sensor acquisition, safety evaluation, the arbiter's step with T from the first response, ss and
hs from the second and third, the duty taken from the ARBITER_STEP response (R106), then the events. -/
def controlCycle (x : CycleInput) (s : State) : Option CycleResult :=
  (issue .sensorUpdate x.env1 s).bind fun s1 =>
  (issue (.heaterCheck x.pwr x.onPrev (statusBits x.cst)) x.env2 s1).bind fun s2 =>
  (issue .sensorIsSafe x.env3 s2).bind fun s3 =>
  (issue (.arbiterStep ((lastRsp s3).getLsbD 0) (!(lastRsp s2).getLsbD 32) x.sp ((lastRsp s1).extractLsb' 0 16)) x.env4 s3).bind fun s4 =>
  (issue .eventsRead x.env5 s4).bind fun s5 =>
  some ⟨s5, (lastRsp s4).extractLsb' 0 32, (lastRsp s4).getLsbD 32, (lastRsp s5).extractLsb' 0 4⟩

end Sys2Proof.Machine
end

