-- ==== Sys2Proof/Safety.lean ====
section
/-! DEFINITION. The terms claims use: the invariants of 10_state.md R32, a safe duty (44_arbiter.md R79), the margins under
which a decode does not depend on its draws (40_decoder.md R60), runs of failed reads and low checks, runs of button
polls, and the text of a command line (30_encoding.md R52). -/

namespace Sys2Proof.Machine

/-- Whether a bit pattern is a NaN. -/
def f32IsNaN (b : F32) : Bool := decide (f32Datum b = .nan)

/-- Whether a bit pattern lies in [lo, hi]; a NaN lies in no range. -/
def f32Within (b : F32) (lo hi : Datum) : Bool := f32Ge (f32Datum b) lo && f32Le (f32Datum b) hi

/-- Whether a reserved bit of the frame's format is 1 (R45, R49 b). -/
def reservedBitSet (f : Frame) : Format → Prop
  | .n => f.extractLsb' 0 56 ≠ 0#56
  | .f => f.extractLsb' 32 24 ≠ 0#24
  | .b => f.extractLsb' 1 55 ≠ 0#55
  | .h => f.extractLsb' 35 21 ≠ 0#21
  | .a => f.extractLsb' 34 22 ≠ 0#22

/-- A heater command that may be applied: +0.0, or a value of [OUT_MIN, OUT_MAX] (R79, R70). -/
def dutyOk (c : Cfg) (duty : F32) : Prop :=
  duty = 0#32 ∨ f32Within duty (outMin c) (outMax c) = true

/-- The nine invariants of R32, under a well-formed configuration (R8). ARB.ST ≠ 3 needs no clause: no such state exists. -/
structure Inv (s : State) : Prop where
  configuration : cfgWf s.cfg = true
  /-- (1) −IMAX ≤ PID.I ≤ IMAX. -/
  accumulatorBounded : f32Within s.pid.i (f32Neg (imax s.cfg)) (imax s.cfg) = true
  /-- (1) PID.I is never NaN. -/
  accumulatorNumber : f32IsNaN s.pid.i = false
  /-- (2) PID.LOUT is +0.0 or a clamp result: the results of a clamp are the values of its range, each the clamp of itself. -/
  lastOutputClamped : dutyOk s.cfg s.pid.lout
  /-- (2) PID.LOUT is never NaN. -/
  lastOutputNumber : f32IsNaN s.pid.lout = false
  /-- (3) SH.PROB = 1 implies SH.SAFE = 1. -/
  probationSafe : s.sh.prob = true → s.sh.safe = true
  /-- (4) SH.SAFE = 1 implies SH.FAILS < CFG.MAX_SENSOR_FAILURES. -/
  failuresBelow : s.sh.safe = true → s.sh.fails.toNat < s.cfg.maxSensorFailures.toNat
  /-- (5) HH.FAILED = 0 implies HH.CNT < CFG.HEATER_FAULT_MAX. -/
  faultsBelow : s.hh.failed = false → s.hh.cnt.toNat < s.cfg.heaterFaultMax.toNat
  /-- (6) BTN.HELD = BTN.DEB. -/
  heldIsDebounced : s.btn.held = s.btn.deb
  /-- (6) (BTN.HELD, BTN.FAST) ≠ (0, 1). -/
  buttonState : ¬(s.btn.held = false ∧ s.btn.fast = true)
  /-- (7) ARB.SAFE = 0 exactly when ARB.ST = 2. -/
  arbiterAgrees : s.arb.safe = false ↔ s.arb.st = .u
  /-- (8) CFG.SP_MIN ≤ BTN.SP ≤ CFG.SP_MAX. -/
  setpointRange : s.cfg.spMin.toInt ≤ s.btn.sp.toInt ∧ s.btn.sp.toInt ≤ s.cfg.spMax.toInt
  /-- (9) DEC.DQ_OE = 0. -/
  lineReleased : s.dqOe = false

/-- Condition (b) of R60 for a waited run of duration `d`: it passes, or times out, whatever the draw. A run of duration 0 is
no run at the waited level, and nothing is measured. -/
def waitMargin (G : Nat) (w : Wait) : Bool :=
  match w.us with
  | none => true
  | some d => decide (d = 0 ∨ d + G ≤ w.limit ∨ w.limit + G < d)

/-- Condition (a) of R60 for a data high run: `|d − CFG.BIT_THRESHOLD_US| > G`. A run of duration 0 is no run. -/
def bitMargin (c : Cfg) (w : Wait) : Bool :=
  match w.us with
  | none => true
  | some d => decide (d = 0 ∨ d + c.pollGUs.toNat < c.bitThresholdUs.toNat ∨ c.bitThresholdUs.toNat + c.pollGUs.toNat < d)

/-- The environment with no draws: every measured duration is the true one (R54, "takes m = d"). -/
def exactEnv (e : Env) : Env := { e with draws := [] }

/-- The conditions of R60 on "every run the procedure waits on". The first three waits are the handshake's; after them, a wait
for level 1 is a data high run. -/
def decodeMargins (c : Cfg) (e : Env) : Prop :=
  (∀ w ∈ decodeWaits c (exactEnv e), waitMargin c.pollGUs.toNat w = true) ∧
  ∀ w ∈ (decodeWaits c (exactEnv e)).drop 3, w.level = true → bitMargin c w = true

/-- The data part of a nominal trace (95_test_vectors.md, NOM): each of the last `n` bits of `sr` is 50 µs low and 70 or 27 µs
high, and after the last bit the line is low for 50 µs. -/
def nomBits (sr : BitVec 40) : Nat → List Run
  | 0 => [⟨false, 50⟩]
  | n + 1 => ⟨false, 50⟩ :: ⟨true, if sr.getLsbD n then 70 else 27⟩ :: nomBits sr n

/-- The nominal trace of five bytes, MSB first (95_test_vectors.md, NOM). -/
def nomTrace (b0 b1 b2 b3 b4 : Byte) : List Run :=
  ⟨true, 30⟩ :: ⟨false, 80⟩ :: ⟨true, 80⟩ :: nomBits (b0 ++ b1 ++ b2 ++ b3 ++ b4) 40

/-- A configuration under which every nominal trace meets the margins of R60. -/
def nominalCfg (c : Cfg) : Prop :=
  80 + c.pollGUs.toNat ≤ c.hsTimeoutUs.toNat ∧ 70 + c.pollGUs.toNat ≤ c.bitTimeoutUs.toNat ∧
  27 + c.pollGUs.toNat < c.bitThresholdUs.toNat ∧ c.bitThresholdUs.toNat + c.pollGUs.toNat < 70

/-- One data bit of R55 step 3: the wait for the high level passes, and the high run is measured as `m`. -/
def dataBit (c : Cfg) (l : LineState) (m : Nat) (l' : LineState) : Prop :=
  let w := waitWhile c.pollGUs.toNat false c.bitTimeoutUs.toNat l
  let v := waitWhile c.pollGUs.toNat true c.bitTimeoutUs.toNat w.2
  w.1.isSome = true ∧ v.1 = some m ∧ v.2 = l'

/-- One data bit of R55 step 3 that times out, on either of its two waits. -/
def dataTimeout (c : Cfg) (l : LineState) : Prop :=
  let w := waitWhile c.pollGUs.toNat false c.bitTimeoutUs.toNat l
  w.1 = none ∨ (waitWhile c.pollGUs.toNat true c.bitTimeoutUs.toNat w.2).1 = none

/-- Whether SENSOR_UPDATE under `e` reads, and the read fails. -/
def readFails (e : Env) (s : State) : Bool :=
  sensorGateOpen { s with env := e } && decide ((decodeLine s.cfg e).err ≠ .ok)

/-- SENSOR_UPDATE once under each environment, in order; none unless every one of them reads and fails. -/
def failedReads : List Env → State → Option State
  | [], s => some s
  | e :: es, s =>
    if readFails e s then (nextState (exec .sensorUpdate { s with env := e })).bind (failedReads es) else none

/-- HEATER_CHECK commanded on, once for each power and status, in order; none unless every one of them is low. -/
def lowChecks : List (F32 × CurrentStatus) → State → Option State
  | [], s => some s
  | (pwr, st) :: rest, s =>
    if lowPower s.cfg pwr st then (nextState (exec (.heaterCheck pwr true (statusBits st)) s)).bind (lowChecks rest) else none

/-- BUTTON_POLL on the button unit at each time and pin level, in order: the edges the debouncer reports. -/
def edgesOf (c : Cfg) : List (U32 × Bool) → Button → List Edge
  | [], _ => []
  | (now, pin) :: rest, b => (debounce c now (pressed c pin) b).2 :: edgesOf c rest (pollButton c now pin b).b

/-- The button unit after polls, and how many of them changed the setpoint. -/
def pollsOf (c : Cfg) : List (U32 × Bool) → Button → Button × Nat
  | [], b => (b, 0)
  | (now, pin) :: rest, b =>
    let p := pollButton c now pin b
    let q := pollsOf c rest p.b
    (q.1, (if p.changed then 1 else 0) + q.2)

/-- Polls at the pins given, every `period` ms, the first one `period` ms after `start`. -/
def periodicPolls (start : U32) (period : Nat) : Nat → List Bool → List (U32 × Bool)
  | _, [] => []
  | k, pin :: pins => (start + BitVec.ofNat 32 ((k + 1) * period), pin) :: periodicPolls start period (k + 1) pins

/-- The setpoint after `n` fast increments (R82). -/
def fastIncrements (c : Cfg) : Nat → Tenths → Tenths
  | 0, sp => sp
  | n + 1, sp => fastIncrements c n (incSetpoint c c.fastStep sp)

/-- The text of decimal digits: the characters of 0 to 9 are consecutive. -/
def decimalText (digits : List (Fin 10)) : List Char := digits.map fun d => Char.ofNat ('0'.toNat + d.val)

/-- The minus sign of a negative literal. -/
def signText (neg : Bool) : List Char := if neg then ['-'] else []

/-- The text of hexadecimal digits, of either case. -/
def hexText (upper : Bool) (digits : List (Fin 16)) : List Char :=
  digits.map fun d => Char.ofNat (if d.val < 10 then '0'.toNat + d.val
    else (if upper then 'A'.toNat else 'a'.toNat) + (d.val - 10))

/-- The number that digits of a base spell, the first one most significant. -/
def digitsNumber (base : Nat) (digits : List Nat) : Nat := digits.foldl (fun n d => base * n + d) 0

/-- A mnemonic, or an operand of a line: text without spaces or commas, and not empty. -/
def plainText (t : List Char) : Prop := t ≠ [] ∧ ' ' ∉ t ∧ ',' ∉ t

/-- The operands of a line, separated by commas. -/
def operandsText : List (List Char) → List Char
  | [] => []
  | [a] => a
  | a :: rest => a ++ ',' :: ' ' :: operandsText rest

/-- A line of R52: the mnemonic, then the operands. -/
def lineText (m : List Char) (ops : List (List Char)) : List Char :=
  if ops = [] then m else m ++ ' ' :: operandsText ops

end Sys2Proof.Machine
end

