-- ==== Sys2Proof/Certificates/Slice0/Obligations.lean ====
section
/-! DEFINITION. The statements about the FDC. A result is stated as the whole next state: every field the equation does not
name is unchanged. A response frame stands as its status byte and its fields; `ResponseFieldPositions` says where the fields
lie. -/

open Sys2Proof Sys2Proof.Machine

-- Encoding -----------------------------------------------------------------------------------------------------------

/-- R44 to R47: decoding the encoding of a well-formed command gives the command back, every operand at every value. -/
def Obligations.DecodeOfEncodeIsTheCommand : Prop :=
  ∀ i : Instr, i.wf = true → decode (encode i) = some i

/-- R49 "Every encoding is either exactly one listed command or illegal": a frame that names a command is that command's only
encoding. -/
def Obligations.EncodeOfDecodeIsTheFrame : Prop :=
  ∀ (f : Frame) (i : Instr), decode f = some i → i.wf = true ∧ encode i = f

/-- R47: a frame names the command of the row it selects; at most one row matches any frame; HEATER_CHECK additionally needs
CST ≠ 3; every opcode not listed is illegal. -/
def Obligations.DecodeFollowsTheOpcodeMap : Prop :=
  ∀ f : Frame,
    (∀ i, decode f = some i → ∃ r ∈ opcodeMap, r.selectedBy f = true ∧ r.mnemonic = mnemonicOf i) ∧
    (decode f = none ↔ (∀ r ∈ opcodeMap, r.selectedBy f = false) ∨
      ∃ r ∈ opcodeMap, r.mnemonic = "HEATER_CHECK" ∧ r.selectedBy f = true ∧ f.extractLsb' 33 2 = 3#2) ∧
    (∀ r ∈ opcodeMap, ∀ r' ∈ opcodeMap, r.selectedBy f = true → r'.selectedBy f = true → r = r') ∧
    ((∀ r ∈ opcodeMap, r.opc ≠ opcOf f) → decode f = none)

/-- R49: a frame is illegal exactly when its opcode is not listed, a reserved bit of its format is 1, or it is HEATER_CHECK
with CST = 3; the all-zero frame is illegal. -/
def Obligations.IllegalFramesAreTheThreeCases : Prop :=
  (∀ f : Frame, decode f = none ↔
    (∀ r ∈ opcodeMap, r.opc ≠ opcOf f) ∨
    (∃ r ∈ opcodeMap, r.opc = opcOf f ∧ reservedBitSet f r.format) ∨
    (opcOf f = 0x40#8 ∧ f.extractLsb' 33 2 = 3#2)) ∧
  decode 0#64 = none

/-- R47 and the examples of 95_test_vectors.md section 2.1: words written out from the formats decode to their commands, and
the illegal ones to none. -/
def Obligations.WordsOfTheTestVectorsDecode : Prop :=
  decode 0x1000000000000000#64 = some .decodeSample ∧
  decode 0x2000000041A00000#64 = some (.pidCompute 0x41A00000#32) ∧
  decode 0x2100000042480000#64 = some (.pidSetSetpoint 0x42480000#32) ∧
  decode 0x2300000000000001#64 = some (.pidEnable true) ∧
  decode 0x3000000000000000#64 = some .sensorUpdate ∧
  decode 0x4000000141480000#64 = some (.heaterCheck 0x41480000#32 true 0#2) ∧
  decode 0x5000000301F4FF9B#64 = some (.arbiterStep true true 500#16 0xFF9B#16) ∧
  decode 0x6000000000000000#64 = some .buttonPoll ∧
  decode 0x7000000000000000#64 = some .eventsRead ∧
  decode 0x4000000600000000#64 = none ∧ decode 0x5000000400000000#64 = none ∧ decode 0x1100000000000000#64 = none

/-- R33 and R34: a frame goes over a byte transport big-endian and comes back whole; anything but eight bytes is no frame. -/
def Obligations.FramesAreBigEndianOnTheTransport : Prop :=
  (∀ f : Frame, frameOfBytes (bytesOfFrame f) = some f ∧
    ∀ k < 8, (bytesOfFrame f)[k]? = some (f.extractLsb' (56 - 8 * k) 8)) ∧
  (∀ (bs : List Byte) (f : Frame), frameOfBytes bs = some f → bs = bytesOfFrame f) ∧
  ∀ bs : List Byte, bs.length ≠ 8 → frameOfBytes bs = none

/-- R50: where the result fields of each response lie, STATUS = 0x00, "Every bit not named is 0", and the ILLEGAL response; and
the numbers of the decode results (R88) and of the arbiter's states (R26). -/
def Obligations.ResponseFieldPositions : Prop :=
  (∀ err h t, let r : Frame := 0x00#8 ++ decodeFields err h t
    r.extractLsb' 56 8 = 0x00#8 ∧ r.extractLsb' 34 22 = 0#22 ∧ r.extractLsb' 32 2 = errBits err ∧
    r.extractLsb' 16 16 = h ∧ r.extractLsb' 0 16 = t) ∧
  (∀ out, let r : Frame := 0x00#8 ++ pidFields out
    r.extractLsb' 32 32 = 0#32 ∧ r.extractLsb' 0 32 = out) ∧
  (∀ h t, let r : Frame := 0x00#8 ++ sampleFields h t
    r.extractLsb' 32 32 = 0#32 ∧ r.extractLsb' 16 16 = h ∧ r.extractLsb' 0 16 = t) ∧
  (∀ b, let r : Frame := 0x00#8 ++ safeFields b
    r.extractLsb' 1 63 = 0#63 ∧ r.getLsbD 0 = b) ∧
  (∀ b cnt, let r : Frame := 0x00#8 ++ heaterFields b cnt
    r.extractLsb' 33 31 = 0#31 ∧ r.getLsbD 32 = b ∧ r.extractLsb' 0 32 = cnt) ∧
  (∀ st b duty, let r : Frame := 0x00#8 ++ arbiterFields st b duty
    r.extractLsb' 35 29 = 0#29 ∧ r.extractLsb' 33 2 = arbBits st ∧ r.getLsbD 32 = b ∧ r.extractLsb' 0 32 = duty) ∧
  (∀ b sp, let r : Frame := 0x00#8 ++ buttonFields b sp
    r.extractLsb' 33 31 = 0#31 ∧ r.getLsbD 32 = b ∧ r.extractLsb' 16 16 = 0#16 ∧ r.extractLsb' 0 16 = sp) ∧
  (∀ v, let r : Frame := 0x00#8 ++ eventFields v
    r.extractLsb' 4 60 = 0#60 ∧ r.extractLsb' 0 4 = v) ∧
  illegalResponse.extractLsb' 56 8 = 0x01#8 ∧ illegalResponse.extractLsb' 0 56 = 0#56 ∧
  errBits .ok = 0#2 ∧ errBits .timeout = 1#2 ∧ errBits .checksumMismatch = 2#2 ∧ errBits .noResponse = 3#2 ∧
  arbBits .sn = 0#2 ∧ arbBits .soc = 1#2 ∧ arbBits .u = 2#2

/-- R52: a line is a mnemonic and its comma-separated operands; each of the sixteen forms, with operands that can be read,
spells its own command, and PID_SET_GAINS its three; the operand texts are read as R52 says; and a line the assembler accepts
spells well-formed commands only ("CST = 3 has no spelling"). -/
def Obligations.AssembledCommandsAreLegal : Prop :=
  (∀ (line : List Char) (is : List Instr), assembleLine line = some is → ∀ i ∈ is, i.wf = true) ∧
  (∀ (m : List Char) (ops : List (List Char)), plainText m → (∀ a ∈ ops, plainText a) →
    assembleLine (lineText m ops) = assembleWords m ops) ∧
  (∀ i ∈ [Instr.decodeSample, .pidReset, .sensorUpdate, .sensorIsSafe, .sensorRecover, .heaterReset, .buttonPoll, .eventsRead],
    assembleWords (mnemonicOf i).toList [] = some [i]) ∧
  (∀ k ∈ [Instr.pidCompute, .pidSetSetpoint, .pidSetKp, .pidSetKi, .pidSetKd], ∀ a x, parseF32 a = some x →
    assembleWords (mnemonicOf (k x)).toList [a] = some [k x]) ∧
  assembleWords "PID_ENABLE".toList ["0".toList] = some [.pidEnable false] ∧
  assembleWords "PID_ENABLE".toList ["1".toList] = some [.pidEnable true] ∧
  (∀ p pwr, parseF32 p = some pwr →
    ∀ o ∈ [("on".toList, true), ("off".toList, false)],
    ∀ st ∈ [("ok".toList, 0#2), ("disc".toList, 1#2), ("ovv".toList, 2#2)],
      assembleWords "HEATER_CHECK".toList [p, o.1, st.1] = some [.heaterCheck pwr o.2 st.2]) ∧
  (∀ t tt sp spt, parseInt16 t = some tt → parseInt16 sp = some spt →
    ∀ ss ∈ [("0".toList, false), ("1".toList, true)], ∀ hs ∈ [("0".toList, false), ("1".toList, true)],
      assembleWords "ARBITER_STEP".toList
        ["t=".toList ++ t, "sp=".toList ++ sp, "ss=".toList ++ ss.1, "hs=".toList ++ hs.1] =
        some [.arbiterStep ss.2 hs.2 spt tt]) ∧
  (∀ a b c kp ki kd, parseF32 a = some kp → parseF32 b = some ki → parseF32 c = some kd →
    assembleWords "PID_SET_GAINS".toList [a, b, c] = some [.pidSetKp kp, .pidSetKi ki, .pidSetKd kd]) ∧
  (∀ (neg : Bool) (ws : List (Fin 10)), ws ≠ [] →
    let n := digitsNumber 10 (ws.map Fin.val)
    let v : Int := if neg then -n else n
    parseInt16 (signText neg ++ decimalText ws) = (if -32768 ≤ v ∧ v ≤ 32767 then some (BitVec.ofInt 16 v) else none) ∧
    parseF32 (signText neg ++ decimalText ws) = some (f32Bits (f32Round neg (n * 2 ^ 149) 1))) ∧
  (∀ (neg : Bool) (ws fs : List (Fin 10)), ws ≠ [] → fs ≠ [] →
    parseF32 (signText neg ++ decimalText ws ++ '.' :: decimalText fs) =
      some (f32Bits (f32Round neg (digitsNumber 10 ((ws ++ fs).map Fin.val) * 2 ^ 149) (10 ^ fs.length)))) ∧
  ∀ (upper : Bool) (hs : List (Fin 16)), hs.length = 8 →
    parseF32 ("raw(0x".toList ++ hexText upper hs ++ [')']) = some (BitVec.ofNat 32 (digitsNumber 16 (hs.map Fin.val)))

-- The step -----------------------------------------------------------------------------------------------------------

/-- R48: when the frame delivered next names a command, the step is that command at the state that has taken the delivery and
sampled its environment; nothing else is added, and the environment sampled before does not matter. -/
def Obligations.StepRunsTheDecodedCommand : Prop :=
  ∀ (s : State) (f : Frame) (e : Env) (rest : List Delivery) (i : Instr),
    cfgWf s.cfg = true → s.inbox = ⟨bytesOfFrame f, e⟩ :: rest → decode f = some i →
    step s = exec i { s with inbox := rest, env := e } ∧ ∀ e', step { s with env := e' } = step s

/-- R87: an illegal frame is answered with STATUS 0x01 and zeros, and nothing changes, the sampled environment included; a legal
frame is never answered so. -/
def Obligations.IllegalCommandChangesNothing : Prop :=
  ∀ (s : State) (f : Frame) (e : Env) (rest : List Delivery),
    cfgWf s.cfg = true → s.inbox = ⟨bytesOfFrame f, e⟩ :: rest →
    (decode f = none →
      step s = .next { s with inbox := rest, outbox := s.outbox ++ [⟨0x01#8 ++ 0#56, []⟩] }) ∧
    (∀ i, decode f = some i → ∃ t r, step s = .next t ∧ t.outbox = s.outbox ++ [r] ∧ r.rsp.extractLsb' 56 8 = 0x00#8)

/-- R8, R34, R99: an ill-formed configuration and a partial frame are refused, each by name; with nothing delivered the FDC stays
as it is. -/
def Obligations.StepRefusesOrIdles : Prop :=
  (∀ s : State, cfgWf s.cfg = false → step s = .refused .illFormedConfiguration) ∧
  (∀ s : State, cfgWf s.cfg = true → s.inbox = [] → step s = .next s) ∧
  ∀ (s : State) (d : Delivery) (rest : List Delivery), cfgWf s.cfg = true → s.inbox = d :: rest → d.bytes.length ≠ 8 →
    step s = .refused .partialFrame

/-- R35, R50: every whole frame is taken and answered by exactly one response, whose STATUS is OK or ILLEGAL. -/
def Obligations.EveryFrameGetsOneResponse : Prop :=
  ∀ (s : State) (d : Delivery) (rest : List Delivery), cfgWf s.cfg = true → s.inbox = d :: rest → d.bytes.length = 8 →
    ∃ t r, step s = .next t ∧ t.inbox = rest ∧ t.cfg = s.cfg ∧ t.outbox = s.outbox ++ [r] ∧
      (r.rsp.extractLsb' 56 8 = 0x00#8 ∨ r.rsp = 0x0100000000000000#64)

/-- R104, R41 "no command can hang": a run over any deliveries of whole frames ends with every one of them answered. -/
def Obligations.EveryRunAnswersAllCommands : Prop :=
  ∀ (s : State), cfgWf s.cfg = true → (∀ d ∈ s.inbox, d.bytes.length = 8) →
    ∃ t : State, Host.Core.run core s.inbox.length s = .next t ∧ t.inbox = [] ∧
      t.outbox.length = s.outbox.length + s.inbox.length ∧ ∃ new, t.outbox = s.outbox ++ new

-- Invariants ---------------------------------------------------------------------------------------------------------

/-- R32: every step keeps the invariants, from every state that meets them. -/
def Obligations.StepKeepsTheInvariants : Prop :=
  ∀ s t : State, Inv s → step s = .next t → Inv t

/-- R100 "The reset state satisfies every invariant": for every well-formed configuration, EX among them. -/
def Obligations.ResetMeetsTheInvariants : Prop :=
  (∀ c : Cfg, cfgWf c = true → Inv (State.resetWith c)) ∧ Inv State.reset

/-- R32 "After reset and after every command, the following hold": along every run from reset, whatever is delivered. -/
def Obligations.InvariantsHoldAlongEveryRun : Prop :=
  ∀ (c : Cfg) (ds : List Delivery) (n : Nat) (t : State), cfgWf c = true →
    Host.Core.run core n { State.resetWith c with inbox := ds } = .next t → Inv t

/-- R100: the value of every register when reset is released, and the FDC waits for its first command. -/
def Obligations.ResetValues : Prop :=
  ∀ c : Cfg, let s := State.resetWith c
    s.cfg = c ∧ s.pid = ⟨c.kp0, c.ki0, c.kd0, 0#32, 0#32, 0#32, 0#32, 0#32, true⟩ ∧ s.dqOe = false ∧
    s.sh = ⟨0#32, true, false, .ok, 0#16, 0#16, 0#32⟩ ∧ s.hh = ⟨0#32, false⟩ ∧ s.arb = ⟨.sn, 0#32, true⟩ ∧
    s.btn = ⟨false, false, 0#32, 0#32, false, false, 0#32, c.spDefault⟩ ∧ s.evt = 0#4 ∧
    s.inbox = [] ∧ s.outbox = [] ∧ (cfgWf c = true → step s = .next s)

/-- R101: the consequences of the reset values. (a), (b) a command before the first period is gated; (c) the first arbiter step
computes against the setpoint 0.0; (d) an active pin at reset is a raw change at the first poll. -/
def Obligations.ResetConsequences : Prop :=
  ∀ (c : Cfg) (e : Env), cfgWf c = true → let s : State := { State.resetWith c with env := e }
    (e.now.toNat < c.sampleTimeMs.toNat → ∀ pv, exec (.pidCompute pv) s = .next { s with outbox := [⟨0#64, []⟩] }) ∧
    (e.now.toNat < c.readIntervalMs.toNat → exec .sensorUpdate s = .next { s with outbox := [⟨0#64, []⟩] }) ∧
    (∀ k pv, (pidTerms s.pid k pv).err = f32Sub f32Zero (f32Datum pv)) ∧
    (e.btnPin = c.btnActiveLevel → ∃ t, exec .buttonPoll s = .next t ∧ t.btn.raw = true ∧ t.btn.lct = e.now ∧
      ∀ e2 : Env, e2.btnPin = c.btnActiveLevel → c.debounceMs.toNat ≤ (e2.now - e.now).toNat →
        ∃ u, exec .buttonPoll { t with env := e2 } = .next u ∧ u.btn.deb = true)

/-- R29 "No command writes it", R42 "The configuration is read-only after reset": no step changes CFG. -/
def Obligations.NoStepChangesTheConfiguration : Prop :=
  ∀ s t : State, step s = .next t → t.cfg = s.cfg

-- Arithmetic ---------------------------------------------------------------------------------------------------------

/-- R12 "round-to-nearest, ties-to-even": a finite result of rounding n / d units is a binary32 value; no finite binary32 value
is nearer; where another is equally near, the result's bit pattern is the even one; and the result is infinite exactly when the
exact value lies at or beyond the midpoint between the greatest finite value and 2^128. -/
def Obligations.RoundingIsToNearestEven : Prop :=
  ∀ (neg : Bool) (n d : Nat), 0 < d →
    (∀ g mag, f32Round neg n d = .fin g mag → g = neg ∧ f32Datum (f32Bits (.fin g mag)) = .fin g mag ∧
      ∀ (b : F32) (h : Bool) (m : Nat), f32Datum b = .fin h m →
        ((n : Int) - mag * d).natAbs ≤ ((n : Int) - m * d).natAbs ∧
        (((n : Int) - mag * d).natAbs = ((n : Int) - m * d).natAbs → m ≠ mag →
          (f32Bits (.fin g mag)).getLsbD 0 = false)) ∧
    (f32Round neg n d = .inf neg ↔ (2 ^ 25 - 1) * 2 ^ 252 * d ≤ n) ∧
    f32Round neg n d ≠ .nan ∧ f32Round neg n d ≠ .inf (!neg)

/-- R12: a bit pattern is read by the IEEE layout (R33 2); each operation on finite values rounds its exact result once; the
special cases are IEEE's; f32_neg "flips the sign bit only"; comparisons "are false when either operand is NaN, and −0.0
compares equal to +0.0"; and the literals are exact. -/
def Obligations.OperationsRoundTheExactResultOnce : Prop :=
  (∀ (neg : Bool) (e : BitVec 8) (f : BitVec 23), f32Datum (bit neg ++ e ++ f) =
    if e = 255#8 then (if f = 0#23 then .inf neg else .nan)
    else if e = 0#8 then .fin neg f.toNat else .fin neg ((2 ^ 23 + f.toNat) * 2 ^ (e.toNat - 1))) ∧
  (∀ (na nb : Bool) (a b : Nat), let n : Int := (if na then -(a : Int) else a) + (if nb then -(b : Int) else b)
    f32Add (.fin na a) (.fin nb b) = (if n = 0 then .fin (na && nb) 0 else f32Round (decide (n < 0)) n.natAbs 1) ∧
    f32Mul (.fin na a) (.fin nb b) = f32Round (na ^^ nb) (a * b) (2 ^ 149) ∧
    (b ≠ 0 → f32Div (.fin na a) (.fin nb b) = f32Round (na ^^ nb) (a * 2 ^ 149) b) ∧
    (a ≠ 0 → f32Div (.fin na a) (.fin nb 0) = .inf (na ^^ nb) ∧ f32Mul (.fin na a) (.inf nb) = .inf (na ^^ nb) ∧
      f32Mul (.inf nb) (.fin na a) = .inf (na ^^ nb)) ∧
    f32Div (.fin na 0) (.fin nb 0) = .nan ∧ f32Mul (.fin na 0) (.inf nb) = .nan ∧ f32Mul (.inf nb) (.fin na 0) = .nan ∧
    f32Add (.fin na a) (.inf nb) = .inf nb ∧ f32Add (.inf na) (.fin nb b) = .inf na ∧
    f32Add (.inf na) (.inf nb) = (if na = nb then .inf na else .nan) ∧ f32Mul (.inf na) (.inf nb) = .inf (na ^^ nb) ∧
    f32Div (.inf na) (.inf nb) = .nan ∧ f32Div (.inf na) (.fin nb b) = .inf (na ^^ nb) ∧
    f32Div (.fin na a) (.inf nb) = .fin (na ^^ nb) 0 ∧
    (f32Lt (.fin na a) (.fin nb b) = true ↔ (if na then -(a : Int) else a) < (if nb then -(b : Int) else b)) ∧
    (f32Le (.fin na a) (.fin nb b) = true ↔ (if na then -(a : Int) else a) ≤ (if nb then -(b : Int) else b))) ∧
  (∀ x y : Datum, f32Sub x y = f32Add x (f32Neg y) ∧ f32Ge x y = f32Le y x ∧ f32Gt x y = f32Lt y x) ∧
  (∀ x : Datum, f32Add .nan x = .nan ∧ f32Add x .nan = .nan ∧ f32Mul .nan x = .nan ∧ f32Mul x .nan = .nan ∧
    f32Div .nan x = .nan ∧ f32Div x .nan = .nan ∧ f32Lt .nan x = false ∧ f32Lt x .nan = false ∧
    f32Le .nan x = false ∧ f32Le x .nan = false) ∧
  (∀ n : Int, f32FromInt n = f32Round (decide (n < 0)) (n.natAbs * 2 ^ 149) 1) ∧
  (∀ b : F32, f32Datum b ≠ .nan → f32Bits (f32Neg (f32Datum b)) = b ^^^ 0x80000000#32) ∧ f32Neg .nan = .nan ∧
  (∀ (b : F32) (g : Bool) (m : Nat), f32Datum b = .fin g m →
    f32Lt (.fin g m) (.inf false) = true ∧ f32Lt (.inf true) (.fin g m) = true ∧
    f32Le (.inf false) (.fin g m) = false ∧ f32Le (.fin g m) (.inf true) = false) ∧
  (∀ g h : Bool, f32Le (.inf g) (.inf h) = (g || !h) ∧ f32Lt (.inf g) (.inf h) = (g && !h)) ∧
  (∀ g h : Bool, f32Le (.fin g 0) (.fin h 0) = true ∧ f32Lt (.fin g 0) (.fin h 0) = false) ∧
  f32Datum 0x00000000#32 = .fin false 0 ∧ f32Datum 0x40000000#32 = .fin false (2 * 2 ^ 149) ∧
  f32Datum 0x41200000#32 = .fin false (10 * 2 ^ 149) ∧ f32Datum 0x447A0000#32 = .fin false (1000 * 2 ^ 149)

/-- R13: clamp returns an argument within the bounds unchanged, −0.0 included, the bound it lies beyond otherwise, and `lo` for a
NaN; its result is a number within the bounds. -/
def Obligations.ClampReturnsArgumentOrBound : Prop :=
  ∀ x lo hi : Datum, f32Le lo hi = true →
    (f32Ge x lo = true → f32Le x hi = true → f32Clamp x lo hi = x) ∧
    (f32Gt x hi = true → f32Clamp x lo hi = hi) ∧
    (f32Lt x lo = true → f32Clamp x lo hi = lo) ∧
    (x = .nan → f32Clamp x lo hi = lo) ∧
    (f32Ge (f32Clamp x lo hi) lo = true ∧ f32Le (f32Clamp x lo hi) hi = true) ∧
    f32Clamp (f32Datum 0x80000000#32) f32Zero (.fin false f32One) = f32Datum 0x80000000#32

/-- R14 and R15: the saturating increment and the elapsed time as integers. -/
def Obligations.CountersSaturateAndClockWraps : Prop :=
  (∀ n : U32, (satInc32 n).toNat = min (n.toNat + 1) (2 ^ 32 - 1)) ∧
  ∀ now t : U32, (elapsed now t : Int) = ((now.toNat : Int) - t.toNat) % 2 ^ 32

-- PID ----------------------------------------------------------------------------------------------------------------

/-- R63, R65: PID_COMPUTE is PidCore. Disabled: +0.0, nothing written. Gated: PID.LOUT, nothing written. Otherwise every line of
R63 in its order, one rounded operation each; the integral term uses the accumulator from before; the response carries the
output. With a NaN gain the accumulator line stands as R63 writes it, which is the model's reading against a row of
93_implementation_defined.md (log entry 16). -/
def Obligations.PidComputeFollowsPidCore : Prop :=
  ∀ (s : State) (pv : F32),
    (s.pid.en = false → exec (.pidCompute pv) s = .next { s with outbox := s.outbox ++ [⟨0#64, []⟩] }) ∧
    (s.pid.en = true → (s.env.now - s.pid.lt).toNat < s.cfg.sampleTimeMs.toNat →
      exec (.pidCompute pv) s = .next { s with outbox := s.outbox ++ [⟨0x00#8 ++ pidFields s.pid.lout, []⟩] }) ∧
    (s.pid.en = true → s.cfg.sampleTimeMs.toNat ≤ (s.env.now - s.pid.lt).toNat →
      let e := (s.env.now - s.pid.lt).toNat
      let dt := f32Div (f32FromInt e) (.fin false (1000 * 2 ^ 149))
      let err := f32Sub (f32Datum s.pid.sp) (f32Datum pv)
      let p := f32Mul (f32Datum s.pid.kp) err
      let dm := f32Sub (f32Datum pv) (f32Datum s.pid.lpv)
      let d := f32Neg (f32Div (f32Mul (f32Datum s.pid.kd) dm) dt)
      let i := f32Mul (f32Datum s.pid.ki) (f32Datum s.pid.i)
      let u := f32Add (f32Add p i) d
      let lo := f32Datum s.cfg.outMin
      let hi := f32Datum s.cfg.outMax
      let bound := f32Mul (.fin false (2 * 2 ^ 149)) (f32Sub hi lo)
      let sat := (f32Ge u hi && f32Gt err (.fin false 0)) || (f32Le u lo && f32Lt err (.fin false 0))
      let acc := if sat then s.pid.i
        else f32Bits (f32Clamp (f32Add (f32Datum s.pid.i) (f32Mul err dt)) (f32Neg bound) bound)
      let out := f32Bits (f32Clamp u lo hi)
      exec (.pidCompute pv) s = .next { s with
        pid := { s.pid with i := acc, lpv := pv, lt := s.env.now, lout := out }
        outbox := s.outbox ++ [⟨0x00#8 ++ pidFields out, []⟩] })

/-- R64: the non-finite cases of a full computation. (a) err NaN: the accumulator becomes −IMAX. (b) u NaN: the output is OUT_MIN.
(c) u = +∞ with err > 0: the accumulator holds and the output is OUT_MAX. (d) PID.LPV is pv as given, and a NaN PID.LPV gives
OUT_MIN. No output is a NaN. -/
def Obligations.PidNonFiniteCases : Prop :=
  ∀ (s : State) (pv : F32), cfgWf s.cfg = true → s.pid.en = true →
    s.cfg.sampleTimeMs.toNat ≤ (s.env.now - s.pid.lt).toNat →
    let x := pidTerms s.pid (s.env.now - s.pid.lt).toNat pv
    ∃ t, exec (.pidCompute pv) s = .next t ∧ t.pid.lpv = pv ∧ f32IsNaN t.pid.lout = false ∧
      (x.err = .nan → t.pid.i = f32Bits (f32Neg (imax s.cfg))) ∧
      (x.u = .nan → t.pid.lout = s.cfg.outMin) ∧
      (x.u = .inf false → f32Gt x.err f32Zero = true → t.pid.i = s.pid.i ∧ t.pid.lout = s.cfg.outMax) ∧
      (f32IsNaN s.pid.lpv = true → t.pid.lout = s.cfg.outMin)

/-- R70 (1), (2): from any registers and any pv, NaN and infinities included, a full computation returns a value in
[OUT_MIN, OUT_MAX], and an accumulator within [−IMAX, IMAX] stays there. -/
def Obligations.PidOutputAndAccumulatorBounded : Prop :=
  ∀ (s : State) (pv : F32), cfgWf s.cfg = true → s.pid.en = true →
    s.cfg.sampleTimeMs.toNat ≤ (s.env.now - s.pid.lt).toNat →
    ∃ t, exec (.pidCompute pv) s = .next t ∧ f32Within t.pid.lout (outMin s.cfg) (outMax s.cfg) = true ∧
      (f32Within s.pid.i (f32Neg (imax s.cfg)) (imax s.cfg) = true →
        f32Within t.pid.i (f32Neg (imax s.cfg)) (imax s.cfg) = true)

/-- R70 (3): PID.LT moves only by an enabled computation at least CFG.SAMPLE_TIME_MS after the last one, and moves to NOW; and
without it PID.I, PID.LPV and PID.LOUT change only to +0.0. No command writes any of them otherwise. -/
def Obligations.PidComputesNoFasterThanTheSampleTime : Prop :=
  ∀ (i : Instr) (s t : State), exec i s = .next t →
    (t.pid.lt ≠ s.pid.lt → s.pid.en = true ∧ s.cfg.sampleTimeMs.toNat ≤ (s.env.now - s.pid.lt).toNat ∧
      t.pid.lt = s.env.now) ∧
    ((s.pid.en = false ∨ (s.env.now - s.pid.lt).toNat < s.cfg.sampleTimeMs.toNat) →
      t.pid.lt = s.pid.lt ∧
      ((t.pid.i = s.pid.i ∧ t.pid.lpv = s.pid.lpv ∧ t.pid.lout = s.pid.lout) ∨
        (t.pid.i = 0#32 ∧ t.pid.lpv = 0#32 ∧ t.pid.lout = 0#32)))

/-- R66, R67, R69: each setter writes its one register with the operand as given, PID_RESET zeroes PID.I, PID.LPV and PID.LOUT
alone, and each responds with no result field. -/
def Obligations.PidSettersAndReset : Prop :=
  ∀ (s : State) (x : F32), let out := s.outbox ++ [⟨0#64, []⟩]
    exec (.pidSetSetpoint x) s = .next { s with pid := { s.pid with sp := x }, outbox := out } ∧
    exec (.pidSetKp x) s = .next { s with pid := { s.pid with kp := x }, outbox := out } ∧
    exec (.pidSetKi x) s = .next { s with pid := { s.pid with ki := x }, outbox := out } ∧
    exec (.pidSetKd x) s = .next { s with pid := { s.pid with kd := x }, outbox := out } ∧
    exec .pidReset s = .next { s with pid := { s.pid with i := 0#32, lpv := 0#32, lout := 0#32 }, outbox := out }

/-- R68: PID_ENABLE 1 enables and resets, every time; PID_ENABLE 0 changes PID.EN alone. -/
def Obligations.PidEnableResetsAndDisableKeeps : Prop :=
  ∀ s : State, let out := s.outbox ++ [⟨0#64, []⟩]
    exec (.pidEnable true) s =
      .next { s with pid := { s.pid with en := true, i := 0#32, lpv := 0#32, lout := 0#32 }, outbox := out } ∧
    exec (.pidEnable false) s = .next { s with pid := { s.pid with en := false }, outbox := out }

-- Sensor health and decoder --------------------------------------------------------------------------------------------

/-- R61, R55: DECODE_SAMPLE drives DQ low for CFG.T_START_US, releases it, and responds with the decode's result; it writes no
register but DEC.DQ_OE, which ends 0. The result is R55's, the first failing step first (R91 2): NoResponse when one of the
three handshake waits times out; else Timeout when a wait of a data bit does, however many bits before it passed; else the
sample of the forty bits, or ChecksumMismatch. H and T are 0 with an error. -/
def Obligations.DecodeSampleRespondsTheResult : Prop :=
  ∀ s : State, let c := s.cfg; let r := decodeLine c s.env
    exec .decodeSample s = .next { s with
      dqOe := false
      outbox := s.outbox ++ [⟨0x00#8 ++ decodeFields r.err r.h r.t, [.driveLow s.cfg.tStartUs.toNat, .release]⟩] } ∧
    (r.err ≠ .ok → r.t = 0#16 ∧ r.h = 0#16) ∧
    let w1 := waitWhile c.pollGUs.toNat true c.hsTimeoutUs.toNat ⟨s.env.line, s.env.draws, []⟩
    let w2 := waitWhile c.pollGUs.toNat false c.hsTimeoutUs.toNat w1.2
    let w3 := waitWhile c.pollGUs.toNat true c.hsTimeoutUs.toNat w2.2
    (w1.1 = none ∨ w2.1 = none ∨ w3.1 = none → r = ⟨.noResponse, 0#16, 0#16⟩) ∧
    (w1.1.isSome = true → w2.1.isSome = true → w3.1.isSome = true →
      ∀ (n : Nat) (ls : Nat → LineState) (ms : Nat → Nat), ls 0 = w3.2 → (∀ k < n, dataBit c (ls k) (ms k) (ls (k + 1))) →
        (n < 40 → dataTimeout c (ls n) → r = ⟨.timeout, 0#16, 0#16⟩) ∧
        (n = 40 → ∀ b0 b1 b2 b3 b4 : Byte,
          (∀ k < 40, (b0 ++ b1 ++ b2 ++ b3 ++ b4).getLsbD (39 - k) = decide (c.bitThresholdUs.toNat < ms k)) →
          (b4 = b0 + b1 + b2 + b3 → r = ⟨.ok, temperatureOf b2 b3, humidityOf b0 b1⟩) ∧
          (b4 ≠ b0 + b1 + b2 + b3 → r = ⟨.checksumMismatch, 0#16, 0#16⟩)))

/-- R60: when every run the procedure waits on meets the margins, the decode does not depend on the measurement draws. -/
def Obligations.DecodeIndependentOfDraws : Prop :=
  ∀ (c : Cfg) (e : Env) (draws : List Int), decodeMargins c e →
    decodeLine c { e with draws := draws } = decodeLine c { e with draws := [] }

/-- R53, R54: a measured duration lies within max(0, d − G) and d + G, and every value there is measured for some draw. A wait on
an infinite run times out; where the level is another it returns 0 and takes nothing; otherwise it times out exactly when the
measurement is over the limit, and else returns it and consumes the run. After the trace the line is high forever, and adjacent
runs of one level are one run. -/
def Obligations.MeasurementsAreExactlyTheAllowedOnes : Prop :=
  (∀ G d : Nat,
    (∀ x, d - G ≤ measured G d x ∧ measured G d x ≤ d + G) ∧
    ∀ m, d - G ≤ m → m ≤ d + G → ∃ x, measured G d x = m) ∧
  (∀ (G limit : Nat) (L : Bool) (l : LineState), let d := (currentRun L l.runs).1; let w := waitWhile G L limit l
    (d = none → w.1 = none) ∧
    (d = some 0 → w.1 = some 0 ∧ w.2.runs = l.runs ∧ w.2.draws = l.draws) ∧
    ∀ k, d = some k → k ≠ 0 → let m := measured G k (l.draws.head?.getD 0)
      (limit < m → w.1 = none) ∧
      (m ≤ limit → w.1 = some m ∧ w.2.runs = (currentRun L l.runs).2 ∧ w.2.draws = l.draws.tail)) ∧
  currentRun true [] = (none, []) ∧ currentRun false [] = (some 0, []) ∧
  ∀ (L : Bool) (us : Nat) (rs : List Run), 0 < us →
    currentRun L (⟨!L, us⟩ :: rs) = (some 0, ⟨!L, us⟩ :: rs) ∧
    currentRun L (⟨L, us⟩ :: rs) = ((currentRun L rs).1.map (us + ·), (currentRun L rs).2)

/-- R41, R112: a decode makes at most 83 waits and ends within T_START_US + 3 × (HS_TIMEOUT_US + G) + 80 × (BIT_TIMEOUT_US + G)
µs, whatever the line does. -/
def Obligations.DecodeEndsInBoundedTime : Prop :=
  ∀ (c : Cfg) (e : Env), (decodeWaits c e).length ≤ 83 ∧
    decodeUs c e ≤ c.tStartUs.toNat + 3 * (c.hsTimeoutUs.toNat + c.pollGUs.toNat) +
      80 * (c.bitTimeoutUs.toNat + c.pollGUs.toNat)

/-- 95_test_vectors.md L1-1, L1-2 over R55 to R59: the nominal trace of any five bytes decodes, whatever the draws, to the
documented humidity and temperature when the fifth byte is the sum of the others, and to ChecksumMismatch otherwise. -/
def Obligations.NominalTraceDecodesExactly : Prop :=
  ∀ (c : Cfg) (e : Env) (b0 b1 b2 b3 b4 : Byte), nominalCfg c → e.line = nomTrace b0 b1 b2 b3 b4 →
    (b4 = b0 + b1 + b2 + b3 → decodeLine c e = ⟨.ok, temperatureOf b2 b3, humidityOf b0 b1⟩) ∧
    (b4 ≠ b0 + b1 + b2 + b3 → decodeLine c e = ⟨.checksumMismatch, 0#16, 0#16⟩)

/-- R58, R59: humidity is the big-endian unsigned value of its two bytes; temperature is sign and magnitude, within ±32767, and
"minus zero" is 0. -/
def Obligations.SampleValuesFromBytes : Prop :=
  ∀ hi lo : Byte,
    (humidityOf hi lo).toNat = 256 * hi.toNat + lo.toNat ∧
    (temperatureOf hi lo).toInt =
      (if hi.toNat < 128 then ((256 * hi.toNat + lo.toNat : Nat) : Int)
       else -((256 * (hi.toNat - 128) + lo.toNat : Nat) : Int)) ∧
    -32767 ≤ (temperatureOf hi lo).toInt ∧ (temperatureOf hi lo).toInt ≤ 32767 ∧
    temperatureOf 0x80#8 0x00#8 = 0#16

/-- R71 (a): a gated SENSOR_UPDATE returns the cached sample; no decode runs, DQ is not driven, no register changes. -/
def Obligations.SensorUpdateGated : Prop :=
  ∀ s : State, (s.env.now - s.sh.lrt).toNat < s.cfg.readIntervalMs.toNat →
    exec .sensorUpdate s = .next { s with outbox := s.outbox ++ [⟨0x00#8 ++ sampleFields s.sh.h s.sh.t, []⟩] }

/-- R71: an open gate and a successful decode: the interval restarts, SH.FAILS and SH.PROB clear, the sample is cached and
returned; SH.SAFE and SH.LERR stay. -/
def Obligations.SensorUpdateSuccess : Prop :=
  ∀ s : State, s.cfg.readIntervalMs.toNat ≤ (s.env.now - s.sh.lrt).toNat → (decodeLine s.cfg s.env).err = .ok →
    let r := decodeLine s.cfg s.env
    exec .sensorUpdate s = .next { s with
      dqOe := false
      sh := { s.sh with fails := 0#32, prob := false, t := r.t, h := r.h, lrt := s.env.now }
      outbox := s.outbox ++ [⟨0x00#8 ++ sampleFields r.h r.t, [.driveLow s.cfg.tStartUs.toNat, .release]⟩] }

/-- R71: an open gate and a failed decode: the interval restarts, the failure is counted and recorded, SENSOR_FAILURE is emitted,
and when the count reaches CFG.MAX_SENSOR_FAILURES or probation holds, a safe flag falls and ENTERED_UNSAFE is emitted; the
cached sample is returned unchanged. -/
def Obligations.SensorUpdateFailure : Prop :=
  ∀ s : State, s.cfg.readIntervalMs.toNat ≤ (s.env.now - s.sh.lrt).toNat → (decodeLine s.cfg s.env).err ≠ .ok →
    let fails := BitVec.ofNat 32 (min (s.sh.fails.toNat + 1) (2 ^ 32 - 1))
    let trip := s.sh.safe && (decide (s.cfg.maxSensorFailures.toNat ≤ fails.toNat) || s.sh.prob)
    exec .sensorUpdate s = .next { s with
      dqOe := false
      sh := { s.sh with
        fails := fails
        lerr := (decodeLine s.cfg s.env).err
        safe := if trip then false else s.sh.safe
        prob := if trip then false else s.sh.prob
        lrt := s.env.now }
      evt := if trip then s.evt ||| 0b0001#4 ||| 0b0010#4 else s.evt ||| 0b0001#4
      outbox := s.outbox ++ [⟨0x00#8 ++ sampleFields s.sh.h s.sh.t, [.driveLow s.cfg.tStartUs.toNat, .release]⟩] }

/-- R72, R73: SENSOR_IS_SAFE reports SH.SAFE and writes nothing; SENSOR_RECOVER while unsafe clears the count, sets SH.SAFE and
probation; while safe it "does nothing at all". -/
def Obligations.SensorIsSafeAndRecover : Prop :=
  ∀ s : State,
    exec .sensorIsSafe s = .next { s with outbox := s.outbox ++ [⟨0x00#8 ++ safeFields s.sh.safe, []⟩] } ∧
    (s.sh.safe = false → exec .sensorRecover s = .next { s with
      sh := { s.sh with fails := 0#32, safe := true, prob := true }, outbox := s.outbox ++ [⟨0#64, []⟩] }) ∧
    (s.sh.safe = true → exec .sensorRecover s = .next { s with outbox := s.outbox ++ [⟨0#64, []⟩] })

/-- R74 (1), (4): from SH.SAFE = 1, SH.PROB = 0 and no failure counted, fewer than N = CFG.MAX_SENSOR_FAILURES consecutive failed
reads leave SH.SAFE set and emit no ENTERED_UNSAFE, and the N-th clears it and emits it. -/
def Obligations.NFailedReadsLatchUnsafe : Prop :=
  ∀ (es : List Env) (s t : State), cfgWf s.cfg = true → s.sh.safe = true → s.sh.prob = false → s.sh.fails = 0#32 →
    failedReads es s = some t →
    (es.length < s.cfg.maxSensorFailures.toNat → t.sh.safe = true ∧ t.evt.getLsbD 1 = s.evt.getLsbD 1) ∧
    (es.length = s.cfg.maxSensorFailures.toNat → t.sh.safe = false ∧ t.evt.getLsbD 1 = true)

/-- R74 (2), (3): SENSOR_RECOVER sets SH.SAFE, and one more failed read clears it again whatever the threshold; further failed
reads neither set it nor emit ENTERED_UNSAFE again. -/
def Obligations.OneFailureAfterRecoveryTripsAgain : Prop :=
  ∀ (e : Env) (s : State), s.sh.safe = false →
    ∃ t, exec .sensorRecover s = .next t ∧ t.sh.safe = true ∧
      (readFails e t = true → ∃ u, exec .sensorUpdate { t with env := e } = .next u ∧ u.sh.safe = false ∧ u.sh.prob = false ∧
        u.evt.getLsbD 1 = true) ∧
      (readFails e s = true → ∃ u, exec .sensorUpdate { s with env := e } = .next u ∧ u.sh.safe = false ∧
        u.evt.getLsbD 1 = s.evt.getLsbD 1)

/-- R21: every one-bit state of its table moves only by the commands it names. SH.SAFE rises only by SENSOR_RECOVER and falls only
by SENSOR_UPDATE or HEATER_CHECK; SH.PROB rises only by SENSOR_RECOVER and falls only by a SENSOR_UPDATE that succeeds or
trips, or a HEATER_CHECK that trips; HH.FAILED rises only by HEATER_CHECK and falls only by HEATER_RESET; PID.EN is written only
by PID_ENABLE and ARB.SAFE only by ARBITER_STEP, from their operands; BTN.RAW, BTN.DEB, BTN.HELD and BTN.FAST only by
BUTTON_POLL; and an EVT bit is cleared only by EVENTS_READ. -/
def Obligations.FlagsMoveOnlyByTheirCommands : Prop :=
  ∀ (i : Instr) (s t : State), exec i s = .next t →
    (s.sh.safe = false → t.sh.safe = true → i = .sensorRecover) ∧
    (s.sh.safe = true → t.sh.safe = false → i = .sensorUpdate ∨ ∃ p o c, i = .heaterCheck p o c) ∧
    (s.sh.prob = false → t.sh.prob = true → i = .sensorRecover ∧ s.sh.safe = false) ∧
    (s.sh.prob = true → t.sh.prob = false →
      (i = .sensorUpdate ∧ ((decodeLine s.cfg s.env).err = .ok ∨ (s.sh.safe = true ∧ t.sh.safe = false))) ∨
      ((∃ p o c, i = .heaterCheck p o c) ∧ s.sh.safe = true ∧ t.sh.safe = false)) ∧
    (s.hh.failed = false → t.hh.failed = true → ∃ p o c, i = .heaterCheck p o c) ∧
    (s.hh.failed = true → t.hh.failed = false → i = .heaterReset) ∧
    (t.pid.en ≠ s.pid.en → i = .pidEnable t.pid.en) ∧
    (t.arb.safe ≠ s.arb.safe → ∃ ss hs spt tt, i = .arbiterStep ss hs spt tt ∧ t.arb.safe = (ss && hs)) ∧
    (t.btn.raw ≠ s.btn.raw ∨ t.btn.deb ≠ s.btn.deb ∨ t.btn.held ≠ s.btn.held ∨ t.btn.fast ≠ s.btn.fast → i = .buttonPoll) ∧
    (∀ k, s.evt.getLsbD k = true → t.evt.getLsbD k = false → i = .eventsRead)

-- Heater ---------------------------------------------------------------------------------------------------------------

/-- R75, R76: HEATER_CHECK counts a low check that is commanded on and otherwise clears the count; at the threshold HH.FAILED
latches (HEATER_FAILURE once) and a set SH.SAFE falls with probation (ENTERED_UNSAFE). Low is "not PWR ≥ threshold" for OK and
OVERVOLTAGE, and CFG.DISCONNECTED_IS_FAULT for DISCONNECTED; CST = 3 is illegal and changes nothing. -/
def Obligations.HeaterCheckCountsAndLatches : Prop :=
  ∀ (s : State) (pwr : F32) (on : Bool) (cst : BitVec 2),
    (cst ≠ 3#2 →
      let low := if cst = 1#2 then s.cfg.disconnectedIsFault
        else !f32Ge (f32Datum pwr) (f32Datum s.cfg.powerThresholdW)
      let cnt := if on = true ∧ low = true then BitVec.ofNat 32 (min (s.hh.cnt.toNat + 1) (2 ^ 32 - 1)) else 0#32
      let atMax := decide (s.cfg.heaterFaultMax.toNat ≤ cnt.toNat)
      let fails := atMax && !s.hh.failed
      let trips := atMax && s.sh.safe
      exec (.heaterCheck pwr on cst) s = .next { s with
        hh := ⟨cnt, s.hh.failed || atMax⟩
        sh := { s.sh with safe := s.sh.safe && !atMax, prob := if trips then false else s.sh.prob }
        evt := s.evt ||| (if fails then 0b0100#4 else 0#4) ||| (if trips then 0b0010#4 else 0#4)
        outbox := s.outbox ++ [⟨0x00#8 ++ heaterFields (s.hh.failed || atMax) cnt, []⟩] }) ∧
    exec (.heaterCheck pwr on 3#2) s = .next { s with outbox := s.outbox ++ [⟨0x0100000000000000#64, []⟩] }

/-- R77: HEATER_RESET clears HH.FAILED and HH.CNT and nothing else; SH.SAFE is not set back. -/
def Obligations.HeaterResetClearsTheLatch : Prop :=
  ∀ s : State, exec .heaterReset s = .next { s with hh := ⟨0#32, false⟩, outbox := s.outbox ++ [⟨0#64, []⟩] }

/-- R76, R89 Persistent-Actuator: from a clear count and latch, fewer than N = CFG.HEATER_FAULT_MAX low checks commanded on leave
the latch clear and SH.SAFE as it was; the N-th latches HH.FAILED and clears SH.SAFE. -/
def Obligations.NLowChecksLatchTheHeater : Prop :=
  ∀ (xs : List (F32 × CurrentStatus)) (s t : State), cfgWf s.cfg = true → s.hh = ⟨0#32, false⟩ →
    lowChecks xs s = some t →
    (xs.length < s.cfg.heaterFaultMax.toNat → t.hh.failed = false ∧ t.hh.cnt.toNat = xs.length ∧ t.sh = s.sh) ∧
    (xs.length = s.cfg.heaterFaultMax.toNat → t.hh.failed = true ∧ t.sh.safe = false ∧ t.evt.getLsbD 2 = true)

-- Arbiter --------------------------------------------------------------------------------------------------------------

/-- R78: the arbiter's next state is a function of the operands alone, safety tested before overshoot, compared as integers. -/
def Obligations.ArbiterNextState : Prop :=
  ∀ (s : State) (ss hs : Bool) (spt tt : Tenths), ∃ t, exec (.arbiterStep ss hs spt tt) s = .next t ∧
    t.arb.safe = (ss && hs) ∧
    (t.arb.st = .u ↔ (ss = false ∨ hs = false)) ∧
    (t.arb.st = .soc ↔ (ss = true ∧ hs = true ∧ spt.toInt + s.cfg.overshootMargin.toInt < tt.toInt)) ∧
    (t.arb.st = .sn ↔ (ss = true ∧ hs = true ∧ tt.toInt ≤ spt.toInt + s.cfg.overshootMargin.toInt))

/-- R79: outside Safe-Normal the PID is reset and the duty is +0.0, whatever the PID would compute; not safe is U and overall_safe
0 for every TT and SPT (R91 (5)), safe over the margin is SOC. -/
def Obligations.ArbiterForcesZeroOutsideSafeNormal : Prop :=
  ∀ (s : State) (ss hs : Bool) (spt tt : Tenths),
    let pid : Pid := { s.pid with i := 0#32, lpv := 0#32, lout := 0#32 }
    ((ss && hs) = false → exec (.arbiterStep ss hs spt tt) s = .next { s with
      pid := pid, arb := ⟨.u, 0#32, false⟩, outbox := s.outbox ++ [⟨0x0000000400000000#64, []⟩] }) ∧
    (spt.toInt + s.cfg.overshootMargin.toInt < tt.toInt → exec (.arbiterStep true true spt tt) s = .next { s with
      pid := pid, arb := ⟨.soc, 0#32, true⟩, outbox := s.outbox ++ [⟨0x0000000300000000#64, []⟩] })

/-- R79: in Safe-Normal the step does to the PID what PID_COMPUTE of pv = TT / 10 does, its output is the duty, and nothing else
changes. -/
def Obligations.ArbiterAppliesThePidInSafeNormal : Prop :=
  ∀ (s : State) (spt tt : Tenths), tt.toInt ≤ spt.toInt + s.cfg.overshootMargin.toInt →
    let pv := f32Bits (f32Div (f32FromInt tt.toInt) (.fin false (10 * 2 ^ 149)))
    ∃ u duty, exec (.pidCompute pv) s = .next u ∧ u.outbox = s.outbox ++ [⟨0x00#8 ++ pidFields duty, []⟩] ∧
      exec (.arbiterStep true true spt tt) s = .next { s with
        pid := u.pid, arb := ⟨.sn, duty, true⟩, outbox := s.outbox ++ [⟨0x00#8 ++ arbiterFields .sn true duty, []⟩] }

/-- R80: no command but ARBITER_STEP writes ARB.DUTY, ARB.ST or ARB.SAFE. -/
def Obligations.OnlyTheArbiterWritesTheHeaterCommand : Prop :=
  ∀ (i : Instr) (s t : State), exec i s = .next t → (∀ ss hs spt tt, i ≠ .arbiterStep ss hs spt tt) → t.arb = s.arb

/-- R79 "The duty is always finite and never NaN": under the invariants every duty the arbiter answers is +0.0 or within
[OUT_MIN, OUT_MAX], and it is +0.0 whenever overall_safe is 0. -/
def Obligations.EveryDutyIsSafeToApply : Prop :=
  ∀ (s : State) (ss hs : Bool) (spt tt : Tenths), Inv s → ∃ t, exec (.arbiterStep ss hs spt tt) s = .next t ∧
    dutyOk s.cfg t.arb.duty ∧ finiteField t.arb.duty = true ∧ (t.arb.safe = false → t.arb.duty = 0#32)

-- Button ---------------------------------------------------------------------------------------------------------------

/-- R83 with R81 and R82, step by step: the debounce; the repeat in Fast-Repeat; the press edge from Idle, which sets BTN.HELD and
BTN.PST to NOW; the release, with a single increment before the hold threshold, a fast one past it and none from Fast-Repeat;
the hold, with its immediate fast increment. BUTTON_POLL writes the button unit and EVT[3] alone; the response carries the new
setpoint and whether one of the three increments was made, and only then is SETPOINT_CHANGED emitted. -/
def Obligations.ButtonPollReportsTheSetpoint : Prop :=
  ∀ s : State, let c := s.cfg; let now := s.env.now; let b := s.btn
    let inc := fun (step sp : Tenths) =>
      if c.spMax.toInt < sp.toInt + step.toNat then c.spMin else BitVec.ofInt 16 (sp.toInt + step.toNat)
    let pr := s.env.btnPin == c.btnActiveLevel
    let lct := if pr = b.raw then b.lct else now
    let edge := decide (c.debounceMs.toNat ≤ (now - lct).toNat) && pr != b.deb
    let deb := if edge then pr else b.deb
    let rep := b.held && b.fast && decide (c.repeatMs.toNat ≤ (now - b.lft).toNat)
    let sp2 := if rep then inc c.fastStep b.sp else b.sp
    let starts := edge && pr && !b.held && !b.fast
    let pst := if starts then now else b.pst
    let release := edge && !pr
    let pays := release && b.held && !b.fast
    let sp3 := if pays then inc (if (now - b.pst).toNat < c.holdMs.toNat then c.singleStep else c.fastStep) sp2 else sp2
    let held := (b.held || starts) && !release
    let fast := b.fast && !release
    let hold := held && !fast && deb && decide (c.holdMs.toNat ≤ (now - pst).toNat)
    let sp := if hold then inc c.fastStep sp3 else sp3
    let changed := rep || pays || hold
    exec .buttonPoll s = .next { s with
      btn :=
        { raw := pr, deb := deb, lct := lct, pst := pst, held := held, fast := fast || hold
          lft := if rep || hold then now else b.lft, sp := sp }
      evt := if changed then s.evt ||| 0b1000#4 else s.evt
      outbox := s.outbox ++ [⟨0x00#8 ++ buttonFields changed sp, []⟩] }

/-- R84 (1), R82: at most one increment a poll, by the single or the fast step: past CFG.SP_MAX it becomes CFG.SP_MIN exactly,
otherwise the integer sum. -/
def Obligations.AtMostOneIncrementPerPoll : Prop :=
  ∀ s : State, cfgWf s.cfg = true → ∃ t, exec .buttonPoll s = .next t ∧
    (t.btn.sp = s.btn.sp ∨ ∃ step ∈ [s.cfg.singleStep, s.cfg.fastStep],
      (s.cfg.spMax.toInt < s.btn.sp.toInt + step.toNat → t.btn.sp = s.cfg.spMin) ∧
      (s.btn.sp.toInt + step.toNat ≤ s.cfg.spMax.toInt → t.btn.sp.toInt = s.btn.sp.toInt + step.toNat))

/-- R81: the debounced level changes only on a poll that sees the raw level, other than the debounced one, stable for the
debounce window; and on such a poll it does change. -/
def Obligations.DebounceWaitsForAStableLevel : Prop :=
  ∀ s : State, ∃ t, exec .buttonPoll s = .next t ∧ t.btn.raw = (s.env.btnPin == s.cfg.btnActiveLevel) ∧
    t.btn.lct = (if (s.env.btnPin == s.cfg.btnActiveLevel) = s.btn.raw then s.btn.lct else s.env.now) ∧
    (t.btn.deb ≠ s.btn.deb ↔
      (s.env.btnPin == s.cfg.btnActiveLevel) ≠ s.btn.deb ∧ s.cfg.debounceMs.toNat ≤ (s.env.now - t.btn.lct).toNat)

/-- R84 (3): polled every P ms, where P divides CFG.HOLD_MS and CFG.REPEAT_MS, a press held for H = n × P ≥ CFG.HOLD_MS of debounced
duration yields 1 + floor((H − HOLD) / REPEAT) fast increments up to and with the release poll, and ends in Idle. -/
def Obligations.LongPressCountsFastIncrements : Prop :=
  ∀ (c : Cfg) (b : Button) (P : Nat) (pins : List Bool), cfgWf c = true →
    b.held = true → b.fast = false → b.deb = true → 0 < P → P ∣ c.holdMs.toNat → P ∣ c.repeatMs.toNat →
    c.holdMs.toNat ≤ pins.length * P → pins.length * P < 2 ^ 32 →
    edgesOf c (periodicPolls b.pst P 0 pins) b = List.replicate (pins.length - 1) .none ++ [.release] →
    let n := 1 + (pins.length * P - c.holdMs.toNat) / c.repeatMs.toNat
    let q := pollsOf c (periodicPolls b.pst P 0 pins) b
    q.2 = n ∧ q.1.sp = fastIncrements c n b.sp ∧ q.1.held = false ∧ q.1.fast = false

/-- R84 (2): a press whose debounced duration stays below CFG.HOLD_MS yields exactly one increment, by the single step, on the
release poll. -/
def Obligations.ShortPressCountsOneSingleIncrement : Prop :=
  ∀ (c : Cfg) (b : Button) (P : Nat) (pins : List Bool), cfgWf c = true →
    b.held = true → b.fast = false → b.deb = true → 0 < pins.length → pins.length * P < c.holdMs.toNat →
    edgesOf c (periodicPolls b.pst P 0 pins) b = List.replicate (pins.length - 1) .none ++ [.release] →
    let q := pollsOf c (periodicPolls b.pst P 0 pins) b
    q.2 = 1 ∧ q.1.sp = incSetpoint c c.singleStep b.sp ∧ q.1.held = false ∧ q.1.fast = false

-- Events, repetition, host programs --------------------------------------------------------------------------------------

/-- R86: EVENTS_READ answers EVT and clears it in one step. -/
def Obligations.EventsReadAnswersAndClears : Prop :=
  ∀ s : State, exec .eventsRead s = .next { s with
    evt := 0#4, outbox := s.outbox ++ [⟨0x00#8 ++ eventFields s.evt, []⟩] }

/-- R85: every command but EVENTS_READ keeps the set bits and sets each bit exactly when its event happens: a failed read, SH.SAFE
falling, HH.FAILED rising, an increment. -/
def Obligations.EventsComeFromTheirSources : Prop :=
  ∀ (i : Instr) (s t : State), exec i s = .next t → i ≠ .eventsRead →
    t.evt.getLsbD 0 = (s.evt.getLsbD 0 || (decide (i = .sensorUpdate) && readFails s.env s)) ∧
    t.evt.getLsbD 1 = (s.evt.getLsbD 1 || (s.sh.safe && !t.sh.safe)) ∧
    t.evt.getLsbD 2 = (s.evt.getLsbD 2 || (!s.hh.failed && t.hh.failed)) ∧
    t.evt.getLsbD 3 = (s.evt.getLsbD 3 ||
      (decide (i = .buttonPoll) && (pollButton s.cfg s.env.now s.env.btnPin s.btn).changed))

/-- R36: repeated at the same NOW with the same inputs, the PID commands, SENSOR_IS_SAFE, SENSOR_RECOVER, HEATER_RESET and
ARBITER_STEP give the same response and state; a second SENSOR_UPDATE is gated and returns the same sample (for an interval of
at least 1); and a second BUTTON_POLL leaves the state as it is and gives the first response, but for "setpoint changed this
poll" (R50), which is 0 the second time: the whole first response where the first poll changed nothing. The BUTTON_POLL clause is the model's
reading of R83 and R50 against R36's row "gives the same response" (DEDUCED, log entry 9), and not R36's words. -/
def Obligations.RepeatedCommandsAreIdempotent : Prop :=
  (∀ (i : Instr) (s t : State), cfgWf s.cfg = true →
    i ≠ .decodeSample → i ≠ .sensorUpdate → i ≠ .eventsRead → i ≠ .buttonPoll → (∀ p o c, i ≠ .heaterCheck p o c) →
    exec i s = .next t → ∃ r, t.outbox = s.outbox ++ [r] ∧ exec i t = .next { t with outbox := t.outbox ++ [r] }) ∧
  (∀ s t : State, 1 ≤ s.cfg.readIntervalMs.toNat → exec .sensorUpdate s = .next t →
    ∃ r, t.outbox = s.outbox ++ [r] ∧ exec .sensorUpdate t = .next { t with outbox := t.outbox ++ [⟨r.rsp, []⟩] }) ∧
  ∀ s t : State, cfgWf s.cfg = true → exec .buttonPoll s = .next t →
    ∃ changed, t.outbox = s.outbox ++ [⟨0x00#8 ++ buttonFields changed t.btn.sp, []⟩] ∧
      exec .buttonPoll t = .next { t with outbox := t.outbox ++ [⟨0x00#8 ++ buttonFields false t.btn.sp, []⟩] } ∧
      (changed = false → t.btn.sp = s.btn.sp ∧ t.evt = s.evt)

/-- R103, R105, R106, R79: a control cycle always completes; overall_safe is SH.SAFE and not HH.FAILED as the cycle leaves them; when
it is 0 the duty the host applies is +0.0; and under the invariants that duty is safe to apply. -/
def Obligations.ControlCycleAppliesASafeDuty : Prop :=
  ∀ (x : CycleInput) (s : State), cfgWf s.cfg = true → ∃ r, controlCycle x s = some r ∧
    r.state.inbox = s.inbox ∧ r.safe = (r.state.sh.safe && !r.state.hh.failed) ∧ r.duty = r.state.arb.duty ∧
    (r.safe = false → r.duty = 0#32 ∧ r.state.arb.st = .u) ∧ (Inv s → dutyOk s.cfg r.duty ∧ Inv r.state)

/-- R109, R93: after HEATER_RESET and then SENSOR_RECOVER both latches are clear, from any state. "Either command alone leaves the
arbiter in U": while HH.FAILED stands, after a SENSOR_RECOVER alone, and while SH.SAFE is 0, after a HEATER_RESET alone, every
control cycle is not safe, in U, with a duty of +0.0. -/
def Obligations.LeavingUnsafeNeedsBothCommands : Prop :=
  (∀ (s : State) (e1 e2 : Env), cfgWf s.cfg = true →
    ∃ t, issueAll (leaveUnsafe.zip [e1, e2]) s = some t ∧ t.sh.safe = true ∧ t.hh = ⟨0#32, false⟩) ∧
  (∀ (s : State) (e : Env) (x : CycleInput), cfgWf s.cfg = true → s.hh.failed = true →
    ∃ t r, issue .sensorRecover e s = some t ∧ controlCycle x t = some r ∧
      r.safe = false ∧ r.state.arb.st = .u ∧ r.duty = 0#32) ∧
  ∀ (s : State) (e : Env) (x : CycleInput), cfgWf s.cfg = true → s.sh.safe = false →
    ∃ t r, issue .heaterReset e s = some t ∧ controlCycle x t = some r ∧
      r.safe = false ∧ r.state.arb.st = .u ∧ r.duty = 0#32
end

