-- ==== Sys2Proof/Laws/Binary32.lean ====
section
/-! SUPPORT. Laws of the binary32 arithmetic: bit patterns and datums, rounding, order and clamp. -/

namespace Sys2Proof.Machine

/-- Below the 24-bit significand nothing is cut off. -/
theorem f32Exponent_small {m : Nat} (h : m < 2 ^ 24) : f32Exponent m = 0 := by
  unfold f32Exponent
  by_cases hm : m = 0
  · simp [hm]
  · have := (Nat.log2_lt hm).2 h
    omega

/-- A significand with its top bit set fixes the exponent. -/
theorem f32Exponent_normal {m q : Nat} (h1 : 2 ^ 23 ≤ m) (h2 : m < 2 ^ 24) : f32Exponent (m * 2 ^ q) = q := by
  unfold f32Exponent
  have hpos : m * 2 ^ q ≠ 0 := by positivity
  have hlog : (m * 2 ^ q).log2 = 23 + q := by
    rw [Nat.log2_eq_iff hpos, Nat.pow_add, show 23 + q + 1 = 24 + q by omega, Nat.pow_add]
    exact ⟨Nat.mul_le_mul_right _ h1, Nat.mul_lt_mul_of_pos_right h2 (Nat.two_pow_pos q)⟩
  omega

/-- What exponent a magnitude has: the significand below it is under 2^24, and normal when the exponent is not 0. -/
theorem f32Exponent_bounds (mag : Nat) :
    mag < 2 ^ 24 * 2 ^ f32Exponent mag ∧ (f32Exponent mag ≠ 0 → 2 ^ 23 * 2 ^ f32Exponent mag ≤ mag) := by
  unfold f32Exponent
  by_cases hm : mag = 0
  · simp [hm]
  · have hlt := (Nat.log2_lt (k := mag.log2 + 1) hm).1 (by omega)
    have hle := (Nat.le_log2 hm).1 (Nat.le_refl mag.log2)
    constructor
    · rw [← Nat.pow_add]
      exact Nat.lt_of_lt_of_le hlt (Nat.pow_le_pow_right (by omega) (by omega))
    · intro hq
      rw [← Nat.pow_add]
      exact Nat.le_trans (Nat.pow_le_pow_right (by omega) (by omega)) hle

/-- The pattern of a sign and 31 bits, as a number. -/
theorem f32Pattern_toNat (neg : Bool) {low : Nat} (h : low < 2 ^ 31) :
    (f32Pattern neg low).toNat = neg.toNat * 2 ^ 31 + low := by
  unfold f32Pattern bit
  rw [BitVec.toNat_append, BitVec.toNat_ofNat, Nat.mod_eq_of_lt h, Nat.shiftLeft_eq, BitVec.toNat_ofBool,
    ← Nat.shiftLeft_eq, ← Nat.shiftLeft_add_eq_or_of_lt h, Nat.shiftLeft_eq]

/-- A bit pattern, as a number, from its sign, exponent field and fraction. -/
theorem f32_fields (b : F32) :
    b.toNat = b.msb.toNat * 2 ^ 31 + ((b.extractLsb' 23 8).toNat * 2 ^ 23 + (b.extractLsb' 0 23).toNat) ∧
      (b.extractLsb' 23 8).toNat < 256 ∧ (b.extractLsb' 0 23).toNat < 2 ^ 23 := by
  have hb := b.isLt
  refine ⟨?_, (b.extractLsb' 23 8).isLt, (b.extractLsb' 0 23).isLt⟩
  simp only [BitVec.extractLsb'_toNat, Nat.shiftRight_eq_div_pow, BitVec.msb_eq_decide]
  by_cases h : 2 ^ (32 - 1) ≤ b.toNat
  · rw [decide_eq_true h, Bool.toNat_true]; omega
  · rw [decide_eq_false h, Bool.toNat_false]; omega

/-- The datum of a pattern that is no NaN, in one form for every finite value. -/
theorem f32Datum_cases (b : F32) :
    let e := (b.extractLsb' 23 8).toNat
    let f := (b.extractLsb' 0 23).toNat
    (e = 255 ∧ f = 0 ∧ f32Datum b = .inf b.msb) ∨ (e = 255 ∧ f ≠ 0 ∧ f32Datum b = .nan) ∨
    (e = 0 ∧ f32Datum b = .fin b.msb f) ∨
    (e ≠ 0 ∧ e ≠ 255 ∧ f32Datum b = .fin b.msb ((2 ^ 23 + f) * 2 ^ (e - 1))) := by
  unfold f32Datum
  dsimp only
  split <;> rename_i h
  · split <;> simp_all
  · split <;> simp_all

/-- Writing a datum back gives the pattern it was read from. Only a NaN loses anything: its sign and payload. -/
theorem f32Bits_f32Datum {b : F32} (h : f32Datum b ≠ .nan) : f32Bits (f32Datum b) = b := by
  obtain ⟨hb, he, hf⟩ := f32_fields b
  apply BitVec.eq_of_toNat_eq
  rcases f32Datum_cases b with ⟨h1, h2, hd⟩ | ⟨-, -, hd⟩ | ⟨h1, hd⟩ | ⟨h1, h2, hd⟩
  · rw [hd, hb, h1, h2]
    exact f32Pattern_toNat _ (by decide)
  · exact absurd hd h
  · rw [hd, f32Bits, f32Exponent_small (by omega), f32Pattern_toNat _ (by omega)]
    omega
  · rw [hd, f32Bits, f32Exponent_normal (by omega) (by omega), Nat.mul_div_cancel _ (Nat.two_pow_pos _),
      f32Pattern_toNat _ (by omega)]
    omega

/-- Reading back the pattern of a magnitude that is a whole significand times a power of two. -/
theorem f32Datum_pattern_normal (neg : Bool) {m q : Nat} (h1 : 2 ^ 23 ≤ m) (h2 : m < 2 ^ 24) (hq : q < 254) :
    f32Datum (f32Bits (.fin neg (m * 2 ^ q))) = .fin neg (m * 2 ^ q) := by
  rw [f32Bits, f32Exponent_normal h1 h2, Nat.mul_div_cancel _ (Nat.two_pow_pos _)]
  obtain ⟨hb, he, hf⟩ := f32_fields (f32Pattern neg (q * 2 ^ 23 + m))
  have hp := f32Pattern_toNat neg (low := q * 2 ^ 23 + m) (by omega)
  have hmsb : (f32Pattern neg (q * 2 ^ 23 + m)).msb = neg := by
    rw [BitVec.msb_eq_decide, hp]
    cases neg
    · exact decide_eq_false (by simp only [Bool.toNat_false]; omega)
    · exact decide_eq_true (by simp only [Bool.toNat_true]; omega)
  rw [hmsb] at hb
  rcases f32Datum_cases (f32Pattern neg (q * 2 ^ 23 + m)) with ⟨e1, -, -⟩ | ⟨e1, -, -⟩ | ⟨e1, -⟩ | ⟨e1, -, hd⟩
  · omega
  · omega
  · omega
  · rw [hd, hmsb]
    have he' : ((f32Pattern neg (q * 2 ^ 23 + m)).extractLsb' 23 8).toNat = q + 1 := by omega
    have hf' : 2 ^ 23 + ((f32Pattern neg (q * 2 ^ 23 + m)).extractLsb' 0 23).toNat = m := by omega
    rw [he', hf', Nat.add_sub_cancel]

/-- Reading back the pattern of a subnormal magnitude. -/
theorem f32Datum_pattern_small (neg : Bool) {m : Nat} (h : m < 2 ^ 23) :
    f32Datum (f32Bits (.fin neg m)) = .fin neg m := by
  rw [f32Bits, f32Exponent_small (by omega)]
  simp only [Nat.zero_mul, Nat.pow_zero, Nat.div_one, Nat.zero_add]
  obtain ⟨hb, he, hf⟩ := f32_fields (f32Pattern neg m)
  have hp := f32Pattern_toNat neg (low := m) (by omega)
  have hmsb : (f32Pattern neg m).msb = neg := by
    rw [BitVec.msb_eq_decide, hp]
    cases neg
    · exact decide_eq_false (by simp only [Bool.toNat_false]; omega)
    · exact decide_eq_true (by simp only [Bool.toNat_true]; omega)
  rw [hmsb] at hb
  rcases f32Datum_cases (f32Pattern neg m) with ⟨e1, -, -⟩ | ⟨e1, -, -⟩ | ⟨e1, hd⟩ | ⟨e1, -, -⟩
  · omega
  · omega
  · rw [hd, hmsb]; congr 1; omega
  · omega

/-- Reading back the pattern of an infinity. -/
theorem f32Datum_pattern_inf (neg : Bool) : f32Datum (f32Bits (.inf neg)) = .inf neg := by
  cases neg <;> decide

/-- `nearestEven n d` is within half a unit of n / d. -/
theorem nearestEven_spec (n : Nat) {d : Nat} (hd : 0 < d) :
    2 * n ≤ (2 * nearestEven n d + 1) * d ∧ 2 * (nearestEven n d * d) ≤ 2 * n + d := by
  have hn := Nat.div_add_mod n d
  have hr := Nat.mod_lt n hd
  rw [Nat.mul_comm d] at hn
  have h1 (q : Nat) : (2 * q + 1) * d = 2 * (q * d) + d := by ring
  have h2 (q : Nat) : (q + 1) * d = q * d + d := by ring
  unfold nearestEven
  dsimp only
  rw [h1]
  split
  · omega
  · split
    · rw [h2]; omega
    · rcases Nat.mod_two_eq_zero_or_one (n / d) with h | h
      · rw [h, Nat.add_zero]; omega
      · rw [h, h2]; omega

/-- `nearestEven` is monotone against whole numbers. -/
theorem nearestEven_le {n d k : Nat} (hd : 0 < d) (h : n ≤ k * d) : nearestEven n d ≤ k := by
  have hq : n / d ≤ k := by
    calc n / d ≤ k * d / d := Nat.div_le_div_right h
      _ = k := Nat.mul_div_cancel _ hd
  have hn := Nat.div_add_mod n d
  rw [Nat.mul_comm d] at hn
  by_cases hk : n / d = k
  · have hr : n % d = 0 := by rw [hk] at hn; omega
    unfold nearestEven
    simp [hr, hd, hk]
  · unfold nearestEven
    dsimp only
    split
    · omega
    · split
      · omega
      · have := Nat.mod_lt (n / d) (show 0 < 2 by omega); omega

/-- `nearestEven` is monotone against whole numbers. -/
theorem le_nearestEven {n d k : Nat} (hd : 0 < d) (h : k * d ≤ n) : k ≤ nearestEven n d := by
  have hq : k ≤ n / d := (Nat.le_div_iff_mul_le hd).2 h
  unfold nearestEven
  dsimp only
  split
  · exact hq
  · split <;> omega

/-- What rounding gives: a finite value or an infinity, of the sign it was given. -/
theorem f32Round_cases (neg : Bool) (n d : Nat) :
    (∃ mag, f32Round neg n d = .fin neg mag ∧ mag < f32Limit) ∨ f32Round neg n d = .inf neg := by
  unfold f32Round
  dsimp only
  split
  · exact .inl ⟨_, rfl, ‹_›⟩
  · exact .inr rfl

/-- A finite rounded value is a binary32 value: its pattern reads back as itself. -/
theorem f32Round_representable {neg g : Bool} {n d mag : Nat} (hd : 0 < d) (h : f32Round neg n d = .fin g mag) :
    f32Datum (f32Bits (.fin g mag)) = .fin g mag := by
  unfold f32Round at h
  dsimp only at h
  split at h
  · rename_i hlt
    cases h
    generalize hqdef : f32Exponent (n / d) = q at *
    obtain ⟨hb1, hb2⟩ := f32Exponent_bounds (n / d)
    rw [hqdef] at hb1 hb2
    have hdq : 0 < d * 2 ^ q := Nat.mul_pos hd (Nat.two_pow_pos q)
    have hup : nearestEven n (d * 2 ^ q) ≤ 2 ^ 24 := by
      apply nearestEven_le hdq
      have : n < (n / d + 1) * d := by
        have := Nat.div_add_mod n d; have := Nat.mod_lt n hd; nlinarith
      nlinarith
    generalize hm : nearestEven n (d * 2 ^ q) = m at *
    have hlow : q ≠ 0 → 2 ^ 23 ≤ m := by
      intro hq
      rw [← hm]
      apply le_nearestEven hdq
      have := hb2 hq
      have := Nat.div_mul_le_self n d
      nlinarith
    have hq277 : ∀ k j, 2 ^ k ≤ j → j * 2 ^ q < f32Limit → k + q < 128 + 149 := by
      intro k j hj hl
      have h1 : 2 ^ (k + q) ≤ j * 2 ^ q := by rw [Nat.pow_add]; exact Nat.mul_le_mul_right _ hj
      have h2 : f32Limit = 2 ^ (128 + 149) := by rw [Nat.pow_add]; rfl
      exact (Nat.pow_lt_pow_iff_right (by omega)).1 (h2 ▸ Nat.lt_of_le_of_lt h1 hl)
    by_cases hm24 : m = 2 ^ 24
    · have := hq277 24 m (by omega) hlt
      rw [hm24, show 2 ^ 24 * 2 ^ q = 2 ^ 23 * 2 ^ (q + 1) by rw [Nat.pow_succ 2 q]; ring]
      exact f32Datum_pattern_normal _ (by omega) (by omega) (by omega)
    · by_cases hm23 : 2 ^ 23 ≤ m
      · have := hq277 23 m hm23 hlt
        exact f32Datum_pattern_normal _ hm23 (by omega) (by omega)
      · have hq0 : q = 0 := by by_contra hq; exact hm23 (hlow hq)
        subst hq0
        rw [Nat.pow_zero, Nat.mul_one]
        exact f32Datum_pattern_small _ (by omega)
  · cases h

/-- A datum an operation or a register can hold: no NaN, and its pattern reads back as itself. -/
def Representable (x : Datum) : Prop := x ≠ .nan ∧ f32Datum (f32Bits x) = x

theorem representable_datum {b : F32} (h : f32Datum b ≠ .nan) : Representable (f32Datum b) :=
  ⟨h, by rw [f32Bits_f32Datum h]⟩

theorem representable_round (neg : Bool) (n : Nat) {d : Nat} (hd : 0 < d) : Representable (f32Round neg n d) := by
  rcases f32Round_cases neg n d with ⟨mag, h, -⟩ | h
  · exact ⟨by rw [h]; exact Datum.noConfusion, by rw [h]; exact f32Round_representable hd h⟩
  · exact ⟨by rw [h]; exact Datum.noConfusion, by rw [h]; exact f32Datum_pattern_inf neg⟩

theorem representable_neg {x : Datum} (h : Representable x) : Representable (f32Neg x) := by
  obtain ⟨hn, hr⟩ := h
  cases x with
  | nan => exact absurd rfl hn
  | inf neg => exact ⟨Datum.noConfusion, f32Datum_pattern_inf _⟩
  | fin neg mag =>
    refine ⟨Datum.noConfusion, ?_⟩
    rcases f32Datum_cases (f32Bits (.fin neg mag)) with ⟨-, -, hd⟩ | ⟨-, -, hd⟩ | ⟨-, hd⟩ | ⟨he, he', hd⟩
    · rw [hr] at hd; cases hd
    · rw [hr] at hd; cases hd
    · rw [hr] at hd
      have hlt := ((f32Bits (.fin neg mag)).extractLsb' 0 23).isLt
      have h2 := (Datum.fin.inj hd).2
      rw [f32Neg, h2]
      exact f32Datum_pattern_small _ hlt
    · rw [hr] at hd
      have hlt := ((f32Bits (.fin neg mag)).extractLsb' 0 23).isLt
      have hlt' := ((f32Bits (.fin neg mag)).extractLsb' 23 8).isLt
      have h2 := (Datum.fin.inj hd).2
      rw [f32Neg, h2]
      exact f32Datum_pattern_normal _ (by omega) (by omega) (by omega)

/-- Every operation on finite values gives a representable datum or a NaN. -/
theorem representable_addFin (na nb : Bool) (a b : Nat) : Representable (f32AddFin na a nb b) := by
  unfold f32AddFin
  dsimp only
  split
  · exact ⟨Datum.noConfusion, f32Datum_pattern_small _ (by omega)⟩
  · exact representable_round _ _ (by omega)

theorem representable_add {a b : Datum} (h : f32Add a b ≠ .nan) : Representable (f32Add a b) := by
  cases a with
  | nan => simp [f32Add] at h
  | inf na =>
    cases b with
    | nan => simp [f32Add] at h
    | inf nb =>
      by_cases hs : na = nb
      · simp only [f32Add, if_pos hs]; exact ⟨Datum.noConfusion, f32Datum_pattern_inf _⟩
      · simp [f32Add, hs] at h
    | fin nb b => exact ⟨Datum.noConfusion, f32Datum_pattern_inf _⟩
  | fin na a =>
    cases b with
    | nan => simp [f32Add] at h
    | inf nb => exact ⟨Datum.noConfusion, f32Datum_pattern_inf _⟩
    | fin nb b => exact representable_addFin na nb a b

theorem representable_fromInt (n : Int) : Representable (f32FromInt n) := representable_round _ _ (by omega)

/-- A finite value divided by a positive literal is a number. -/
theorem representable_div_literal (na : Bool) (a : Nat) {b : Nat} (hb : b ≠ 0) :
    Representable (f32Div (.fin na a) (.fin false b)) := by
  simp only [f32Div, if_neg hb]
  exact representable_round _ _ (by omega)

/-- `f32_le` is total on numbers, and antisymmetric with `f32_lt`. -/
theorem f32Le_or_f32Gt {a b : Datum} (ha : a ≠ .nan) (hb : b ≠ .nan) : f32Le a b = true ∨ f32Gt a b = true := by
  unfold f32Gt f32Le f32Lt
  cases a <;> cases b <;> simp_all [f32Key] <;> omega

theorem f32Le_refl {a : Datum} (h : a ≠ .nan) : f32Le a a = true := by
  cases a <;> simp_all [f32Le, f32Key]

theorem f32Le_of_f32Lt {a b : Datum} (h : f32Lt a b = true) : f32Le a b = true := by
  unfold f32Lt at h; unfold f32Le
  cases a <;> cases b <;> simp_all [f32Key] <;> omega

theorem f32Le_trans {a b c : Datum} (h1 : f32Le a b = true) (h2 : f32Le b c = true) : f32Le a c = true := by
  unfold f32Le at *
  cases a <;> cases b <;> cases c <;> simp_all [f32Key] <;> omega

/-- A comparison that holds is between numbers. -/
theorem not_nan_of_f32Le {a b : Datum} (h : f32Le a b = true) : a ≠ .nan ∧ b ≠ .nan := by
  cases a <;> cases b <;> simp_all [f32Le, f32Key]

/-- What clamp returns, said once: the argument, within the bounds; or a bound. -/
theorem f32Clamp_cases (x lo hi : Datum) :
    (f32Clamp x lo hi = x ∧ f32Le lo x = true ∧ f32Le x hi = true) ∨ f32Clamp x lo hi = hi ∨ f32Clamp x lo hi = lo := by
  unfold f32Clamp f32Ge
  split
  · rename_i h
    exact .inl ⟨rfl, by simp_all⟩
  · split
    · exact .inr (.inl rfl)
    · exact .inr (.inr rfl)

/-- A clamped value between representable bounds, for an argument that is a NaN or representable: a pattern within the bounds. -/
theorem f32Clamp_within {x lo hi : Datum} (h : f32Le lo hi = true) (hlo : Representable lo) (hhi : Representable hi)
    (hx : x ≠ .nan → Representable x) :
    let y := f32Datum (f32Bits (f32Clamp x lo hi))
    y ≠ .nan ∧ f32Ge y lo = true ∧ f32Le y hi = true := by
  have hl := f32Le_refl hlo.1
  have hh := f32Le_refl hhi.1
  rcases f32Clamp_cases x lo hi with ⟨hc, h1, h2⟩ | hc | hc
  · have := hx (not_nan_of_f32Le h1).2
    simp only [hc, this.2]
    exact ⟨this.1, h1, h2⟩
  · simp only [hc, hhi.2]
    exact ⟨hhi.1, h, hh⟩
  · simp only [hc, hlo.2]
    exact ⟨hlo.1, hl, h⟩

end Sys2Proof.Machine
end

