-- ==== Sys2Proof/Laws/Configuration.lean ====
section
/-! SUPPORT. What a well-formed configuration gives: the conditions of R8 one by one, and the bounds of the PID unit. -/

namespace Sys2Proof.Machine

/-- The conditions of R8 on the numbers, taken apart. -/
theorem cfgWf_numbers {c : Cfg} (h : cfgWf c = true) :
    (∃ n a, outMin c = .fin n a) ∧ (∃ n a, outMax c = .fin n a) ∧ f32Lt (outMin c) (outMax c) = true ∧
      ∃ n a, imax c = .fin n a := by
  have hfin : ∀ x : Datum, f32IsFinite x = true → ∃ n a, x = .fin n a := by
    intro x hx
    cases x with
    | nan => cases hx
    | inf n => cases hx
    | fin n a => exact ⟨n, a, rfl⟩
  simp only [cfgWf, cfgNumbersWf, Bool.and_eq_true] at h
  obtain ⟨⟨⟨⟨⟨⟨⟨⟨⟨⟨-, -⟩, -⟩, h4⟩, h5⟩, -⟩, h7⟩, h8⟩, -⟩, -⟩, -⟩ := h
  exact ⟨hfin _ h4, hfin _ h5, h7, hfin _ h8⟩

/-- The conditions of R8 on times, counts and thresholds, taken apart. -/
theorem cfgWf_times {c : Cfg} (h : cfgWf c = true) :
    1 ≤ c.sampleTimeMs.toNat ∧ 1 ≤ c.repeatMs.toNat ∧ 1 ≤ c.holdMs.toNat ∧ 1 ≤ c.maxSensorFailures.toNat ∧
      1 ≤ c.heaterFaultMax.toNat ∧ c.bitThresholdUs.toNat < c.bitTimeoutUs.toNat ∧ c.pollGUs.toNat ≤ 10 := by
  simp only [cfgWf, cfgTimesWf, Bool.and_eq_true, decide_eq_true_eq] at h
  obtain ⟨⟨-, ⟨⟨⟨⟨⟨h1, h2⟩, h3⟩, h4⟩, h5⟩, h6⟩, h7⟩, -⟩ := h
  exact ⟨h1, h2, h3, h4, h5, h6, h7⟩

/-- The conditions of R8 on temperatures, setpoints and steps, taken apart. -/
theorem cfgWf_setpoints {c : Cfg} (h : cfgWf c = true) :
    0 ≤ c.overshootMargin.toInt ∧ 1 ≤ c.singleStep.toNat ∧ 1 ≤ c.fastStep.toNat ∧
      c.spMin.toInt ≤ c.spDefault.toInt ∧ c.spDefault.toInt ≤ c.spMax.toInt := by
  simp only [cfgWf, cfgSetpointsWf, Bool.and_eq_true, decide_eq_true_eq] at h
  obtain ⟨-, ⟨⟨⟨h1, h2⟩, h3⟩, h4⟩, h5⟩ := h
  exact ⟨h1, h2, h3, h4, h5⟩

/-- The output bounds are representable and in order. -/
theorem outBounds_of_wf {c : Cfg} (h : cfgWf c = true) :
    Representable (outMin c) ∧ Representable (outMax c) ∧ f32Le (outMin c) (outMax c) = true := by
  obtain ⟨⟨n, a, h1⟩, ⟨m, b, h2⟩, h3, -⟩ := cfgWf_numbers h
  refine ⟨representable_datum ?_, representable_datum ?_, f32Le_of_f32Lt h3⟩
  · intro hn; rw [outMin, hn] at h1; cases h1
  · intro hn; rw [outMax, hn] at h2; cases h2

/-- IMAX is a finite value that is not negative (R62). -/
theorem imax_of_wf {c : Cfg} (h : cfgWf c = true) : ∃ a, imax c = .fin false a ∧ Representable (imax c) := by
  obtain ⟨⟨n, a, h1⟩, ⟨m, b, h2⟩, h3, ⟨k, d, h4⟩⟩ := cfgWf_numbers h
  have hlt : signedMag n a < signedMag m b := by
    rw [h1, h2] at h3; simpa [f32Lt, f32Key] using h3
  have hneg : signedMag (!n) a = -signedMag n a := by cases n <;> simp [signedMag]
  have hsub : f32Sub (outMax c) (outMin c) = f32AddFin m b (!n) a := by rw [h1, h2]; rfl
  have hpos : ∃ x y, f32AddFin m b (!n) a = f32Round false x y := by
    unfold f32AddFin
    dsimp only
    rw [hneg, if_neg (by omega), decide_eq_false (by omega)]
    exact ⟨_, _, rfl⟩
  obtain ⟨x, y, hxy⟩ := hpos
  rw [imax, hsub, hxy] at h4 ⊢
  rcases f32Round_cases false x y with ⟨mag, hr, -⟩ | hr
  · rw [hr, f32Two] at h4 ⊢
    simp only [f32Mul, Bool.xor_false] at h4 ⊢
    have hrep := representable_round false (2 * f32One * mag) (show 0 < f32One by decide)
    rcases f32Round_cases false (2 * f32One * mag) f32One with ⟨mag', hr', -⟩ | hr'
    · exact ⟨mag', hr', hrep⟩
    · rw [hr'] at h4; cases h4
  · rw [hr, f32Two] at h4
    simp only [f32Mul] at h4
    split at h4 <;> cases h4

/-- The accumulator's bounds are representable, in order, and on both sides of zero. -/
theorem imaxBounds_of_wf {c : Cfg} (h : cfgWf c = true) :
    Representable (f32Neg (imax c)) ∧ Representable (imax c) ∧ f32Le (f32Neg (imax c)) (imax c) = true ∧
      f32Le (f32Neg (imax c)) f32Zero = true ∧ f32Le f32Zero (imax c) = true := by
  obtain ⟨a, ha, hrep⟩ := imax_of_wf h
  refine ⟨representable_neg hrep, hrep, ?_⟩
  rw [ha]
  simp [f32Le, f32Key, f32Neg, f32Zero, signedMag]

end Sys2Proof.Machine
end

