-- ==== Sys2Proof/Laws/State.lean ====
section
/-! SUPPORT. One lemma per field per named update of State: what the update leaves there. -/

namespace Sys2Proof.Machine

variable (s : State)

@[simp] theorem withPid_cfg (p : Pid) : (s.withPid p).cfg = s.cfg := rfl
@[simp] theorem withPid_pid (p : Pid) : (s.withPid p).pid = p := rfl
@[simp] theorem withPid_dqOe (p : Pid) : (s.withPid p).dqOe = s.dqOe := rfl
@[simp] theorem withPid_sh (p : Pid) : (s.withPid p).sh = s.sh := rfl
@[simp] theorem withPid_hh (p : Pid) : (s.withPid p).hh = s.hh := rfl
@[simp] theorem withPid_arb (p : Pid) : (s.withPid p).arb = s.arb := rfl
@[simp] theorem withPid_btn (p : Pid) : (s.withPid p).btn = s.btn := rfl
@[simp] theorem withPid_evt (p : Pid) : (s.withPid p).evt = s.evt := rfl
@[simp] theorem withPid_env (p : Pid) : (s.withPid p).env = s.env := rfl
@[simp] theorem withPid_inbox (p : Pid) : (s.withPid p).inbox = s.inbox := rfl
@[simp] theorem withPid_outbox (p : Pid) : (s.withPid p).outbox = s.outbox := rfl

@[simp] theorem withDqOe_cfg (b : Bool) : (s.withDqOe b).cfg = s.cfg := rfl
@[simp] theorem withDqOe_pid (b : Bool) : (s.withDqOe b).pid = s.pid := rfl
@[simp] theorem withDqOe_dqOe (b : Bool) : (s.withDqOe b).dqOe = b := rfl
@[simp] theorem withDqOe_sh (b : Bool) : (s.withDqOe b).sh = s.sh := rfl
@[simp] theorem withDqOe_hh (b : Bool) : (s.withDqOe b).hh = s.hh := rfl
@[simp] theorem withDqOe_arb (b : Bool) : (s.withDqOe b).arb = s.arb := rfl
@[simp] theorem withDqOe_btn (b : Bool) : (s.withDqOe b).btn = s.btn := rfl
@[simp] theorem withDqOe_evt (b : Bool) : (s.withDqOe b).evt = s.evt := rfl
@[simp] theorem withDqOe_env (b : Bool) : (s.withDqOe b).env = s.env := rfl
@[simp] theorem withDqOe_inbox (b : Bool) : (s.withDqOe b).inbox = s.inbox := rfl
@[simp] theorem withDqOe_outbox (b : Bool) : (s.withDqOe b).outbox = s.outbox := rfl

@[simp] theorem withSh_cfg (u : SensorHealth) : (s.withSh u).cfg = s.cfg := rfl
@[simp] theorem withSh_pid (u : SensorHealth) : (s.withSh u).pid = s.pid := rfl
@[simp] theorem withSh_dqOe (u : SensorHealth) : (s.withSh u).dqOe = s.dqOe := rfl
@[simp] theorem withSh_sh (u : SensorHealth) : (s.withSh u).sh = u := rfl
@[simp] theorem withSh_hh (u : SensorHealth) : (s.withSh u).hh = s.hh := rfl
@[simp] theorem withSh_arb (u : SensorHealth) : (s.withSh u).arb = s.arb := rfl
@[simp] theorem withSh_btn (u : SensorHealth) : (s.withSh u).btn = s.btn := rfl
@[simp] theorem withSh_evt (u : SensorHealth) : (s.withSh u).evt = s.evt := rfl
@[simp] theorem withSh_env (u : SensorHealth) : (s.withSh u).env = s.env := rfl
@[simp] theorem withSh_inbox (u : SensorHealth) : (s.withSh u).inbox = s.inbox := rfl
@[simp] theorem withSh_outbox (u : SensorHealth) : (s.withSh u).outbox = s.outbox := rfl

@[simp] theorem withHh_cfg (u : HeaterHealth) : (s.withHh u).cfg = s.cfg := rfl
@[simp] theorem withHh_pid (u : HeaterHealth) : (s.withHh u).pid = s.pid := rfl
@[simp] theorem withHh_dqOe (u : HeaterHealth) : (s.withHh u).dqOe = s.dqOe := rfl
@[simp] theorem withHh_sh (u : HeaterHealth) : (s.withHh u).sh = s.sh := rfl
@[simp] theorem withHh_hh (u : HeaterHealth) : (s.withHh u).hh = u := rfl
@[simp] theorem withHh_arb (u : HeaterHealth) : (s.withHh u).arb = s.arb := rfl
@[simp] theorem withHh_btn (u : HeaterHealth) : (s.withHh u).btn = s.btn := rfl
@[simp] theorem withHh_evt (u : HeaterHealth) : (s.withHh u).evt = s.evt := rfl
@[simp] theorem withHh_env (u : HeaterHealth) : (s.withHh u).env = s.env := rfl
@[simp] theorem withHh_inbox (u : HeaterHealth) : (s.withHh u).inbox = s.inbox := rfl
@[simp] theorem withHh_outbox (u : HeaterHealth) : (s.withHh u).outbox = s.outbox := rfl

@[simp] theorem withArb_cfg (u : Arbiter) : (s.withArb u).cfg = s.cfg := rfl
@[simp] theorem withArb_pid (u : Arbiter) : (s.withArb u).pid = s.pid := rfl
@[simp] theorem withArb_dqOe (u : Arbiter) : (s.withArb u).dqOe = s.dqOe := rfl
@[simp] theorem withArb_sh (u : Arbiter) : (s.withArb u).sh = s.sh := rfl
@[simp] theorem withArb_hh (u : Arbiter) : (s.withArb u).hh = s.hh := rfl
@[simp] theorem withArb_arb (u : Arbiter) : (s.withArb u).arb = u := rfl
@[simp] theorem withArb_btn (u : Arbiter) : (s.withArb u).btn = s.btn := rfl
@[simp] theorem withArb_evt (u : Arbiter) : (s.withArb u).evt = s.evt := rfl
@[simp] theorem withArb_env (u : Arbiter) : (s.withArb u).env = s.env := rfl
@[simp] theorem withArb_inbox (u : Arbiter) : (s.withArb u).inbox = s.inbox := rfl
@[simp] theorem withArb_outbox (u : Arbiter) : (s.withArb u).outbox = s.outbox := rfl

@[simp] theorem withBtn_cfg (u : Button) : (s.withBtn u).cfg = s.cfg := rfl
@[simp] theorem withBtn_pid (u : Button) : (s.withBtn u).pid = s.pid := rfl
@[simp] theorem withBtn_dqOe (u : Button) : (s.withBtn u).dqOe = s.dqOe := rfl
@[simp] theorem withBtn_sh (u : Button) : (s.withBtn u).sh = s.sh := rfl
@[simp] theorem withBtn_hh (u : Button) : (s.withBtn u).hh = s.hh := rfl
@[simp] theorem withBtn_arb (u : Button) : (s.withBtn u).arb = s.arb := rfl
@[simp] theorem withBtn_btn (u : Button) : (s.withBtn u).btn = u := rfl
@[simp] theorem withBtn_evt (u : Button) : (s.withBtn u).evt = s.evt := rfl
@[simp] theorem withBtn_env (u : Button) : (s.withBtn u).env = s.env := rfl
@[simp] theorem withBtn_inbox (u : Button) : (s.withBtn u).inbox = s.inbox := rfl
@[simp] theorem withBtn_outbox (u : Button) : (s.withBtn u).outbox = s.outbox := rfl

@[simp] theorem withEvt_cfg (v : BitVec 4) : (s.withEvt v).cfg = s.cfg := rfl
@[simp] theorem withEvt_pid (v : BitVec 4) : (s.withEvt v).pid = s.pid := rfl
@[simp] theorem withEvt_dqOe (v : BitVec 4) : (s.withEvt v).dqOe = s.dqOe := rfl
@[simp] theorem withEvt_sh (v : BitVec 4) : (s.withEvt v).sh = s.sh := rfl
@[simp] theorem withEvt_hh (v : BitVec 4) : (s.withEvt v).hh = s.hh := rfl
@[simp] theorem withEvt_arb (v : BitVec 4) : (s.withEvt v).arb = s.arb := rfl
@[simp] theorem withEvt_btn (v : BitVec 4) : (s.withEvt v).btn = s.btn := rfl
@[simp] theorem withEvt_evt (v : BitVec 4) : (s.withEvt v).evt = v := rfl
@[simp] theorem withEvt_env (v : BitVec 4) : (s.withEvt v).env = s.env := rfl
@[simp] theorem withEvt_inbox (v : BitVec 4) : (s.withEvt v).inbox = s.inbox := rfl
@[simp] theorem withEvt_outbox (v : BitVec 4) : (s.withEvt v).outbox = s.outbox := rfl

@[simp] theorem emit_cfg (e : Event) : (emit e s).cfg = s.cfg := rfl
@[simp] theorem emit_pid (e : Event) : (emit e s).pid = s.pid := rfl
@[simp] theorem emit_dqOe (e : Event) : (emit e s).dqOe = s.dqOe := rfl
@[simp] theorem emit_sh (e : Event) : (emit e s).sh = s.sh := rfl
@[simp] theorem emit_hh (e : Event) : (emit e s).hh = s.hh := rfl
@[simp] theorem emit_arb (e : Event) : (emit e s).arb = s.arb := rfl
@[simp] theorem emit_btn (e : Event) : (emit e s).btn = s.btn := rfl
@[simp] theorem emit_evt (e : Event) : (emit e s).evt = s.evt ||| eventBit e := rfl
@[simp] theorem emit_env (e : Event) : (emit e s).env = s.env := rfl
@[simp] theorem emit_inbox (e : Event) : (emit e s).inbox = s.inbox := rfl
@[simp] theorem emit_outbox (e : Event) : (emit e s).outbox = s.outbox := rfl

@[simp] theorem respondWith_cfg (r : Frame) (dq : List DqEvent) : (respondWith r dq s).cfg = s.cfg := rfl
@[simp] theorem respondWith_pid (r : Frame) (dq : List DqEvent) : (respondWith r dq s).pid = s.pid := rfl
@[simp] theorem respondWith_dqOe (r : Frame) (dq : List DqEvent) : (respondWith r dq s).dqOe = s.dqOe := rfl
@[simp] theorem respondWith_sh (r : Frame) (dq : List DqEvent) : (respondWith r dq s).sh = s.sh := rfl
@[simp] theorem respondWith_hh (r : Frame) (dq : List DqEvent) : (respondWith r dq s).hh = s.hh := rfl
@[simp] theorem respondWith_arb (r : Frame) (dq : List DqEvent) : (respondWith r dq s).arb = s.arb := rfl
@[simp] theorem respondWith_btn (r : Frame) (dq : List DqEvent) : (respondWith r dq s).btn = s.btn := rfl
@[simp] theorem respondWith_evt (r : Frame) (dq : List DqEvent) : (respondWith r dq s).evt = s.evt := rfl
@[simp] theorem respondWith_env (r : Frame) (dq : List DqEvent) : (respondWith r dq s).env = s.env := rfl
@[simp] theorem respondWith_inbox (r : Frame) (dq : List DqEvent) : (respondWith r dq s).inbox = s.inbox := rfl
@[simp] theorem respondWith_outbox (r : Frame) (dq : List DqEvent) : (respondWith r dq s).outbox = s.outbox ++ [⟨r, dq⟩] := rfl

@[simp] theorem dropDelivery_cfg (rest : List Delivery) : (dropDelivery rest s).cfg = s.cfg := rfl
@[simp] theorem dropDelivery_pid (rest : List Delivery) : (dropDelivery rest s).pid = s.pid := rfl
@[simp] theorem dropDelivery_dqOe (rest : List Delivery) : (dropDelivery rest s).dqOe = s.dqOe := rfl
@[simp] theorem dropDelivery_sh (rest : List Delivery) : (dropDelivery rest s).sh = s.sh := rfl
@[simp] theorem dropDelivery_hh (rest : List Delivery) : (dropDelivery rest s).hh = s.hh := rfl
@[simp] theorem dropDelivery_arb (rest : List Delivery) : (dropDelivery rest s).arb = s.arb := rfl
@[simp] theorem dropDelivery_btn (rest : List Delivery) : (dropDelivery rest s).btn = s.btn := rfl
@[simp] theorem dropDelivery_evt (rest : List Delivery) : (dropDelivery rest s).evt = s.evt := rfl
@[simp] theorem dropDelivery_env (rest : List Delivery) : (dropDelivery rest s).env = s.env := rfl
@[simp] theorem dropDelivery_inbox (rest : List Delivery) : (dropDelivery rest s).inbox = rest := rfl
@[simp] theorem dropDelivery_outbox (rest : List Delivery) : (dropDelivery rest s).outbox = s.outbox := rfl

@[simp] theorem acceptDelivery_cfg (d : Delivery) (rest : List Delivery) : (acceptDelivery d rest s).cfg = s.cfg := rfl
@[simp] theorem acceptDelivery_pid (d : Delivery) (rest : List Delivery) : (acceptDelivery d rest s).pid = s.pid := rfl
@[simp] theorem acceptDelivery_dqOe (d : Delivery) (rest : List Delivery) : (acceptDelivery d rest s).dqOe = s.dqOe := rfl
@[simp] theorem acceptDelivery_sh (d : Delivery) (rest : List Delivery) : (acceptDelivery d rest s).sh = s.sh := rfl
@[simp] theorem acceptDelivery_hh (d : Delivery) (rest : List Delivery) : (acceptDelivery d rest s).hh = s.hh := rfl
@[simp] theorem acceptDelivery_arb (d : Delivery) (rest : List Delivery) : (acceptDelivery d rest s).arb = s.arb := rfl
@[simp] theorem acceptDelivery_btn (d : Delivery) (rest : List Delivery) : (acceptDelivery d rest s).btn = s.btn := rfl
@[simp] theorem acceptDelivery_evt (d : Delivery) (rest : List Delivery) : (acceptDelivery d rest s).evt = s.evt := rfl
@[simp] theorem acceptDelivery_env (d : Delivery) (rest : List Delivery) : (acceptDelivery d rest s).env = d.env := rfl
@[simp] theorem acceptDelivery_inbox (d : Delivery) (rest : List Delivery) : (acceptDelivery d rest s).inbox = rest := rfl
@[simp] theorem acceptDelivery_outbox (d : Delivery) (rest : List Delivery) : (acceptDelivery d rest s).outbox = s.outbox := rfl

@[simp] theorem driveLow_eq : driveLow s = s.withDqOe true := rfl

@[simp] theorem releaseLine_eq : releaseLine s = s.withDqOe false := rfl

@[simp] theorem respond_eq (payload : BitVec 56) : respond payload s = respondWith (0x00#8 ++ payload) [] s := rfl

@[simp] theorem illegalCommand_eq : illegalCommand s = respondWith illegalResponse [] s := rfl

end Sys2Proof.Machine
end

