-- ==== Sys2Proof/Laws/Flags.lean ====
section
/-! SUPPORT. What the latch operations can do, said once: the fields they leave alone, and the values of those they write. -/

namespace Sys2Proof.Machine

/-- `tripSensorSafe` changes SH and EVT alone; SH.SAFE ends 0; when it was 1, probation ends and ENTERED_UNSAFE is set. -/
theorem tripSensorSafe_spec (s : State) : tripSensorSafe s =
    if s.sh.safe then
      { s with sh := { s.sh with safe := false, prob := false }, evt := s.evt ||| eventBit .enteredUnsafe }
    else s := rfl

@[simp] theorem tripSensorSafe_safe (s : State) : (tripSensorSafe s).sh.safe = false := by
  rw [tripSensorSafe_spec]; split <;> simp_all

/-- `recoverSensorSafe` changes SH alone; SH.SAFE ends 1. -/
theorem recoverSensorSafe_spec (s : State) : recoverSensorSafe s =
    if s.sh.safe then s else { s with sh := { s.sh with fails := 0#32, safe := true, prob := true } } := rfl

@[simp] theorem recoverSensorSafe_safe (s : State) : (recoverSensorSafe s).sh.safe = true := by
  rw [recoverSensorSafe_spec]; split <;> simp_all

/-- `latchHeaterFailed` changes HH.FAILED and EVT alone; HH.FAILED ends 1. -/
theorem latchHeaterFailed_spec (s : State) : latchHeaterFailed s =
    if s.hh.failed then s
    else { s with hh := { s.hh with failed := true }, evt := s.evt ||| eventBit .heaterFailure } := rfl

@[simp] theorem latchHeaterFailed_failed (s : State) : (latchHeaterFailed s).hh.failed = true := by
  rw [latchHeaterFailed_spec]; split <;> simp_all

end Sys2Proof.Machine
end

