-- ==== Sys2Proof/Laws/Line.lean ====
section
/-! SUPPORT. What a wait, the handshake and the bit loop can do, said once. -/

namespace Sys2Proof.Machine

/-- `waitWhile`: it records the wait; an infinite run times out; a run at the other level returns 0 and takes nothing; a finite
run is measured with one draw and times out, or is consumed. -/
theorem waitWhile_cases (G : Nat) (L : Bool) (limit : Nat) (l : LineState) :
    (waitWhile G L limit l).2.waits = l.waits ++ [⟨L, limit, (currentRun L l.runs).1⟩] ∧
    (((currentRun L l.runs).1 = none ∧ (waitWhile G L limit l).1 = none) ∨
     ((currentRun L l.runs).1 = some 0 ∧ (waitWhile G L limit l).1 = some 0 ∧
       (waitWhile G L limit l).2.runs = l.runs ∧ (waitWhile G L limit l).2.draws = l.draws) ∨
     (∃ d, (currentRun L l.runs).1 = some d ∧ d ≠ 0 ∧ limit < measured G d (l.draws.head?.getD 0) ∧
       (waitWhile G L limit l).1 = none) ∨
     ∃ d, (currentRun L l.runs).1 = some d ∧ d ≠ 0 ∧ measured G d (l.draws.head?.getD 0) ≤ limit ∧
       (waitWhile G L limit l).1 = some (measured G d (l.draws.head?.getD 0)) ∧
       (waitWhile G L limit l).2.runs = (currentRun L l.runs).2 ∧
       (waitWhile G L limit l).2.draws = l.draws.tail) := by
  unfold waitWhile
  cases hd : (currentRun L l.runs).1 with
  | none => simp
  | some d =>
    by_cases h0 : d = 0
    · simp [h0]
    · by_cases hm : limit < measured G d (l.draws.head?.getD 0)
      · simp [h0, hm]
      · simp [h0, hm]
        omega

/-- The level, limit and run of every wait of a handshake: it makes at most as many waits as levels are given. -/
theorem handshake_waits (c : Cfg) (Ls : List Bool) (l : LineState) :
    ∃ ws, (handshake c Ls l).2.waits = l.waits ++ ws ∧ ws.length ≤ Ls.length ∧
      ((handshake c Ls l).1 = true → ws.length = Ls.length) ∧ ∀ w ∈ ws, w.limit = c.hsTimeoutUs.toNat := by
  induction Ls generalizing l with
  | nil => exact ⟨[], by simp [handshake]⟩
  | cons L Ls ih =>
    have hw := (waitWhile_cases c.pollGUs.toNat L c.hsTimeoutUs.toNat l).1
    unfold handshake
    rcases h : waitWhile c.pollGUs.toNat L c.hsTimeoutUs.toNat l with ⟨m, l'⟩
    rw [h] at hw
    dsimp only at hw
    cases m with
    | none => exact ⟨_, hw, by simp⟩
    | some m =>
      obtain ⟨ws, h1, h2, h3, h4⟩ := ih l'
      refine ⟨⟨L, c.hsTimeoutUs.toNat, (currentRun L l.runs).1⟩ :: ws, ?_, ?_, ?_, ?_⟩
      · simp [h1, hw]
      · simpa using h2
      · intro hp; simpa using h3 hp
      · intro w hmem
        rcases List.mem_cons.1 hmem with rfl | hmem
        · rfl
        · exact h4 w hmem

/-- The bit loop makes at most two waits a bit, each with the bit timeout. -/
theorem readBits_waits (c : Cfg) (n : Nat) (sr : BitVec 40) (l : LineState) :
    ∃ ws, (readBits c n sr l).2.waits = l.waits ++ ws ∧ ws.length ≤ 2 * n ∧
      ∀ w ∈ ws, w.limit = c.bitTimeoutUs.toNat := by
  induction n generalizing sr l with
  | zero => exact ⟨[], by simp [readBits]⟩
  | succ n ih =>
    have hw1 := (waitWhile_cases c.pollGUs.toNat false c.bitTimeoutUs.toNat l).1
    unfold readBits
    rcases h1 : waitWhile c.pollGUs.toNat false c.bitTimeoutUs.toNat l with ⟨m1, l1⟩
    rw [h1] at hw1
    dsimp only at hw1
    cases m1 with
    | none =>
      refine ⟨_, hw1, ?_, ?_⟩
      · simp only [List.length_cons, List.length_nil]; omega
      · simp
    | some m1 =>
      have hw2 := (waitWhile_cases c.pollGUs.toNat true c.bitTimeoutUs.toNat l1).1
      dsimp only
      rcases h2 : waitWhile c.pollGUs.toNat true c.bitTimeoutUs.toNat l1 with ⟨m2, l2⟩
      rw [h2] at hw2
      dsimp only at hw2
      cases m2 with
      | none =>
        refine ⟨[⟨false, c.bitTimeoutUs.toNat, (currentRun false l.runs).1⟩,
          ⟨true, c.bitTimeoutUs.toNat, (currentRun true l1.runs).1⟩], ?_, ?_, ?_⟩
        · simp [hw2, hw1]
        · simp only [List.length_cons, List.length_nil]; omega
        · simp
      | some m2 =>
        obtain ⟨ws, h3, h4, h5⟩ := ih (putBit sr n (bitOfDuration c m2)) l2
        refine ⟨⟨false, c.bitTimeoutUs.toNat, (currentRun false l.runs).1⟩ ::
          ⟨true, c.bitTimeoutUs.toNat, (currentRun true l1.runs).1⟩ :: ws, ?_, ?_, ?_⟩
        · simp [h3, hw2, hw1]
        · simp only [List.length_cons]; omega
        · intro w hmem
          simp only [List.mem_cons] at hmem
          rcases hmem with rfl | rfl | hmem
          · rfl
          · rfl
          · exact h5 w hmem

/-- A data bit whose two waits pass: the loop records it and goes on from the line after it. -/
theorem readBits_dataBit {c : Cfg} {l l' : LineState} {m : Nat} (h : dataBit c l m l') (n : Nat) (sr : BitVec 40) :
    readBits c (n + 1) sr l = readBits c n (putBit sr n (bitOfDuration c m)) l' := by
  obtain ⟨h1, h2, h3⟩ := h
  simp only [readBits]
  rcases hw : waitWhile c.pollGUs.toNat false c.bitTimeoutUs.toNat l with ⟨_ | _, l1⟩ <;> rw [hw] at h1 h2 h3
  · simp at h1
  · dsimp only at h2 h3 ⊢
    rcases hv : waitWhile c.pollGUs.toNat true c.bitTimeoutUs.toNat l1 with ⟨_ | _, l2⟩ <;> rw [hv] at h2 h3
    · simp at h2
    · cases h2
      cases h3
      rfl

/-- A data bit that times out ends the loop without a value, whatever was read before it. -/
theorem readBits_timeout {c : Cfg} {l : LineState} (h : dataTimeout c l) (n : Nat) (sr : BitVec 40) :
    (readBits c (n + 1) sr l).1 = none := by
  revert h
  unfold dataTimeout readBits
  rcases waitWhile c.pollGUs.toNat false c.bitTimeoutUs.toNat l with ⟨_ | _, l1⟩
  · intro _; rfl
  · dsimp only
    rcases waitWhile c.pollGUs.toNat true c.bitTimeoutUs.toNat l1 with ⟨_ | _, l2⟩
    · intro _; rfl
    · simp

/-- A decode's error leaves no sample (R61 "never partially valid"). -/
theorem decodeLine_failure (c : Cfg) (e : Env) (h : (decodeLine c e).err ≠ .ok) :
    decodeLine c e = decodeFailure (decodeLine c e).err := by
  revert h
  unfold decodeLine decodeFrom
  split
  · intro _; rfl
  · split
    · intro _; rfl
    · unfold sampleOf
      split
      · intro h; exact absurd rfl h
      · intro _; rfl

end Sys2Proof.Machine
end

