-- ==== Sys2Proof/Laws/PerInstr.lean ====
section
/-! SUPPORT. The per-instruction family `OpcodeByte`: the frame the encoder writes selects its own row of the opcode map, and
carries that row's opcode (30_encoding.md R47). -/

namespace Sys2Proof.Laws.OpcodeByte

/-- The command's frame selects the row with its mnemonic, and its opcode is that row's. -/
def Statement (i : Instr) : Prop :=
  ∃ r ∈ opcodeMap, r.mnemonic = mnemonicOf i ∧ r.selectedBy (encode i) = true ∧ opcOf (encode i) = r.opc

/-- A value under a mask that keeps its high part and drops its low one. -/
theorem and_high {m n : Nat} (f : BitVec (m + n)) :
    f &&& (BitVec.allOnes m ++ 0#n) = f.extractLsb' n m ++ 0#n := by
  apply BitVec.eq_of_getLsbD_eq
  intro k hk
  simp only [BitVec.getLsbD_and, BitVec.getLsbD_append, BitVec.getLsbD_allOnes, BitVec.getLsbD_extractLsb']
  by_cases h : k < n
  · simp [h]
  · have h1 : k - n < m := by omega
    have h2 : n + (k - n) = k := by omega
    simp [h, h1, h2]

/-- A frame of format F under its row's mask, and its opcode byte. -/
theorem encodeF_row (o : BitVec 8) (x : F32) :
    encodeF o x &&& 0xFFFFFFFF00000000#64 = o ++ 0#24 ++ 0#32 ∧ opcOf (encodeF o x) = o := by
  constructor
  · refine (and_high (m := 32) (n := 32) (encodeF o x)).trans ?_
    simp (disch := omega) only [encodeF, BitVec.extractLsb'_append_eq_of_le]
    simp
  · simp (disch := omega) only [opcOf, encodeF, BitVec.extractLsb'_append_eq_of_le]
    simp

/-- A HEATER_CHECK frame under its row's mask, and its opcode byte. -/
theorem heaterCheck_row (pwr : F32) (on : Bool) (cst : BitVec 2) :
    encode (.heaterCheck pwr on cst) &&& 0xFFFFFFF800000000#64 = 0x4000000000000000#64 ∧
      opcOf (encode (.heaterCheck pwr on cst)) = 0x40#8 := by
  constructor
  · refine (and_high (m := 29) (n := 35) (encode (.heaterCheck pwr on cst))).trans ?_
    simp (disch := omega) only [encode, BitVec.extractLsb'_append_eq_of_le]
    decide
  · simp (disch := omega) only [opcOf, encode, BitVec.extractLsb'_append_eq_of_le]
    decide

/-- An ARBITER_STEP frame under its row's mask, and its opcode byte. -/
theorem arbiterStep_row (ss hs : Bool) (spt tt : Tenths) :
    encode (.arbiterStep ss hs spt tt) &&& 0xFFFFFFFC00000000#64 = 0x5000000000000000#64 ∧
      opcOf (encode (.arbiterStep ss hs spt tt)) = 0x50#8 := by
  constructor
  · refine (and_high (m := 30) (n := 34) (encode (.arbiterStep ss hs spt tt))).trans ?_
    simp (disch := omega) only [encode, BitVec.extractLsb'_append_eq_of_le]
    decide
  · simp (disch := omega) only [opcOf, encode, BitVec.extractLsb'_append_eq_of_le]
    decide

theorem decodeSample : Statement .decodeSample := by unfold Statement; decide
theorem pidCompute (arg : F32) : Statement (.pidCompute arg) :=
  ⟨⟨0x20#8, "PID_COMPUTE", .f, 0x2000000000000000#64, 0xFFFFFFFF00000000#64⟩, by decide, rfl,
    beq_iff_eq.2 (encodeF_row 0x20#8 arg).1, (encodeF_row 0x20#8 arg).2⟩
theorem pidSetSetpoint (arg : F32) : Statement (.pidSetSetpoint arg) :=
  ⟨⟨0x21#8, "PID_SET_SETPOINT", .f, 0x2100000000000000#64, 0xFFFFFFFF00000000#64⟩, by decide, rfl,
    beq_iff_eq.2 (encodeF_row 0x21#8 arg).1, (encodeF_row 0x21#8 arg).2⟩
theorem pidReset : Statement .pidReset := by unfold Statement; decide
theorem pidEnable (en : Bool) : Statement (.pidEnable en) := by unfold Statement; revert en; decide
theorem pidSetKp (arg : F32) : Statement (.pidSetKp arg) :=
  ⟨⟨0x24#8, "PID_SET_KP", .f, 0x2400000000000000#64, 0xFFFFFFFF00000000#64⟩, by decide, rfl,
    beq_iff_eq.2 (encodeF_row 0x24#8 arg).1, (encodeF_row 0x24#8 arg).2⟩
theorem pidSetKi (arg : F32) : Statement (.pidSetKi arg) :=
  ⟨⟨0x25#8, "PID_SET_KI", .f, 0x2500000000000000#64, 0xFFFFFFFF00000000#64⟩, by decide, rfl,
    beq_iff_eq.2 (encodeF_row 0x25#8 arg).1, (encodeF_row 0x25#8 arg).2⟩
theorem pidSetKd (arg : F32) : Statement (.pidSetKd arg) :=
  ⟨⟨0x26#8, "PID_SET_KD", .f, 0x2600000000000000#64, 0xFFFFFFFF00000000#64⟩, by decide, rfl,
    beq_iff_eq.2 (encodeF_row 0x26#8 arg).1, (encodeF_row 0x26#8 arg).2⟩
theorem sensorUpdate : Statement .sensorUpdate := by unfold Statement; decide
theorem sensorIsSafe : Statement .sensorIsSafe := by unfold Statement; decide
theorem sensorRecover : Statement .sensorRecover := by unfold Statement; decide
theorem heaterCheck (pwr : F32) (on : Bool) (cst : BitVec 2) : Statement (.heaterCheck pwr on cst) :=
  ⟨⟨0x40#8, "HEATER_CHECK", .h, 0x4000000000000000#64, 0xFFFFFFF800000000#64⟩, by decide, rfl,
    beq_iff_eq.2 (heaterCheck_row pwr on cst).1, (heaterCheck_row pwr on cst).2⟩
theorem heaterReset : Statement .heaterReset := by unfold Statement; decide
theorem arbiterStep (ss hs : Bool) (spt tt : Tenths) : Statement (.arbiterStep ss hs spt tt) :=
  ⟨⟨0x50#8, "ARBITER_STEP", .a, 0x5000000000000000#64, 0xFFFFFFFC00000000#64⟩, by decide, rfl,
    beq_iff_eq.2 (arbiterStep_row ss hs spt tt).1, (arbiterStep_row ss hs spt tt).2⟩
theorem buttonPoll : Statement .buttonPoll := by unfold Statement; decide
theorem eventsRead : Statement .eventsRead := by unfold Statement; decide

end Sys2Proof.Laws.OpcodeByte
end

