-- ==== Sys2Proof/Laws/Units.lean ====
section
/-! SUPPORT. What each unit's shared operation can do, said once: PidCore, the arbiter's duty, the sensor read, the heater check,
the button poll. -/

namespace Sys2Proof.Machine

/-- `pidCore`: disabled, gated, or a full computation (R63). -/
theorem pidCore_cases (c : Cfg) (now : U32) (pv : F32) (r : Pid) :
    (r.en = false ∧ pidCore c now pv r = (r, 0#32)) ∨
    (r.en = true ∧ elapsed now r.lt < c.sampleTimeMs.toNat ∧ pidCore c now pv r = (r, r.lout)) ∨
    (r.en = true ∧ c.sampleTimeMs.toNat ≤ elapsed now r.lt ∧
      pidCore c now pv r = (pidFull c now pv r, (pidFull c now pv r).lout)) := by
  unfold pidCore
  cases hen : r.en with
  | false => exact .inl ⟨rfl, by simp⟩
  | true =>
    by_cases hg : elapsed now r.lt < c.sampleTimeMs.toNat
    · exact .inr (.inl ⟨rfl, hg, by simp [hg]⟩)
    · exact .inr (.inr ⟨rfl, by omega, by simp [hg]⟩)

/-- The registers `PidCore` never writes. -/
theorem pidCore_keeps (c : Cfg) (now : U32) (pv : F32) (r : Pid) :
    let q := (pidCore c now pv r).1
    q.kp = r.kp ∧ q.ki = r.ki ∧ q.kd = r.kd ∧ q.sp = r.sp ∧ q.en = r.en := by
  rcases pidCore_cases c now pv r with ⟨-, h⟩ | ⟨-, -, h⟩ | ⟨-, -, h⟩ <;> rw [h] <;> exact ⟨rfl, rfl, rfl, rfl, rfl⟩

/-- `arbDuty`: PidCore of the temperature in SN, and a cleared PID with duty +0.0 elsewhere (R79). -/
theorem arbDuty_cases (c : Cfg) (now : U32) (st : ArbState) (tt : Tenths) (r : Pid) :
    (st = .sn ∧ arbDuty c now st tt r = pidCore c now (celsius tt) r) ∨
    (st ≠ .sn ∧ arbDuty c now st tt r = (pidClear r, 0#32)) := by
  cases st
  · exact .inl ⟨rfl, rfl⟩
  · exact .inr ⟨by decide, rfl⟩
  · exact .inr ⟨by decide, rfl⟩

/-- `recordResult`: a success caches the sample, a failure is counted and may trip (R71). -/
theorem recordResult_cases (r : DecodeResult) (s : State) :
    (r.err = .ok ∧ recordResult r s = recordSuccess r.t r.h s) ∨
    (r.err ≠ .ok ∧ recordResult r s = recordFailure r.err s) := by
  unfold recordResult
  cases h : r.err
  · exact .inl ⟨rfl, rfl⟩
  all_goals exact .inr ⟨by decide, rfl⟩

/-- `recordFailure` changes SH and EVT alone (R71). -/
theorem recordFailure_spec (e : ErrCode) (s : State) :
    let fails := satInc32 s.sh.fails
    let trip := s.sh.safe && (decide (s.cfg.maxSensorFailures.toNat ≤ fails.toNat) || s.sh.prob)
    recordFailure e s = { s with
      sh := { s.sh with
        fails := fails
        lerr := e
        safe := if trip then false else s.sh.safe
        prob := if trip then false else s.sh.prob }
      evt := if trip then s.evt ||| eventBit .sensorFailure ||| eventBit .enteredUnsafe
        else s.evt ||| eventBit .sensorFailure } := by
  obtain ⟨cfg, pid, dqOe, ⟨fails, safe, prob, lerr, t, h, lrt⟩, hh, arb, btn, evt, env, inbox, outbox⟩ := s
  simp only [recordFailure, countFailure, failureTrips, tripSensorSafe, emit, State.withSh, State.withEvt]
  by_cases hm : cfg.maxSensorFailures.toNat ≤ (satInc32 fails).toNat <;> cases safe <;> cases prob <;> simp [hm]

/-- A read that succeeds (R71): SH.LRT, and the success branch; the line ends released. -/
theorem sensorRead_success {s : State} (h : (decodeLine s.cfg s.env).err = .ok) :
    sensorRead s = { s with
      dqOe := false
      sh := { s.sh with
        fails := 0#32, prob := false, t := (decodeLine s.cfg s.env).t, h := (decodeLine s.cfg s.env).h
        lrt := s.env.now } } := by
  have hr : sensorRead s = recordResult (decodeLine s.cfg s.env)
      ((s.withSh { s.sh with lrt := s.env.now }).withDqOe false) := rfl
  rw [hr]
  rcases recordResult_cases (decodeLine s.cfg s.env)
    ((s.withSh { s.sh with lrt := s.env.now }).withDqOe false) with ⟨-, h'⟩ | ⟨h', -⟩
  · rw [h']; rfl
  · exact absurd h h'

/-- A read that fails (R71): SH.LRT, and the failure branch; the line ends released. -/
theorem sensorRead_failure {s : State} (h : (decodeLine s.cfg s.env).err ≠ .ok) :
    sensorRead s = recordFailure (decodeLine s.cfg s.env).err
      { s with dqOe := false, sh := { s.sh with lrt := s.env.now } } := by
  have hr : sensorRead s = recordResult (decodeLine s.cfg s.env)
      ((s.withSh { s.sh with lrt := s.env.now }).withDqOe false) := rfl
  rw [hr]
  rcases recordResult_cases (decodeLine s.cfg s.env)
    ((s.withSh { s.sh with lrt := s.env.now }).withDqOe false) with ⟨h', -⟩ | ⟨-, h'⟩
  · exact absurd h' h
  · exact h'

/-- A read changes DEC.DQ_OE, SH and EVT alone. -/
theorem sensorRead_frame (s : State) : ∃ u v, sensorRead s = { s with dqOe := false, sh := u, evt := v } := by
  by_cases h : (decodeLine s.cfg s.env).err = .ok
  · exact ⟨_, _, sensorRead_success h⟩
  · rw [sensorRead_failure h, recordFailure_spec]
    exact ⟨_, _, rfl⟩

/-- `heaterCheckState` changes HH, SH.SAFE, SH.PROB and EVT alone (R76). -/
theorem heaterCheckState_spec (on low : Bool) (s : State) :
    let cnt := heaterCount on low s.hh.cnt
    let atMax := decide (s.cfg.heaterFaultMax.toNat ≤ cnt.toNat)
    heaterCheckState on low s = { s with
      hh := ⟨cnt, s.hh.failed || atMax⟩
      sh := { s.sh with
        safe := s.sh.safe && !atMax
        prob := if atMax && s.sh.safe then false else s.sh.prob }
      evt := s.evt ||| (if atMax && !s.hh.failed then eventBit .heaterFailure else 0#4) |||
        (if atMax && s.sh.safe then eventBit .enteredUnsafe else 0#4) } := by
  obtain ⟨cfg, pid, dqOe, ⟨fails, safe, prob, lerr, t, h, lrt⟩, ⟨cnt, failed⟩, arb, btn, evt, env, inbox, outbox⟩ := s
  simp only [heaterCheckState, heaterLatch, tripSensorSafe, latchHeaterFailed, emit, State.withHh, State.withSh,
    State.withEvt]
  by_cases hm : cfg.heaterFaultMax.toNat ≤ (heaterCount on low cnt).toNat <;> cases safe <;> cases failed <;>
    simp [hm]

/-- `debounce`: the raw level is sampled; the debounced level follows it, with an edge, or nothing else changes (R81). -/
theorem debounce_cases (c : Cfg) (now : U32) (pr : Bool) (b : Button) :
    let b1 := sampleRaw now pr b
    b1.raw = pr ∧ b1.deb = b.deb ∧ b1.held = b.held ∧ b1.fast = b.fast ∧ b1.pst = b.pst ∧ b1.lft = b.lft ∧ b1.sp = b.sp ∧
    b1.lct = (if pr = b.raw then b.lct else now) ∧
    ((c.debounceMs.toNat ≤ elapsed now b1.lct ∧ pr ≠ b.deb ∧
        debounce c now pr b = ({ b1 with deb := pr }, if pr then .press else .release)) ∨
      (¬(c.debounceMs.toNat ≤ elapsed now b1.lct ∧ pr ≠ b.deb) ∧ debounce c now pr b = (b1, .none))) := by
  have h1 : (sampleRaw now pr b).raw = pr := by unfold sampleRaw; split <;> simp_all
  have h2 : (sampleRaw now pr b).deb = b.deb := by unfold sampleRaw; split <;> rfl
  refine ⟨h1, h2, ?_, ?_, ?_, ?_, ?_, ?_, ?_⟩
  · unfold sampleRaw; split <;> rfl
  · unfold sampleRaw; split <;> rfl
  · unfold sampleRaw; split <;> rfl
  · unfold sampleRaw; split <;> rfl
  · unfold sampleRaw; split <;> rfl
  · unfold sampleRaw; by_cases h : pr = b.raw <;> simp [h]
  · unfold debounce
    dsimp only
    rw [h1, h2]
    split
    · rename_i h; exact .inl ⟨h.1, h.2, rfl⟩
    · rename_i h; exact .inr ⟨h, rfl⟩

/-- The edge of a debounce says how the debounced level moved; the registers of the press-type machine stay (R81). -/
theorem debounce_edge (c : Cfg) (now : U32) (pr : Bool) (b : Button) :
    let q := debounce c now pr b
    q.1.held = b.held ∧ q.1.fast = b.fast ∧ q.1.pst = b.pst ∧ q.1.lft = b.lft ∧ q.1.sp = b.sp ∧
    (q.2 = .none → q.1.deb = b.deb) ∧ (q.2 = .press → b.deb = false ∧ q.1.deb = true) ∧
    (q.2 = .release → b.deb = true ∧ q.1.deb = false) := by
  obtain ⟨-, h2, h3, h4, h5, h6, h7, -, ⟨-, g, h⟩ | ⟨-, h⟩⟩ := debounce_cases c now pr b <;> rw [h]
  · refine ⟨h3, h4, h5, h6, h7, ?_⟩
    cases pr <;> cases hd : b.deb <;> simp_all
  · exact ⟨h3, h4, h5, h6, h7, fun _ => h2, by simp, by simp⟩

/-- An increment stays in the setpoint range (R82, R32 invariant 8). -/
theorem incSetpoint_range {c : Cfg} (h : cfgWf c = true) (step sp : Tenths)
    (hs : c.spMin.toInt ≤ sp.toInt ∧ sp.toInt ≤ c.spMax.toInt) :
    c.spMin.toInt ≤ (incSetpoint c step sp).toInt ∧ (incSetpoint c step sp).toInt ≤ c.spMax.toInt := by
  obtain ⟨-, -, -, h1, h2⟩ := cfgWf_setpoints h
  unfold incSetpoint
  split
  · omega
  · have e : (BitVec.ofInt 16 (sp.toInt + step.toNat)).toInt = sp.toInt + step.toNat := by
      have := BitVec.toInt_lt (x := c.spMax)
      have := BitVec.le_toInt (x := sp)
      rw [BitVec.toInt_ofInt]
      simp at *
      apply Int.bmod_eq_of_le <;> omega
    omega

/-- `satInc32` as a number (R14). -/
theorem satInc32_toNat (n : U32) : (satInc32 n).toNat = min (n.toNat + 1) (2 ^ 32 - 1) := by
  simp only [satInc32, BitVec.toNat_ofNat]
  omega

/-- What follows the debounce in one poll (R83). -/
abbrev pollRest (c : Cfg) (now : U32) (edge : Edge) (b : Button) : Poll :=
  pollHold c now (pollRelease c now edge (pollPress now edge (pollRepeat c now ⟨b, false⟩)))

/-- One poll is the debounce and the rest (R83). -/
theorem pollButton_eq (c : Cfg) (now : U32) (pin : Bool) (b : Button) : pollButton c now pin b =
    pollRest c now (debounce c now (pressed c pin) b).2 (debounce c now (pressed c pin) b).1 := rfl

/-- A poll from Idle (R83): a press edge starts the press. -/
theorem pollRest_idle {c : Cfg} {now : U32} {b : Button} (hold : 1 ≤ c.holdMs.toNat) (h : b.held = false)
    (hf : b.fast = false) :
    pollRest c now .none b = ⟨b, false⟩ ∧
    pollRest c now .press b = ⟨{ b with held := true, pst := now }, false⟩ ∧
    pollRest c now .release b = ⟨b, false⟩ := by
  obtain ⟨raw, deb, lct, pst, held, fast, lft, sp⟩ := b
  have : elapsed now now = 0 := by simp [elapsed]
  have : ¬ c.holdMs.toNat ≤ 0 := by omega
  simp only at h hf
  subst h hf
  simp [pollRest, pollRepeat, pollPress, pollRelease, pollHold, releaseInc, *]

/-- A poll from Pressed-Waiting (R83): the hold threshold, or the release with its one increment. -/
theorem pollRest_waiting {c : Cfg} {now : U32} {b : Button} (h : b.held = true) (hf : b.fast = false) :
    pollRest c now .none b =
      (if b.deb = true ∧ c.holdMs.toNat ≤ elapsed now b.pst then
        ⟨{ b with fast := true, sp := incSetpoint c c.fastStep b.sp, lft := now }, true⟩ else ⟨b, false⟩) ∧
    pollRest c now .release b =
      ⟨{ b with
        sp := incSetpoint c (if elapsed now b.pst < c.holdMs.toNat then c.singleStep else c.fastStep) b.sp
        held := false }, true⟩ := by
  obtain ⟨raw, deb, lct, pst, held, fast, lft, sp⟩ := b
  simp only at h hf
  subst h hf
  constructor
  · simp [pollRest, pollRepeat, pollPress, pollRelease, pollHold, incBy]
  · by_cases hh : elapsed now pst < c.holdMs.toNat <;>
      simp [pollRest, pollRepeat, pollPress, pollRelease, pollHold, releaseInc, incBy, hh]

/-- A poll from Fast-Repeat (R83): an increment each repeat interval, on the release poll too, and no other on release. -/
theorem pollRest_fast {c : Cfg} {now : U32} {b : Button} (h : b.held = true) (hf : b.fast = true) :
    let q : Poll := if c.repeatMs.toNat ≤ elapsed now b.lft then
        ⟨{ b with sp := incSetpoint c c.fastStep b.sp, lft := now }, true⟩ else ⟨b, false⟩
    pollRest c now .none b = q ∧
    pollRest c now .release b = ⟨{ q.b with held := false, fast := false }, q.changed⟩ := by
  obtain ⟨raw, deb, lct, pst, held, fast, lft, sp⟩ := b
  simp only at h hf
  subst h hf
  constructor <;> by_cases hh : c.repeatMs.toNat ≤ elapsed now lft <;>
      simp [pollRest, pollRepeat, pollPress, pollRelease, pollHold, releaseInc, incBy, hh]

/-- BUTTON_POLL writes the button unit its poll gives, and EVT[3] and the changed bit by whether that poll incremented (R83). -/
theorem execButtonPoll_spec (s : State) : let p := pollButton s.cfg s.env.now s.env.btnPin s.btn
    execButtonPoll s = .next { s with
      btn := p.b
      evt := if p.changed then s.evt ||| 0b1000#4 else s.evt
      outbox := s.outbox ++ [⟨0x00#8 ++ buttonFields p.changed p.b.sp, []⟩] } := by
  intro p
  simp only [execButtonPoll]
  change Host.Outcome.next (respond (buttonFields p.changed p.b.sp)
    (if p.changed then emit .setpointChanged (s.withBtn p.b) else s.withBtn p.b)) = _
  cases p.changed <;> rfl

/-- A value in a range is a number. -/
theorem f32IsNaN_of_within {b : F32} {lo hi : Datum} (h : f32Within b lo hi = true) : f32IsNaN b = false := by
  simp only [f32Within, Bool.and_eq_true] at h
  simpa [f32IsNaN] using (not_nan_of_f32Le h.2).1

/-- +0.0 lies within the accumulator's bounds (R62). -/
theorem f32Within_zero_imax {c : Cfg} (h : cfgWf c = true) : f32Within 0#32 (f32Neg (imax c)) (imax c) = true := by
  obtain ⟨-, -, -, h1, h2⟩ := imaxBounds_of_wf h
  have hz : f32Datum 0#32 = f32Zero := by decide
  simp [f32Within, hz, f32Ge, h1, h2]

/-- A full computation's output lies within [OUT_MIN, OUT_MAX], and it keeps the accumulator's bounds (R70). -/
theorem pidFull_within {c : Cfg} (h : cfgWf c = true) (now : U32) (pv : F32) (r : Pid) :
    f32Within (pidFull c now pv r).lout (outMin c) (outMax c) = true ∧
    (f32Within r.i (f32Neg (imax c)) (imax c) = true →
      f32Within (pidFull c now pv r).i (f32Neg (imax c)) (imax c) = true) := by
  obtain ⟨h1, h2, h3, -, -⟩ := imaxBounds_of_wf h
  obtain ⟨o1, o2, o3⟩ := outBounds_of_wf h
  constructor
  · have := f32Clamp_within (x := (pidTerms r (elapsed now r.lt) pv).u) o3 o1 o2 fun h => representable_add h
    simp only [pidFull, pidOutput, f32Within, this.2.1, this.2.2, Bool.and_self]
  · intro hi
    simp only [pidFull, pidAccumulator]
    split
    · exact hi
    · have := f32Clamp_within (x := f32Add (f32Datum r.i)
        (f32Mul (pidTerms r (elapsed now r.lt) pv).err (pidTerms r (elapsed now r.lt) pv).dt)) h3 h1 h2 representable_add
      simp only [f32Within, this.2.1, this.2.2, Bool.and_self]

end Sys2Proof.Machine
end

