-- ==== Sys2Proof/Laws/Step.lean ====
section
/-! SUPPORT. What a command and a step can do, said once. -/

namespace Sys2Proof.Machine

/-- Every command answers a next state, and leaves the configuration, the environment and the deliveries alone; it adds one
response. -/
theorem exec_next (i : Instr) (s : State) : ∃ t r, exec i s = .next t ∧ t.cfg = s.cfg ∧ t.env = s.env ∧
    t.inbox = s.inbox ∧ t.outbox = s.outbox ++ [r] := by
  cases i
  case sensorUpdate =>
    dsimp only [exec, execSensorUpdate]
    split
    · obtain ⟨u, v, h⟩ := sensorRead_frame s
      rw [h]
      exact ⟨_, _, rfl, rfl, rfl, rfl, rfl⟩
    · exact ⟨_, _, rfl, rfl, rfl, rfl, rfl⟩
  case sensorRecover =>
    dsimp only [exec, execSensorRecover]
    rw [recoverSensorSafe_spec]
    split <;> exact ⟨_, _, rfl, rfl, rfl, rfl, rfl⟩
  case heaterCheck pwr on cst =>
    dsimp only [exec, execHeaterCheck]
    split
    · exact ⟨_, _, rfl, rfl, rfl, rfl, rfl⟩
    · exact ⟨_, _, rfl, by rw [heaterCheckState_spec]; exact ⟨rfl, rfl, rfl, rfl⟩⟩
  case buttonPoll =>
    dsimp only [exec, execButtonPoll]
    split <;> exact ⟨_, _, rfl, rfl, rfl, rfl, rfl⟩
  all_goals exact ⟨_, _, rfl, rfl, rfl, rfl, rfl⟩

/-- What a step can do: nothing, with nothing delivered; answer an illegal frame; or run the command of a legal one. -/
theorem step_cases {s t : State} (h : step s = .next t) : cfgWf s.cfg = true ∧
    ((s.inbox = [] ∧ t = s) ∨
      ∃ d rest f, s.inbox = d :: rest ∧ frameOfBytes d.bytes = some f ∧
        ((decode f = none ∧ t = respondWith illegalResponse [] (dropDelivery rest s)) ∨
          ∃ i, decode f = some i ∧ exec i (acceptDelivery d rest s) = .next t)) := by
  unfold step at h
  split at h
  · rename_i hc
    refine ⟨hc, ?_⟩
    split at h
    · rename_i hi
      exact .inl ⟨hi, by cases h; rfl⟩
    · rename_i d rest hi
      unfold runDelivery at h
      split at h
      · cases h
      · rename_i f hf
        refine .inr ⟨d, rest, f, hi, hf, ?_⟩
        split at h
        · rename_i hd
          exact .inl ⟨hd, by cases h; rfl⟩
        · rename_i i hd
          exact .inr ⟨i, hd, h⟩
  · cases h

/-- A step never changes the configuration. -/
theorem step_cfg {s t : State} (h : step s = .next t) : cfgWf t.cfg = true := by
  obtain ⟨hc, ⟨-, rfl⟩ | ⟨d, rest, f, -, -, ⟨-, rfl⟩ | ⟨i, -, he⟩⟩⟩ := step_cases h
  · exact hc
  · exact hc
  · obtain ⟨t', -, h', hcfg, -⟩ := exec_next i (acceptDelivery d rest s)
    rw [he] at h'
    cases h'
    rw [hcfg]
    exact hc

end Sys2Proof.Machine
end

