-- ==== Sys2Proof/Tests/Slice0.lean ====
section
/-! SUPPORT. Tests of the model: ill-formed terms the checks refuse, words of the formats with their commands, and single steps
with results from 95_test_vectors.md. Each test names its vector there. Then, for each statement with hypotheses, a named
witness that meets them. -/

namespace Sys2Proof.Tests

-- One theorem at a time: the kernel evaluations below each take a thread otherwise.
set_option Elab.async false

open Sys2Proof.Machine

/-- An environment with a time, the button pin at its idle level 1, and no sensor on the line. -/
def atTime (now : Nat) : Env := ⟨BitVec.ofNat 32 now, true, [], []⟩

/-- The trace NOM(02 8C 01 5F EE). -/
def goodTrace : List Run := nomTrace 0x02#8 0x8C#8 0x01#8 0x5F#8 0xEE#8

/-- A time with a good sensor trace. -/
def goodAt (now : Nat) : Env := { atTime now with line := goodTrace }

/-- The state after the frame `f` is delivered under `e`. -/
def after (f : Frame) (e : Env) (s : State) : Option State := nextState (step { s with inbox := [⟨bytesOfFrame f, e⟩] })

/-- The response to the frame, and a part of the state after it. -/
def see {α : Type} (part : State → α) (f : Frame) (e : Env) (s : State) : Option (Frame × α) :=
  (after f e s).map fun t => (lastRsp t, part t)

/-- Reset with changed PID registers. -/
def pidStart (g : Pid → Pid) : State := { State.reset with pid := g State.reset.pid }

/-- Reset with changed sensor-health registers. -/
def shStart (g : SensorHealth → SensorHealth) : State := { State.reset with sh := g State.reset.sh }

/-- The start of the arbiter's vectors: SP = 50.0, I = 20.0. -/
def arbStart : State := pidStart fun p => { p with sp := 0x42480000#32, i := 0x41A00000#32 }

/-- A state after a heater latch: HH.FAILED set, SH.SAFE clear, two events pending, the clock well on. -/
def latched : State :=
  { State.reset with
    hh := ⟨3#32, true⟩, sh := { State.reset.sh with safe := false, fails := 7#32 }, evt := 0b0110#4
    arb := ⟨.u, 0#32, false⟩, env := atTime 5000 }

-- Well-formedness ----------------------------------------------------------------------------------------------------

/-- R49 (c): CST = 3 is the one operand value that is refused. -/
theorem test_wf_refuses_cst_3 : (Instr.heaterCheck 0#32 true 3#2).wf = false := by decide
/-- R49 (c): its neighbour is accepted. -/
theorem test_wf_accepts_cst_2 : (Instr.heaterCheck 0#32 true 2#2).wf = true := by decide
/-- R8: EX is well-formed. -/
theorem test_cfg_accepts_ex : cfgWf Cfg.ex = true := by decide
/-- R8: OUT_MIN < OUT_MAX. -/
theorem test_cfg_refuses_empty_range : cfgWf { Cfg.ex with outMax := 0x80000000#32 } = false := by decide
/-- R8: OUT_MAX = 3.4e38 is finite, and IMAX overflows. -/
theorem test_cfg_refuses_infinite_imax : cfgWf { Cfg.ex with outMax := 0x7F7FFFFF#32 } = false := by decide
/-- R8: a NaN gain. -/
theorem test_cfg_refuses_nan_gain : cfgWf { Cfg.ex with kp0 := 0x7FC00000#32 } = false := by decide
/-- R8: POWER_THRESHOLD_W > 0. -/
theorem test_cfg_refuses_zero_power : cfgWf { Cfg.ex with powerThresholdW := 0#32 } = false := by decide
/-- R8: G ≤ 10, and the bit threshold below the bit timeout. -/
theorem test_cfg_refuses_line_times :
    cfgWf { Cfg.ex with pollGUs := 11#32 } = false ∧ cfgWf { Cfg.ex with bitThresholdUs := 100#32 } = false := by decide
/-- R8: the counts and times that must be at least 1. -/
theorem test_cfg_refuses_zero_counts :
    cfgWf { Cfg.ex with sampleTimeMs := 0#32 } = false ∧ cfgWf { Cfg.ex with repeatMs := 0#32 } = false ∧
    cfgWf { Cfg.ex with holdMs := 0#32 } = false ∧ cfgWf { Cfg.ex with maxSensorFailures := 0#32 } = false ∧
    cfgWf { Cfg.ex with heaterFaultMax := 0#32 } = false := by decide
/-- R8: the setpoint fields. -/
theorem test_cfg_refuses_setpoints :
    cfgWf { Cfg.ex with spDefault := 801#16 } = false ∧ cfgWf { Cfg.ex with spDefault := 299#16 } = false ∧
    cfgWf { Cfg.ex with overshootMargin := 0xFFFF#16 } = false ∧ cfgWf { Cfg.ex with singleStep := 0#16 } = false ∧
    cfgWf { Cfg.ex with fastStep := 0#16 } = false := by decide

-- Decoding: a word for every command, from the formats of R45 and the opcodes of R47 -----------------------------------

theorem test_decode_decodeSample : decode 0x1000000000000000#64 = some .decodeSample := by decide
theorem test_decode_pidCompute : decode 0x2000000041A00000#64 = some (.pidCompute 0x41A00000#32) := by decide
theorem test_decode_pidSetSetpoint : decode 0x21000000424C0000#64 = some (.pidSetSetpoint 0x424C0000#32) := by decide
theorem test_decode_pidReset : decode 0x2200000000000000#64 = some .pidReset := by decide
/-- ENC-11. -/
theorem test_decode_pidEnable : decode 0x2300000000000001#64 = some (.pidEnable true) := by decide
theorem test_decode_pidSetKp : decode 0x2400000040000000#64 = some (.pidSetKp 0x40000000#32) := by decide
theorem test_decode_pidSetKi : decode 0x250000003A83126F#64 = some (.pidSetKi 0x3A83126F#32) := by decide
theorem test_decode_pidSetKd : decode 0x2600000080000000#64 = some (.pidSetKd 0x80000000#32) := by decide
theorem test_decode_sensorUpdate : decode 0x3000000000000000#64 = some .sensorUpdate := by decide
theorem test_decode_sensorIsSafe : decode 0x3100000000000000#64 = some .sensorIsSafe := by decide
theorem test_decode_sensorRecover : decode 0x3200000000000000#64 = some .sensorRecover := by decide
/-- ENC-14: CST = 1 at bits 34:33, ON at bit 32. -/
theorem test_decode_heaterCheck : decode 0x4000000300000000#64 = some (.heaterCheck 0#32 true 1#2) := by decide
theorem test_decode_heaterReset : decode 0x4100000000000000#64 = some .heaterReset := by decide
/-- ARB-2: SS is bit 33, HS is bit 32. -/
theorem test_decode_arbiterStep : decode 0x5000000201F4015F#64 = some (.arbiterStep true false 500#16 351#16) := by decide
theorem test_decode_buttonPoll : decode 0x6000000000000000#64 = some .buttonPoll := by decide
theorem test_decode_eventsRead : decode 0x7000000000000000#64 = some .eventsRead := by decide
/-- ENC-1 to ENC-10: the illegal frames. -/
theorem test_decode_illegal : ([0#64, 0x1000000000000001#64, 0x2000000100000000#64, 0x2300000000000002#64,
    0x4000000600000000#64, 0x4000000800000000#64, 0x5000000400000000#64, 0x1100000000000000#64, 0xFF00000000000000#64,
    0x6000000000000001#64].map decode).all Option.isNone = true := by decide
/-- R33: byte 0 is bits [63:56]. -/
theorem test_bytes_big_endian : decodeBytes [0x50#8, 0#8, 0#8, 3#8, 0x01#8, 0xF4#8, 0xFF#8, 0x9B#8] =
    some (.arbiterStep true true 500#16 0xFF9B#16) := by decide
/-- The host's question about a table word. -/
theorem test_decodeTableWord : decodeTableWord 64 0x1000000000000000 = some .decodeSample := by decide

-- The assembler (R52) --------------------------------------------------------------------------------------------------

/-- ENC-12. -/
theorem test_assemble_heater : (assembleLine "HEATER_CHECK 12.5, on, ok".toList).map (·.map encode) =
    some [0x4000000141480000#64] := by decide +kernel
/-- ENC-13. -/
theorem test_assemble_arbiter : (assembleLine "ARBITER_STEP t=-101, sp=500, ss=1, hs=1".toList).map (·.map encode) =
    some [0x5000000301F4FF9B#64] := by decide +kernel
/-- R52: the pseudo-instruction; 0.1 and 0.001 as in PID-4 and PID-5. -/
theorem test_assemble_gains : (assembleLine "PID_SET_GAINS 0.1, 0.001, raw(0x80000000)".toList).map (·.map encode) =
    some [0x240000003DCCCCCD#64, 0x250000003A83126F#64, 0x2600000080000000#64] := by decide +kernel
/-- R52: another spelling is refused. -/
theorem test_assemble_refuses : assembleLine "HEATER_CHECK 12.5, on, bad".toList = none := by decide +kernel

-- One step each, with the results of 95_test_vectors.md -----------------------------------------------------------------

/-- DEC-2: the sign bit of the temperature. -/
theorem test_decodeSample_negative : see (fun t => (t.dqOe, t.outbox.map (·.dq))) 0x1000000000000000#64
    { atTime 0 with line := nomTrace 0x02#8 0x8C#8 0x80#8 0x65#8 0x73#8 } State.reset =
    some (0x00000000028CFF9B#64, false, [[.driveLow 20000, .release]]) := by decide +kernel
/-- DEC-6: no peer. -/
theorem test_decodeSample_noResponse : see (·.evt) 0x1000000000000000#64 (atTime 0) State.reset =
    some (0x0000000300000000#64, 0#4) := by decide +kernel
/-- PID-6: proportional, integral and derivative terms. -/
theorem test_pidCompute_terms : see (fun t => (t.pid.i, t.pid.lpv, t.pid.lt)) 0x2000000041F80000#64 (atTime 2500)
    (pidStart fun p => { p with
      sp := 0x42200000#32, kp := 0x40000000#32, ki := 0#32, kd := 0x40400000#32, lpv := 0x41F00000#32, lt := 1000#32 }) =
    some (0x0000000041800000#64, 0x41580000#32, 0x41F80000#32, 2500#32) := by decide +kernel
/-- PID-9b: the clamp keeps −0.0. -/
theorem test_pidCompute_negative_zero : see (fun _ => ()) 0x2000000000000000#64 (atTime 1000)
    (pidStart fun p => { p with sp := 0x80000000#32, kp := 0x3F800000#32, ki := 0xBF800000#32, kd := 0#32 }) =
    some (0x0000000080000000#64, ()) := by decide +kernel
/-- P3 step 8. -/
theorem test_pidSetSetpoint : see (fun t => (t.pid.sp, t.pid.kp)) 0x21000000424C0000#64 (atTime 1150) State.reset =
    some (0#64, 0x424C0000#32, 0x40800000#32) := by decide +kernel
/-- PID-16. -/
theorem test_pidReset : see (fun t => (t.pid.i, t.pid.lpv, t.pid.lout, t.pid.lt)) 0x2200000000000000#64 (atTime 2100)
    (pidStart fun p => { p with i := 0x41EE6668#32, lpv := 0x420C6666#32, lout := 0x42283335#32, lt := 2000#32 }) =
    some (0#64, 0#32, 0#32, 0#32, 2000#32) := by decide +kernel
/-- PID-11: enabling resets. -/
theorem test_pidEnable_resets : see (fun t => (t.pid.en, t.pid.i, t.pid.lt)) 0x2300000000000001#64 (atTime 3000)
    (pidStart fun p => { p with i := 0x40A00000#32, lt := 1000#32, en := false }) =
    some (0#64, true, 0#32, 1000#32) := by decide +kernel
/-- PID-11: disabling keeps the accumulator. -/
theorem test_pidEnable_keeps : see (fun t => (t.pid.en, t.pid.i)) 0x2300000000000000#64 (atTime 1500)
    (pidStart fun p => { p with i := 0x40A00000#32 }) = some (0#64, false, 0x40A00000#32) := by decide +kernel
/-- P5 step 6. -/
theorem test_pidSetKp : see (fun t => (t.pid.kp, t.pid.ki, t.pid.kd)) 0x2400000040000000#64 (atTime 3000) State.reset =
    some (0#64, 0x40000000#32, 0x3F000000#32, 0x3F800000#32) := by decide +kernel
/-- R69, with the gain of PID-5. -/
theorem test_pidSetKi : see (fun t => (t.pid.kp, t.pid.ki, t.pid.kd)) 0x250000003A83126F#64 (atTime 0) State.reset =
    some (0#64, 0x40800000#32, 0x3A83126F#32, 0x3F800000#32) := by decide +kernel
/-- P5 step 2. -/
theorem test_pidSetKd : see (fun t => (t.pid.kp, t.pid.ki, t.pid.kd)) 0x2600000000000000#64 (atTime 0) State.reset =
    some (0#64, 0x40800000#32, 0x3F000000#32, 0#32) := by decide +kernel
/-- SH-5: a success while unsafe does not set SH.SAFE. -/
theorem test_sensorUpdate_success : see (fun t => (t.sh.fails, t.sh.safe, t.evt)) 0x3000000000000000#64 (goodAt 2000)
    (shStart fun u => { u with safe := false, fails := 5#32 }) =
    some (0x00000000028C015F#64, 0#32, false, 0#4) := by decide +kernel
/-- SH-4: a failure in probation. -/
theorem test_sensorUpdate_probation : see (fun t => (t.sh.fails, t.sh.safe, t.sh.prob, t.evt)) 0x3000000000000000#64 (atTime 8000)
    (shStart fun u => { u with prob := true, lrt := 6000#32 }) = some (0#64, 1#32, false, false, 0b0011#4) := by
  decide +kernel
/-- P2 step 5. -/
theorem test_sensorIsSafe : see (·.evt) 0x3100000000000000#64 (atTime 6000)
    (shStart fun u => { u with safe := false }) = some (0#64, 0#4) := by decide +kernel
/-- P1 step 3. -/
theorem test_sensorIsSafe_set : see (·.evt) 0x3100000000000000#64 (atTime 2000) State.reset = some (1#64, 0#4) := by decide +kernel
/-- SH-3: recovery, with SH.LRT unchanged. -/
theorem test_sensorRecover : see (·.sh) 0x3200000000000000#64 (atTime 6500)
    (shStart fun u => { u with safe := false, fails := 3#32, lrt := 6000#32, lerr := .noResponse }) =
    some (0#64, ⟨0#32, true, true, .noResponse, 0#16, 0#16, 6000#32⟩) := by decide +kernel
/-- SH-6: no effect while safe. -/
theorem test_sensorRecover_safe : see (fun t => (t.sh.fails, t.sh.prob)) 0x3200000000000000#64 (atTime 0)
    (shStart fun u => { u with fails := 2#32 }) = some (0#64, 2#32, false) := by decide +kernel
/-- SH-11: the heater latch clears SH.SAFE and probation. -/
theorem test_heaterCheck_latch : see (fun t => (t.hh.failed, t.sh.safe, t.sh.prob, t.evt)) 0x4000000100000000#64 (atTime 0)
    { shStart (fun u => { u with prob := true }) with hh := ⟨2#32, false⟩ } =
    some (0x0000000100000003#64, true, false, false, 0b0110#4) := by decide +kernel
/-- HH-1 and HH-2: the threshold itself is not low, the value below it is. -/
theorem test_heaterCheck_threshold : see (·.hh.cnt) 0x4000000140A00000#64 (atTime 0) State.reset = some (0#64, 0#32) ∧
    see (·.hh.cnt) 0x40000001409FFFFF#64 (atTime 0) State.reset = some (1#64, 1#32) := by decide +kernel
/-- HH-14. -/
theorem test_heaterReset : see (fun t => (t.hh, t.sh.safe)) 0x4100000000000000#64 (atTime 5500) latched =
    some (0#64, ⟨0#32, false⟩, false) := by decide +kernel
/-- ARB-6: Safe-Normal with pv = −10.1. -/
theorem test_arbiterStep_normal : see (fun t => (t.pid.i, t.pid.lpv, t.arb.duty)) 0x5000000301F4FF9B#64 (atTime 1000) arbStart =
    some (0x0000000142C80000#64, 0x41A00000#32, 0xC121999A#32, 0x42C80000#32) := by decide +kernel
/-- ARB-4 and ARB-1: one over the margin is SOC; not safe is U; both reset the PID. -/
theorem test_arbiterStep_forced :
    see (fun t => (t.pid.i, t.arb.st)) 0x5000000301F40227#64 (atTime 1000) arbStart = some (0x0000000300000000#64, 0#32, .soc) ∧
    see (fun t => (t.pid.i, t.arb.st)) 0x5000000101F4015F#64 (atTime 1000) arbStart = some (0x0000000400000000#64, 0#32, .u) := by
  decide +kernel
/-- BTN-4, last poll: the compensation increment on release. -/
theorem test_buttonPoll_compensation : see (fun t => (t.btn.held, t.evt)) 0x6000000000000000#64 (atTime 1740)
    { State.reset with btn := ⟨false, true, 1690#32, 1050#32, true, false, 0#32, 500#16⟩ } =
    some (0x0000000100000226#64, false, 0b1000#4) := by decide +kernel
/-- BTN-2b, release poll: no wrap at equality. -/
theorem test_buttonPoll_single : see (·.btn.held) 0x6000000000000000#64 (atTime 1250)
    { State.reset with btn := ⟨false, true, 1200#32, 1050#32, true, false, 0#32, 790#16⟩ } =
    some (0x0000000100000320#64, false) := by decide +kernel
/-- EVT-3. -/
theorem test_eventsRead : see (·.evt) 0x7000000000000000#64 (atTime 0) latched = some (6#64, 0#4) := by decide +kernel
/-- ENC-10: an illegal frame samples nothing and changes no state. -/
theorem test_illegal : after 0x6000000000000001#64 { atTime 1150 with btnPin := false } latched =
    some { latched with outbox := [⟨0x0100000000000000#64, []⟩] } := by decide +kernel

-- Witnesses: for each statement with hypotheses, inputs that meet them all, clause by clause at the boundary --------------

/-- A second well-formed configuration: a range of −100.0 to 100.0, thresholds of 1, no debounce, an active-high button. -/
def otherCfg : Cfg :=
  { Cfg.ex with
    outMin := 0xC2C80000#32, disconnectedIsFault := true, btnActiveLevel := true, debounceMs := 0#32
    maxSensorFailures := 1#32, heaterFaultMax := 1#32, sampleTimeMs := 1#32, spDefault := 300#16 }

/-- A delivery of a legal frame. -/
def legalDelivery : Delivery := ⟨bytesOfFrame 0x5000000301F4015F#64, atTime 6000⟩

/-- A delivery of an illegal frame. -/
def illegalDelivery : Delivery := ⟨bytesOfFrame 0x4000000600000000#64, atTime 6000⟩

/-- The latched state with deliveries waiting. -/
def waiting (ds : List Delivery) : State := { latched with inbox := ds }

theorem witness_DecodeOfEncode : ∃ i : Instr, i = .heaterCheck 0x80000000#32 false 2#2 ∧ i.wf = true := ⟨_, rfl, by decide⟩
theorem witness_EncodeOfDecode : decode 0x5000000380007FFF#64 = some (.arbiterStep true true 0x8000#16 0x7FFF#16) := by decide
theorem witness_DecodeFollowsTheOpcodeMap :
    decode 0x23000000FFFFFFFF#64 = none ∧ (∀ r ∈ opcodeMap, r.opc ≠ opcOf 0xFF00000000000000#64) ∧
    ∃ r ∈ opcodeMap, r.selectedBy 0x4000000600000000#64 = true := by decide +kernel
theorem witness_FramesAreBigEndian : frameOfBytes [1#8, 2#8, 3#8, 4#8, 5#8, 6#8, 7#8, 8#8] = some 0x0102030405060708#64 ∧
    [1#8, 2#8, 3#8, 4#8, 5#8, 6#8, 7#8].length ≠ 8 := by decide
theorem witness_AssembledCommands :
    assembleLine "HEATER_CHECK -0.5, off, ovv".toList = some [.heaterCheck 0xBF000000#32 false 2#2] ∧
    parseF32 "2".toList = some 0x40000000#32 ∧ parseInt16 "-32768".toList = some 0x8000#16 ∧
    parseInt16 "32768".toList = none ∧ signText true ++ decimalText [3, 2, 7, 6, 8] = "-32768".toList ∧
    parseF32 "raw(0xFF80000a)".toList = some 0xFF80000A#32 ∧ [15, 15, 8, 0, 0, 0, 0, (10 : Fin 16)].length = 8 := by
  decide +kernel
/-- R52: a line whose mnemonic and operands are plain text. -/
theorem witness_LineText : plainText "PID_ENABLE".toList ∧ (∀ a ∈ ["1".toList], plainText a) ∧
    lineText "PID_ENABLE".toList ["1".toList] = "PID_ENABLE 1".toList := by
  unfold plainText
  decide
theorem witness_StepRuns : cfgWf (waiting [legalDelivery]).cfg = true ∧
    decode 0x5000000301F4015F#64 = some (.arbiterStep true true 500#16 351#16) := by decide
theorem witness_IllegalCommand : cfgWf (waiting [illegalDelivery]).cfg = true ∧ decode 0x4000000600000000#64 = none ∧
    decode 0x4000000400000000#64 = some (.heaterCheck 0#32 false 2#2) := by decide
theorem witness_StepRefuses : cfgWf { Cfg.ex with holdMs := 0#32 } = false ∧ cfgWf latched.cfg = true ∧ latched.inbox = [] ∧
    (waiting [⟨[0x10#8], atTime 0⟩]).inbox = [⟨[0x10#8], atTime 0⟩] ∧ [0x10#8].length ≠ 8 := by decide
theorem witness_EveryFrame : cfgWf (waiting [illegalDelivery, legalDelivery]).cfg = true ∧ illegalDelivery.bytes.length = 8 ∧
    ∀ d ∈ (waiting [illegalDelivery, legalDelivery]).inbox, d.bytes.length = 8 := by decide
theorem witness_Inv (ds : List Delivery) : Inv (waiting ds) where
  configuration := show cfgWf Cfg.ex = true by decide
  accumulatorBounded := show f32Within 0#32 (f32Neg (imax Cfg.ex)) (imax Cfg.ex) = true by decide
  accumulatorNumber := show f32IsNaN 0#32 = false by decide
  lastOutputClamped := .inl rfl
  lastOutputNumber := show f32IsNaN 0#32 = false by decide
  probationSafe h := by cases h
  failuresBelow h := by cases h
  faultsBelow h := by cases h
  heldIsDebounced := rfl
  buttonState h := by cases h.2
  arbiterAgrees := ⟨fun _ => rfl, fun _ => rfl⟩
  setpointRange := show Cfg.ex.spMin.toInt ≤ (500#16).toInt ∧ (500#16).toInt ≤ Cfg.ex.spMax.toInt by decide
  lineReleased := rfl
theorem witness_StepKeeps : Inv (waiting [legalDelivery]) ∧
    (nextState (step (waiting [legalDelivery]))).map (·.arb.st) = some .sn :=
  ⟨witness_Inv _, by decide +kernel⟩
theorem witness_ResetMeets : cfgWf otherCfg = true := by decide
theorem witness_Along : cfgWf otherCfg = true ∧ (nextState (Host.Core.run core 2
    { State.resetWith otherCfg with inbox := [illegalDelivery, legalDelivery] })).map (·.outbox.length) = some 2 := by
  decide +kernel
theorem witness_ResetConsequences : cfgWf otherCfg = true ∧ (atTime 999).now.toNat < Cfg.ex.sampleTimeMs.toNat ∧
    (atTime 1999).now.toNat < Cfg.ex.readIntervalMs.toNat ∧ (atTime 0).btnPin = otherCfg.btnActiveLevel ∧
    otherCfg.debounceMs.toNat ≤ ((atTime 0).now - (atTime 0).now).toNat := by decide
/-- R63 (cited for the pidCompute statements): disabled, gated one millisecond early, and running on time. -/
theorem witness_PidCompute : (pidStart fun p => { p with en := false }).pid.en = false ∧ State.reset.pid.en = true ∧
    ((atTime 999).now - State.reset.pid.lt).toNat < State.reset.cfg.sampleTimeMs.toNat ∧
    State.reset.cfg.sampleTimeMs.toNat ≤ ((atTime 1000).now - State.reset.pid.lt).toNat := by decide
/-- R64 (a), (b), (d): a NaN process value, and a NaN PID.LPV. (c): pv = −∞ as in PID-15. Last, the second row of PID-7: u is NaN
and err is 10, so PID.I advances to −190. -/
theorem witness_PidNonFinite : cfgWf Cfg.ex = true ∧
    (pidTerms (Pid.reset Cfg.ex) 1000 0x7FC00000#32).err = .nan ∧ (pidTerms (Pid.reset Cfg.ex) 1000 0x7FC00000#32).u = .nan ∧
    (pidTerms (Pid.reset Cfg.ex) 1000 0xFF800000#32).u = .inf false ∧
    f32Gt (pidTerms (Pid.reset Cfg.ex) 1000 0xFF800000#32).err f32Zero = true ∧ f32IsNaN 0x7FC00000#32 = true ∧
    see (fun t => (t.pid.i, t.pid.lpv)) 0x2000000042200000#64 (atTime 2000)
      (pidStart fun p => { p with sp := 0x42480000#32, i := 0xC3480000#32, lpv := 0x7FC00000#32, lt := 1000#32 }) =
      some (0#64, 0xC33E0000#32, 0x42200000#32) := by
  decide +kernel
/-- The accumulator at its bound IMAX = 200.0. -/
theorem witness_PidBounded : f32Within 0x43480000#32 (f32Neg (imax Cfg.ex)) (imax Cfg.ex) = true := by decide +kernel
theorem witness_PidSampleTime :
    (nextState (exec (.pidCompute 0#32) { State.reset with env := atTime 1000 })).map (·.pid.lt) = some 1000#32 ∧
    (nextState (exec (.pidCompute 0#32) { State.reset with env := atTime 999 })).map (·.pid.lt) = some 0#32 := by decide +kernel
theorem witness_Rounding : f32Round true 3 2 = .fin true 2 ∧ f32Round false 1 2 = .fin false 0 ∧
    f32Datum 0x00000001#32 = .fin false 1 ∧ f32Round false ((2 ^ 25 - 1) * 2 ^ 252) 1 = .inf false := by decide +kernel
/-- R12: the value one unit below the overflow midpoint is finite, and no infinity of the other sign appears. -/
theorem witness_RoundingOverflow : (2 ^ 25 - 1) * 2 ^ 252 * 1 ≤ (2 ^ 25 - 1) * 2 ^ 252 ∧
    f32Bits (f32Round false ((2 ^ 25 - 1) * 2 ^ 252 - 1) 1) = 0x7F7FFFFF#32 := by decide +kernel
/-- R12: operands that meet the clauses: nonzero divisors, a finite value at the top of the range, a zero of each sign. -/
theorem witness_Operations : f32Datum 0x7F7FFFFF#32 = .fin false ((2 ^ 24 - 1) * 2 ^ 253) ∧ f32Datum 0xFF800000#32 ≠ .nan ∧
    f32Datum 0x7F800001#32 = .nan ∧ f32Datum 0x80000000#32 = .fin true 0 ∧
    f32Bits (f32Div (f32FromInt 1) (f32FromInt 3)) = 0x3EAAAAAB#32 ∧
    f32Bits (f32Sub (f32Datum 0x3F800000#32) (f32Datum 0x40400000#32)) = 0xC0000000#32 := by decide +kernel
theorem witness_Clamp : f32Le (.fin false 1) (.fin false 3) = true ∧ f32Ge (.fin false 1) (.fin false 1) = true ∧
    f32Gt (.fin false 4) (.fin false 3) = true ∧ f32Lt (.fin true 0) (.fin false 1) = true := by decide
theorem witness_DecodeFailure : (decodeLine Cfg.ex (atTime 0)).err ≠ .ok := by decide

/-- A line before a decode starts. -/
def lineOf (runs : List Run) : LineState := ⟨runs, [], []⟩

/-- The line after a handshake whose three waits pass, under EX. -/
def afterHandshake (runs : List Run) : LineState := (handshake Cfg.ex handshakeLevels (lineOf runs)).2

/-- The high time the next data bit is measured as, and the line after it, under EX. -/
def nextBit (l : LineState) : Option Nat × LineState :=
  waitWhile 10 true 100 (waitWhile 10 false 100 l).2

/-- The line after `k` data bits, under EX. -/
def bitsOn (l : LineState) : Nat → LineState
  | 0 => l
  | k + 1 => (nextBit (bitsOn l k)).2

/-- A line after its handshake that carries one data bit and then stays high too long. -/
def stuckHigh : LineState :=
  afterHandshake [⟨true, 30⟩, ⟨false, 80⟩, ⟨true, 80⟩, ⟨false, 50⟩, ⟨true, 27⟩, ⟨false, 50⟩, ⟨true, 500⟩]

/-- R55 step 2: with no peer the first wait times out; a response low of 90 µs is within the limit, and one of 120 µs is not. -/
theorem witness_HandshakeTimeout : (waitWhile 10 true 100 (lineOf [])).1 = none ∧
    (waitWhile 10 false 100 (waitWhile 10 true 100 (lineOf [⟨true, 30⟩, ⟨false, 120⟩])).2).1 = none ∧
    (waitWhile 10 false 100 (waitWhile 10 true 100 (lineOf [⟨true, 30⟩, ⟨false, 90⟩])).2).1 = some 90 ∧
    (decodeLine Cfg.ex (atTime 0)).err = .noResponse := by decide +kernel
/-- R55 step 3: after the handshake the first data low is stuck; and after one bit the next high is stuck. -/
theorem witness_DataTimeout : dataTimeout Cfg.ex (afterHandshake [⟨true, 30⟩, ⟨false, 80⟩, ⟨true, 80⟩, ⟨false, 500⟩]) ∧
    dataBit Cfg.ex stuckHigh 27 (bitsOn stuckHigh 1) ∧ dataTimeout Cfg.ex (bitsOn stuckHigh 1) := by
  unfold dataBit dataTimeout
  decide +kernel
/-- R55 step 3: the forty data bits of a nominal trace, each measured as 70 or 27 µs by its value. -/
theorem witness_FortyBits : ∀ k < 40, dataBit Cfg.ex (bitsOn (afterHandshake goodTrace) k)
    (if (0x028C015FEE#40).getLsbD (39 - k) then 70 else 27) (bitsOn (afterHandshake goodTrace) (k + 1)) := by
  unfold dataBit
  decide +kernel
/-- L1-8: 27 and 70 µs meet the margins with G = 10. -/
theorem witness_DecodeMargins : decodeMargins Cfg.ex (goodAt 0) := by
  unfold decodeMargins
  decide +kernel
theorem witness_Measurements : 27 - 10 ≤ 37 ∧ 37 ≤ 27 + 10 ∧ measured 10 27 99 = 37 := by decide
/-- R54: an infinite run, no run, a run measured at the limit and one measured over it. -/
theorem witness_Waits : (currentRun true [⟨true, 30⟩]).1 = none ∧ (currentRun false [⟨true, 30⟩]).1 = some 0 ∧
    (currentRun true [⟨true, 90⟩, ⟨false, 50⟩]).1 = some 90 ∧ measured 10 90 10 = 100 ∧
    100 < measured 10 91 10 := by decide
theorem witness_NominalTrace : nominalCfg Cfg.ex ∧ (goodAt 0).line = nomTrace 0x02#8 0x8C#8 0x01#8 0x5F#8 0xEE#8 ∧
    0xEE#8 = 0x02#8 + 0x8C#8 + 0x01#8 + 0x5F#8 ∧ 0xEF#8 ≠ 0x02#8 + 0x8C#8 + 0x01#8 + 0x5F#8 := by
  unfold nominalCfg
  decide
/-- SH-12 and SH-1: one millisecond before the gate, and at it; a good and a failed decode there. -/
theorem witness_SensorUpdate : ((atTime 1999).now - State.reset.sh.lrt).toNat < Cfg.ex.readIntervalMs.toNat ∧
    Cfg.ex.readIntervalMs.toNat ≤ ((atTime 2000).now - State.reset.sh.lrt).toNat ∧
    (decodeLine Cfg.ex (goodAt 2000)).err = .ok ∧ (decodeLine Cfg.ex (atTime 2000)).err ≠ .ok := by decide +kernel
theorem witness_NFailedReads : cfgWf State.reset.cfg = true ∧ State.reset.sh.safe = true ∧ State.reset.sh.prob = false ∧
    State.reset.sh.fails = 0#32 ∧
    (failedReads [atTime 2000, atTime 4000] State.reset).isSome = true ∧
    (failedReads [atTime 2000, atTime 4000, atTime 6000] State.reset).isSome = true := by decide +kernel
theorem witness_OneFailure : latched.sh.safe = false ∧ readFails (atTime 8000) latched = true ∧
    ((nextState (exec .sensorRecover latched)).map (readFails (atTime 8000))) = some true := by decide +kernel
/-- R21: each flag does move by its command. -/
theorem witness_Flags :
    (nextState (exec .sensorRecover latched)).map (fun t => (t.sh.safe, t.sh.prob)) = some (true, true) ∧
    (nextState (exec (.heaterCheck 0#32 true 0#2) { State.reset with hh := ⟨2#32, false⟩ })).map
      (fun t => (t.sh.safe, t.hh.failed)) = some (false, true) ∧
    (nextState (exec .heaterReset latched)).map (·.hh.failed) = some false ∧
    (nextState (exec (.pidEnable false) latched)).map (·.pid.en) = some false := by decide +kernel
/-- Reset with the sensor in probation. -/
def inProbation : State := shStart fun u => { u with prob := true }

/-- R21: the fall of SH.PROB by a success, a trip and a heater latch; ARB.SAFE, the button flags and EVT move. -/
theorem witness_FlagsMove :
    (nextState (exec .sensorUpdate { inProbation with env := goodAt 2000 })).map (fun t => (t.sh.safe, t.sh.prob)) = some (true, false) ∧
    (nextState (exec .sensorUpdate { inProbation with env := atTime 2000 })).map (fun t => (t.sh.safe, t.sh.prob)) = some (false, false) ∧
    (nextState (exec (.heaterCheck 0#32 true 0#2) { inProbation with hh := ⟨2#32, false⟩ })).map
      (fun t => (t.sh.safe, t.sh.prob)) = some (false, false) ∧
    (nextState (exec (.arbiterStep true true 0#16 0#16) latched)).map (·.arb.safe) = some true ∧
    (nextState (exec .buttonPoll { State.reset with env := { atTime 50 with btnPin := false } })).map
      (fun t => (t.btn.raw, t.btn.deb)) = some (true, false) ∧
    (nextState (exec .eventsRead latched)).map (fun t => (latched.evt.getLsbD 1, t.evt.getLsbD 1)) = some (true, false) := by
  decide +kernel
theorem witness_HeaterCheck : (2#2 : BitVec 2) ≠ 3#2 ∧ lowPower Cfg.ex 0x7FC00000#32 .ok = true := by decide
theorem witness_NLowChecks : State.reset.hh = ⟨0#32, false⟩ ∧
    (lowChecks [(0#32, .ok), (0x7FC00000#32, .overvoltage)] State.reset).isSome = true ∧
    (lowChecks [(0#32, .ok), (0x7FC00000#32, .overvoltage), (0x409FFFFF#32, .ok)] State.reset).isSome = true := by
  decide +kernel
/-- ARB-4, ARB-5: the margin is 550. ARB-9: both operands at their extremes. -/
theorem witness_Arbiter : (500#16).toInt + Cfg.ex.overshootMargin.toInt < (551#16).toInt ∧
    (550#16).toInt ≤ (500#16).toInt + Cfg.ex.overshootMargin.toInt ∧
    (0x8000#16).toInt + Cfg.ex.overshootMargin.toInt < (0x7FFF#16).toInt ∧ (true && false) = false := by decide
theorem witness_OnlyTheArbiter : (nextState (exec (.pidCompute 0#32) latched)).map (·.arb) = some latched.arb := by decide +kernel
/-- BTN-2 and BTN-2b: past CFG.SP_MAX, and up to it; and a poll that changes nothing. -/
theorem witness_Increment : Cfg.ex.spMax.toInt < (800#16).toInt + Cfg.ex.singleStep.toNat ∧
    (790#16).toInt + Cfg.ex.singleStep.toNat ≤ Cfg.ex.spMax.toInt ∧
    (pollButton Cfg.ex 0#32 true (Button.reset Cfg.ex)).changed = false := by decide +kernel
/-- R83 step 3a, BTN-1's press poll: from Idle the debounced press sets BTN.HELD and BTN.PST. -/
theorem test_buttonPoll_press : see (fun t => (t.btn.held, t.btn.pst, t.btn.deb)) 0x6000000000000000#64
    { atTime 1050 with btnPin := false } { State.reset with btn := ⟨true, false, 1000#32, 0#32, false, false, 0#32, 500#16⟩ } =
    some (0x00000000000001F4#64, true, 1050#32, true) := by decide +kernel

/-- The button unit just after a press edge at 1000. -/
def pressedButton : Button := ⟨true, true, 990#32, 1000#32, true, false, 0#32, 500#16⟩

/-- A configuration with short times, so that a press is a few polls: hold 30 ms, repeat 20 ms, no debounce. -/
def quickCfg : Cfg := { Cfg.ex with debounceMs := 0#32, holdMs := 30#32, repeatMs := 20#32 }

theorem witness_LongPress : cfgWf quickCfg = true ∧ pressedButton.held = true ∧ pressedButton.fast = false ∧
    pressedButton.deb = true ∧ 10 ∣ quickCfg.holdMs.toNat ∧ 10 ∣ quickCfg.repeatMs.toNat ∧
    quickCfg.holdMs.toNat ≤ [false, false, false, false, true].length * 10 ∧
    edgesOf quickCfg (periodicPolls pressedButton.pst 10 0 [false, false, false, false, true]) pressedButton =
      List.replicate 4 .none ++ [.release] := by decide +kernel
/-- H = HOLD: the release edge falls on the poll that reaches the threshold. -/
theorem witness_LongPressAtHold : quickCfg.holdMs.toNat ≤ [false, false, true].length * 10 ∧
    edgesOf quickCfg (periodicPolls pressedButton.pst 10 0 [false, false, true]) pressedButton =
      List.replicate 2 .none ++ [.release] := by decide +kernel
theorem witness_ShortPress : [false, true].length * 10 < quickCfg.holdMs.toNat ∧
    edgesOf quickCfg (periodicPolls pressedButton.pst 10 0 [false, true]) pressedButton =
      List.replicate 1 .none ++ [.release] := by decide +kernel
theorem witness_Events : (nextState (exec .sensorUpdate { State.reset with env := atTime 2000 })).map (·.evt) = some 1#4 ∧
    readFails (atTime 2000) State.reset = true := by decide +kernel
/-- BTN-1 at the release edge: a press of 200 ms. -/
def releasing : State :=
  { State.reset with env := atTime 1250, btn := ⟨false, true, 1200#32, 1050#32, true, false, 0#32, 500#16⟩ }

/-- R36, R83: a poll that changes the setpoint, and the same poll again. -/
theorem witness_RepeatedPoll :
    (nextState (exec .buttonPoll releasing)).map lastRsp = some 0x00000001000001FE#64 ∧
    ((nextState (exec .buttonPoll releasing)).bind fun t => nextState (exec .buttonPoll t)).map lastRsp =
      some 0x00000000000001FE#64 ∧ cfgWf releasing.cfg = true := by decide +kernel
theorem witness_Repeated : (∀ p o c, Instr.arbiterStep true true 500#16 351#16 ≠ .heaterCheck p o c) ∧
    (nextState (exec (.arbiterStep true true 500#16 351#16) { arbStart with env := atTime 1000 })).map (·.pid.lt) =
      some 1000#32 :=
  ⟨fun _ _ _ => (nomatch ·), by decide +kernel⟩
theorem witness_ControlCycle : cfgWf latched.cfg = true ∧ latched.hh.failed = true ∧ latched.sh.safe = false ∧
    (controlCycle ⟨0x41480000#32, .ok, true, 500#16, goodAt 8000, goodAt 8000, goodAt 8000, goodAt 8000, goodAt 8000⟩
      State.reset).map (fun r => (r.safe, r.events)) = some (true, 0#4) := by decide +kernel

end Sys2Proof.Tests
end

section
/-! Rounding (00_scope.md R12): the rounded magnitude against the grid of binary32 values, and where it overflows. -/

namespace Sys2Proof.Machine

/-- `y` is no nearer to `n` than `x`, and where it is another number as near, `x` was taken because its significand `m` is even. -/
def NearestOrEven (n x m y : Nat) : Prop :=
  ((n : Int) - x).natAbs ≤ ((n : Int) - y).natAbs ∧
    (((n : Int) - x).natAbs = ((n : Int) - y).natAbs → y ≠ x → m % 2 = 0)

/-- No multiple of `d` is nearer to `n` than the one `nearestEven` takes, and of two as near it takes the even one. -/
theorem nearestEven_nearest (n k : Nat) {d : Nat} (hd : 0 < d) :
    NearestOrEven n (nearestEven n d * d) (nearestEven n d) (k * d) := by
  have hn := Nat.div_add_mod' n d
  have hr := Nat.mod_lt n hd
  have hsucc (q : Nat) : (q + 1) * d = q * d + d := Nat.succ_mul q d
  have hbelow : k < n / d → k * d + d ≤ n / d * d := fun h => hsucc k ▸ Nat.mul_le_mul_right d h
  have habove : n / d < k → n / d * d + d ≤ k * d := fun h => hsucc (n / d) ▸ Nat.mul_le_mul_right d h
  have heq : k = n / d → k * d = n / d * d := fun h => by rw [h]
  unfold NearestOrEven nearestEven
  dsimp only
  split
  · omega
  · split
    · rw [hsucc]; omega
    · rcases Nat.mod_two_eq_zero_or_one (n / d) with h | h
      · rw [h, Nat.add_zero]; omega
      · rw [h, hsucc]; omega

/-- `nearestEven` reaches an even `k` from the midpoint below it on. -/
theorem le_nearestEven_iff_of_even {n d k : Nat} (hd : 0 < d) (hk : k % 2 = 0) :
    k ≤ nearestEven n d ↔ 2 * (k * d) ≤ 2 * n + d := by
  obtain ⟨hlow, hhigh⟩ := nearestEven_spec n hd
  have hdist : (2 * nearestEven n d + 1) * d = 2 * (nearestEven n d * d) + d := by ring
  constructor
  · intro h
    have := Nat.mul_le_mul_right d h
    omega
  · intro h
    by_contra hlt
    have hstep : nearestEven n d * d + d ≤ k * d := Nat.succ_mul _ d ▸ Nat.mul_le_mul_right d (Nat.lt_of_not_le hlt)
    have hodd : k = nearestEven n d + 1 := by
      by_contra hne
      have hfar : (nearestEven n d + 1 + 1) * d ≤ k * d := Nat.mul_le_mul_right d (by omega)
      rw [Nat.succ_mul, Nat.succ_mul] at hfar
      omega
    have := (nearestEven_nearest n k hd).2 (by omega) (by omega)
    omega

/-- Every finite binary32 magnitude is a multiple of 2^q, or lies below the normal magnitudes of exponent q. -/
theorem f32Datum_fin_grid {b : F32} {g : Bool} {m : Nat} (h : f32Datum b = .fin g m) (q : Nat) :
    2 ^ q ∣ m ∨ m < 2 ^ 23 * 2 ^ q := by
  obtain ⟨-, -, hf⟩ := f32_fields b
  rcases f32Datum_cases b with ⟨-, -, hd⟩ | ⟨-, -, hd⟩ | ⟨-, hd⟩ | ⟨-, -, hd⟩
  · simp [hd] at h
  · simp [hd] at h
  · obtain ⟨-, rfl⟩ := Datum.fin.inj (hd.symm.trans h)
    exact .inr (Nat.lt_of_lt_of_le hf (Nat.le_mul_of_pos_right _ (Nat.two_pow_pos q)))
  · obtain ⟨-, rfl⟩ := Datum.fin.inj (hd.symm.trans h)
    rcases Nat.lt_or_ge ((b.extractLsb' 23 8).toNat - 1) q with hq | hq
    · refine .inr ?_
      have hpow : 2 ^ ((b.extractLsb' 23 8).toNat - 1) * 2 ≤ 2 ^ q := by
        rw [← Nat.pow_succ]
        exact Nat.pow_le_pow_right (by omega) hq
      have hpos := Nat.two_pow_pos ((b.extractLsb' 23 8).toNat - 1)
      nlinarith
    · exact .inl (Dvd.dvd.mul_left (Nat.pow_dvd_pow 2 hq) _)

/-- The limit in units of the greatest exponent. -/
theorem f32Limit_eq : f32Limit = 2 ^ 24 * 2 ^ 253 := by
  rw [f32Limit, f32One, show 2 ^ 128 = 2 ^ 24 * 2 ^ 104 from rfl, Nat.mul_assoc, ← Nat.pow_add]

theorem f32Limit_pos : 0 < f32Limit := f32Limit_eq ▸ Nat.mul_pos (by decide) (Nat.two_pow_pos 253)

/-- A finite binary32 magnitude lies below the limit. -/
theorem f32Datum_fin_lt_limit {b : F32} {g : Bool} {m : Nat} (h : f32Datum b = .fin g m) : m < f32Limit := by
  obtain ⟨-, he, hf⟩ := f32_fields b
  rw [f32Limit_eq]
  rcases f32Datum_cases b with ⟨-, -, hd⟩ | ⟨-, -, hd⟩ | ⟨-, hd⟩ | ⟨-, h255, hd⟩
  · simp [hd] at h
  · simp [hd] at h
  · obtain ⟨-, rfl⟩ := Datum.fin.inj (hd.symm.trans h)
    exact Nat.lt_of_lt_of_le (by omega) (Nat.le_mul_of_pos_right _ (Nat.two_pow_pos 253))
  · obtain ⟨-, rfl⟩ := Datum.fin.inj (hd.symm.trans h)
    exact Nat.mul_lt_mul_of_lt_of_le (by omega) (Nat.pow_le_pow_right (by omega) (by omega)) (Nat.two_pow_pos _)

/-- The magnitude `f32Round` rounds n / d to, before it looks at the limit. -/
def roundedMag (n d : Nat) : Nat :=
  nearestEven n (d * 2 ^ f32Exponent (n / d)) * 2 ^ f32Exponent (n / d)

theorem f32Round_eq (neg : Bool) (n d : Nat) :
    f32Round neg n d = if roundedMag n d < f32Limit then .fin neg (roundedMag n d) else .inf neg := rfl

/-- A finite rounded value has the sign given and the rounded magnitude. -/
theorem f32Round_eq_fin {neg g : Bool} {n d mag : Nat} (h : f32Round neg n d = .fin g mag) :
    g = neg ∧ mag = roundedMag n d := by
  rw [f32Round_eq] at h
  split at h
  · obtain ⟨hg, hm⟩ := Datum.fin.inj h
    exact ⟨hg.symm, hm.symm⟩
  · cases h

theorem f32Round_eq_inf_iff (neg : Bool) (n d : Nat) : f32Round neg n d = .inf neg ↔ f32Limit ≤ roundedMag n d := by
  rw [f32Round_eq]
  split <;> simp <;> omega

/-- The exact value n / d in units of the exponent chosen for it: under 2^24, and at least 2^23 when the exponent is not 0. -/
theorem roundExponent_bounds (n : Nat) {d : Nat} (hd : 0 < d) :
    n < 2 ^ 24 * (d * 2 ^ f32Exponent (n / d)) ∧
      (f32Exponent (n / d) ≠ 0 → 2 ^ 23 * (d * 2 ^ f32Exponent (n / d)) ≤ n) := by
  obtain ⟨hhigh, hlow⟩ := f32Exponent_bounds (n / d)
  constructor
  · calc n < 2 ^ 24 * 2 ^ f32Exponent (n / d) * d := (Nat.div_lt_iff_lt_mul hd).1 hhigh
      _ = _ := by ring
  · intro hq
    calc _ = 2 ^ 23 * 2 ^ f32Exponent (n / d) * d := by ring
      _ ≤ n := (Nat.le_div_iff_mul_le hd).1 (hlow hq)

/-- The rounded significand: at most 2^24, and at least 2^23 when the exponent is not 0. -/
theorem roundSignificand_bounds (n : Nat) {d : Nat} (hd : 0 < d) :
    nearestEven n (d * 2 ^ f32Exponent (n / d)) ≤ 2 ^ 24 ∧
      (f32Exponent (n / d) ≠ 0 → 2 ^ 23 ≤ nearestEven n (d * 2 ^ f32Exponent (n / d))) := by
  obtain ⟨hhigh, hlow⟩ := roundExponent_bounds n hd
  have hpos : 0 < d * 2 ^ f32Exponent (n / d) := Nat.mul_pos hd (Nat.two_pow_pos _)
  exact ⟨nearestEven_le hpos hhigh.le, fun hq => le_nearestEven hpos (hlow hq)⟩

/-- No binary32 magnitude is nearer than the rounded one; where another is as near, the rounded significand is even. A magnitude
of a lower exponent lies below 2^23 units of this one's, which is nearer. -/
theorem roundedMag_nearest (n : Nat) {d m : Nat} (hd : 0 < d) {b : F32} {h : Bool} (hb : f32Datum b = .fin h m) :
    NearestOrEven n (roundedMag n d * d) (nearestEven n (d * 2 ^ f32Exponent (n / d))) (m * d) := by
  obtain ⟨-, hlow⟩ := roundExponent_bounds n hd
  have hgrid := f32Datum_fin_grid hb (f32Exponent (n / d))
  unfold roundedMag
  generalize f32Exponent (n / d) = q at *
  have hunit (k : Nat) : k * 2 ^ q * d = k * (d * 2 ^ q) := by ring
  have hnear := fun k => nearestEven_nearest n k (Nat.mul_pos hd (Nat.two_pow_pos q))
  rw [hunit]
  have hmul : 2 ^ q ∣ m →
      NearestOrEven n (nearestEven n (d * 2 ^ q) * (d * 2 ^ q)) (nearestEven n (d * 2 ^ q)) (m * d) := by
    rintro ⟨k, rfl⟩
    rw [Nat.mul_comm (2 ^ q) k, hunit]
    exact hnear k
  by_cases hq : q = 0
  · exact hmul (by simp [hq])
  · rcases hgrid with hdvd | hlt
    · exact hmul hdvd
    · have hbelow : m * d < 2 ^ 23 * (d * 2 ^ q) := by
        rw [← hunit]
        exact Nat.mul_lt_mul_of_pos_right hlt hd
      have hbinade := hlow hq
      obtain ⟨hle, -⟩ := hnear (2 ^ 23)
      constructor <;> omega

/-- Bit 0 of a pattern is bit 0 of what stands below the sign. -/
theorem f32Pattern_getLsbD_zero (neg : Bool) (low : Nat) : (f32Pattern neg low).getLsbD 0 = decide (low % 2 = 1) := by
  rw [f32Pattern, BitVec.getLsbD_append, if_pos (by decide), BitVec.getLsbD_ofNat, Nat.testBit_zero]
  rfl

/-- An even significand, of a normal or of a subnormal value or just past the greatest, gives an even pattern. -/
theorem f32Bits_even (neg : Bool) {m q : Nat} (heven : m % 2 = 0) (hle : m ≤ 2 ^ 24) (hge : q ≠ 0 → 2 ^ 23 ≤ m) :
    (f32Bits (.fin neg (m * 2 ^ q))).getLsbD 0 = false := by
  have hsig : m * 2 ^ q / 2 ^ f32Exponent (m * 2 ^ q) % 2 = 0 := by
    rcases Nat.lt_or_ge m (2 ^ 23) with hsmall | hnormal
    · obtain rfl : q = 0 := by omega
      simpa [f32Exponent_small (show m < 2 ^ 24 by omega)] using heven
    · rcases Nat.lt_or_eq_of_le hle with hlt | rfl
      · rwa [f32Exponent_normal hnormal hlt, Nat.mul_div_cancel _ (Nat.two_pow_pos q)]
      · have hcarry : 2 ^ 24 * 2 ^ q = 2 ^ 23 * 2 ^ (q + 1) := by ring
        rw [hcarry, f32Exponent_normal (by omega) (by omega), Nat.mul_div_cancel _ (Nat.two_pow_pos _)]
        decide
  rw [f32Bits, f32Pattern_getLsbD_zero, decide_eq_false]
  omega

/-- The rounded magnitude reaches the limit exactly from the midpoint between the greatest finite value and 2^128 on: exponent 253
is the greatest value's, below it nothing rounds that high, and above it everything does. -/
theorem f32Limit_le_roundedMag_iff (n : Nat) {d : Nat} (hd : 0 < d) :
    f32Limit ≤ roundedMag n d ↔ (2 ^ 25 - 1) * 2 ^ 252 * d ≤ n := by
  obtain ⟨hhigh, hlow⟩ := roundExponent_bounds n hd
  obtain ⟨hmhigh, hmlow⟩ := roundSignificand_bounds n hd
  rw [f32Limit_eq]
  unfold roundedMag
  generalize f32Exponent (n / d) = q at *
  rcases Nat.lt_trichotomy q 253 with hq | rfl | hq
  · have hpow : 2 ^ q ≤ 2 ^ 252 := Nat.pow_le_pow_right (by omega) (by omega)
    have hmag := Nat.mul_le_mul hmhigh hpow
    have hval := Nat.mul_le_mul_left d hpow
    have hunit : 0 < d * 2 ^ 252 := Nat.mul_pos hd (Nat.two_pow_pos 252)
    refine iff_of_false ?_ ?_
    · exact Nat.not_le_of_lt (Nat.lt_of_le_of_lt hmag (by decide))
    · rw [Nat.mul_assoc, Nat.mul_comm (2 ^ 252)]; omega
  · rw [Nat.mul_le_mul_right_iff (Nat.two_pow_pos 253),
      le_nearestEven_iff_of_even (Nat.mul_pos hd (Nat.two_pow_pos 253)) (by decide), Nat.pow_succ 2 252, Nat.mul_assoc _ _ d,
      Nat.mul_comm (2 ^ 252) d, ← Nat.mul_assoc d]
    omega
  · have hpow : 2 ^ 254 ≤ 2 ^ q := Nat.pow_le_pow_right (by omega) hq
    have hmag := Nat.mul_le_mul (hmlow (by omega)) hpow
    have hval := Nat.mul_le_mul_left d hpow
    refine iff_of_true ?_ ?_
    · exact Nat.le_trans (by decide) hmag
    · have := hlow (by omega)
      rw [Nat.pow_succ 2 253, Nat.pow_succ 2 252, ← Nat.mul_assoc, ← Nat.mul_assoc] at hval
      rw [Nat.mul_assoc, Nat.mul_comm (2 ^ 252)]
      omega

/-- Settles O20: the rounded significand is the nearest multiple of the exponent's unit, and the grid of binary32 values leaves no
nearer value of another exponent. -/
theorem roundingIsToNearestEven : Obligations.RoundingIsToNearestEven := by
  intro neg n d hd
  refine ⟨?_, ?_, ?_, ?_⟩
  · intro g mag hr
    obtain ⟨hg, hmag⟩ := f32Round_eq_fin hr
    refine ⟨hg, f32Round_representable hd hr, fun b h m hb => ?_⟩
    obtain ⟨hnear, htie⟩ := roundedMag_nearest n hd hb
    rw [hmag]
    push_cast at hnear htie
    refine ⟨hnear, fun heq hne => ?_⟩
    obtain ⟨hle, hge⟩ := roundSignificand_bounds n hd
    exact f32Bits_even g (htie heq fun h => hne (Nat.eq_of_mul_eq_mul_right hd (by exact_mod_cast h))) hle hge
  · rw [f32Round_eq_inf_iff, f32Limit_le_roundedMag_iff n hd]
  · exact (representable_round neg n hd).1
  · rcases f32Round_cases neg n d with ⟨mag, h, -⟩ | h <;> rw [h] <;> simp

end Sys2Proof.Machine
end

section
/-! The operations on binary32 data (00_scope.md R12): reading a pattern, the sign flip, the special cases and the order. -/

namespace Sys2Proof.Machine

/-- The fields of a pattern written as sign, exponent field and fraction: the number it is has one such split only. -/
theorem f32_fields_append (neg : Bool) (e : BitVec 8) (f : BitVec 23) :
    let b : F32 := bit neg ++ e ++ f
    b.msb = neg ∧ (b.extractLsb' 23 8).toNat = e.toNat ∧ (b.extractLsb' 0 23).toNat = f.toNat := by
  intro b
  have hb : b.toNat = (neg.toNat * 2 ^ 8 + e.toNat) * 2 ^ 23 + f.toNat := by
    show (bit neg ++ e ++ f).toNat = _
    rw [BitVec.toNat_append, BitVec.toNat_append, bit, BitVec.toNat_ofBool, ← Nat.shiftLeft_add_eq_or_of_lt e.isLt,
      ← Nat.shiftLeft_add_eq_or_of_lt f.isLt, Nat.shiftLeft_eq, Nat.shiftLeft_eq]
  obtain ⟨hfields, hexp, hfrac⟩ := f32_fields b
  have he := e.isLt
  have hf := f.isLt
  have hneg := Bool.toNat_le neg
  have hmsb := Bool.toNat_le b.msb
  exact ⟨Function.LeftInverse.injective Bool.ofNat_toNat (by omega), by omega, by omega⟩

/-- A pattern is read by the IEEE layout (R33). -/
theorem f32Datum_append (neg : Bool) (e : BitVec 8) (f : BitVec 23) :
    f32Datum (bit neg ++ e ++ f) =
      if e = 255#8 then (if f = 0#23 then .inf neg else .nan)
      else if e = 0#8 then .fin neg f.toNat else .fin neg ((2 ^ 23 + f.toNat) * 2 ^ (e.toNat - 1)) := by
  obtain ⟨hsign, hexp, hfrac⟩ := f32_fields_append neg e f
  unfold f32Datum
  dsimp only
  rw [hsign, hexp, hfrac]
  simp only [← BitVec.toNat_inj, BitVec.toNat_ofNat, Nat.reducePow, Nat.reduceMod]

/-- Flipping the sign of a pattern is flipping its top bit. -/
theorem f32Pattern_not (neg : Bool) (low : Nat) : f32Pattern (!neg) low = f32Pattern neg low ^^^ 0x80000000#32 :=
  calc bit (!neg) ++ BitVec.ofNat 31 low
    _ = (bit neg ^^^ bit true) ++ (BitVec.ofNat 31 low ^^^ 0#31) := by rw [BitVec.xor_zero]; cases neg <;> rfl
    _ = (bit neg ++ BitVec.ofNat 31 low) ^^^ (bit true ++ 0#31) := BitVec.xor_append.symm

/-- Negating a number flips the sign bit of its pattern only. -/
theorem f32Bits_neg {x : Datum} (h : x ≠ .nan) : f32Bits (f32Neg x) = f32Bits x ^^^ 0x80000000#32 := by
  cases x with
  | nan => exact absurd rfl h
  | inf neg => exact f32Pattern_not neg _
  | fin neg mag => exact f32Pattern_not neg _

section Order

variable (g h : Bool) (m k : Nat)

theorem f32Lt_fin_fin : f32Lt (.fin g m) (.fin h k) = true ↔ signedMag g m < signedMag h k := decide_eq_true_iff

theorem f32Le_fin_fin : f32Le (.fin g m) (.fin h k) = true ↔ signedMag g m ≤ signedMag h k := decide_eq_true_iff

/-- The order of the infinities among themselves. -/
theorem f32Order_inf_inf : f32Le (.inf g) (.inf h) = (g || !h) ∧ f32Lt (.inf g) (.inf h) = (g && !h) := by
  have := f32Limit_pos
  cases g <;> cases h <;> simp [f32Le, f32Lt, f32Key, signedMag] <;> omega

/-- The zeros of either sign compare equal. -/
theorem f32Order_zero_zero : f32Le (.fin g 0) (.fin h 0) = true ∧ f32Lt (.fin g 0) (.fin h 0) = false := by
  cases g <;> cases h <;> decide

/-- Every finite value lies strictly between the infinities. -/
theorem f32Order_fin_inf {b : F32} {g : Bool} {m : Nat} (h : f32Datum b = .fin g m) :
    f32Lt (.fin g m) (.inf false) = true ∧ f32Lt (.inf true) (.fin g m) = true ∧
      f32Le (.inf false) (.fin g m) = false ∧ f32Le (.fin g m) (.inf true) = false := by
  have := f32Datum_fin_lt_limit h
  simp only [f32Le, f32Lt, f32Key, signedMag]
  cases g <;> simp <;> omega

end Order

/-- Nothing is less than a NaN (R12). -/
@[simp] theorem f32Lt_nan (x : Datum) : f32Lt x .nan = false := by cases x <;> rfl

/-- Nothing is at most a NaN (R12). -/
@[simp] theorem f32Le_nan (x : Datum) : f32Le x .nan = false := by cases x <;> rfl

/-- An operation with a NaN for its second operand gives a NaN (R12). -/
theorem f32_ops_nan (x : Datum) : f32Add x .nan = .nan ∧ f32Mul x .nan = .nan ∧ f32Div x .nan = .nan := by
  cases x <;> exact ⟨rfl, rfl, rfl⟩

section ZerosAndInfinities

variable (na nb : Bool) {a b : Nat}

theorem f32Div_fin_fin (hb : b ≠ 0) : f32Div (.fin na a) (.fin nb b) = f32Round (na ^^ nb) (a * f32One) b := if_neg hb

theorem f32Div_fin_zero (ha : a ≠ 0) : f32Div (.fin na a) (.fin nb 0) = .inf (na ^^ nb) := by
  rw [f32Div, if_pos rfl, if_neg ha]

theorem f32Mul_fin_inf (ha : a ≠ 0) : f32Mul (.fin na a) (.inf nb) = .inf (na ^^ nb) := if_neg ha

theorem f32Mul_inf_fin (ha : a ≠ 0) : f32Mul (.inf nb) (.fin na a) = .inf (na ^^ nb) := by
  rw [Bool.xor_comm]
  exact if_neg ha

end ZerosAndInfinities

/-- Settles O21: the layout, the signs, the order and the NaN clauses are the lemmas above; each other clause is the arm of the
operation for its operands. -/
theorem operationsRoundTheExactResultOnce : Obligations.OperationsRoundTheExactResultOnce := by
  refine ⟨f32Datum_append, ?operations, fun _ _ => ⟨rfl, rfl, rfl⟩, ?nan, fun _ => rfl, ?negation, rfl,
    fun b g m => f32Order_fin_inf, f32Order_inf_inf, f32Order_zero_zero, ?literals⟩
  case operations =>
    intro na nb a b
    exact ⟨rfl, rfl, f32Div_fin_fin na nb,
      fun ha => ⟨f32Div_fin_zero na nb ha, f32Mul_fin_inf na nb ha, f32Mul_inf_fin na nb ha⟩,
      rfl, rfl, rfl, rfl, rfl, rfl, rfl, rfl, rfl, rfl, f32Lt_fin_fin na nb a b, f32Le_fin_fin na nb a b⟩
  case nan =>
    intro x
    obtain ⟨hadd, hmul, hdiv⟩ := f32_ops_nan x
    exact ⟨rfl, hadd, rfl, hmul, rfl, hdiv, rfl, f32Lt_nan x, rfl, f32Le_nan x⟩
  case negation =>
    intro b hb
    rw [f32Bits_neg hb, f32Bits_f32Datum hb]
  case literals => decide

end Sys2Proof.Machine
end

section
/-! Clamp (00_scope.md R13): the case each comparison selects. -/

namespace Sys2Proof.Machine

/-- `f32_lt` excludes `f32_le` the other way round. -/
theorem f32Le_eq_false_of_f32Lt {a b : Datum} (h : f32Lt a b = true) : f32Le b a = false := by
  unfold f32Lt at h
  unfold f32Le
  generalize f32Key a = x at h ⊢
  generalize f32Key b = y at h ⊢
  cases x <;> cases y <;> simp_all

theorem f32Clamp_of_within {x lo hi : Datum} (hlo : f32Ge x lo = true) (hhi : f32Le x hi = true) : f32Clamp x lo hi = x := by
  simp [f32Clamp, hlo, hhi]

theorem f32Clamp_of_gt {x lo hi : Datum} (h : f32Gt x hi = true) : f32Clamp x lo hi = hi := by
  have hle : f32Le x hi = false := f32Le_eq_false_of_f32Lt h
  simp [f32Clamp, hle, h]

theorem f32Clamp_of_not_ge {x lo hi : Datum} (hlo : f32Ge x lo = false) (hhi : f32Gt x hi = false) : f32Clamp x lo hi = lo := by
  simp [f32Clamp, hlo, hhi]

/-- Below `lo` the argument is not above `hi` either. -/
theorem f32Clamp_of_lt {x lo hi : Datum} (hb : f32Le lo hi = true) (h : f32Lt x lo = true) : f32Clamp x lo hi = lo := by
  have hle : f32Le x hi = true := f32Le_trans (f32Le_of_f32Lt h) hb
  have hgt : f32Gt x hi = false := Bool.eq_false_iff.2 fun hgt =>
    Bool.false_ne_true ((f32Le_eq_false_of_f32Lt hgt).symm.trans hle)
  exact f32Clamp_of_not_ge (f32Le_eq_false_of_f32Lt h) hgt

/-- Whatever the argument, the result is a number within the bounds. -/
theorem f32Clamp_between (x : Datum) {lo hi : Datum} (hb : f32Le lo hi = true) :
    f32Ge (f32Clamp x lo hi) lo = true ∧ f32Le (f32Clamp x lo hi) hi = true := by
  obtain ⟨hlo, hhi⟩ := not_nan_of_f32Le hb
  rcases f32Clamp_cases x lo hi with ⟨hc, hge, hle⟩ | hc | hc <;> rw [hc]
  · exact ⟨hge, hle⟩
  · exact ⟨hb, f32Le_refl hhi⟩
  · exact ⟨f32Le_refl hlo, hb⟩

/-- Settles O22: no comparison with a NaN holds, so a NaN falls to `lo`; -0.0 is within [+0.0, 1.0] as it compares equal to +0.0. -/
theorem clampReturnsArgumentOrBound : Obligations.ClampReturnsArgumentOrBound := by
  intro x lo hi hb
  refine ⟨f32Clamp_of_within, f32Clamp_of_gt, f32Clamp_of_lt hb, ?_, f32Clamp_between x hb, ?_⟩
  · rintro rfl
    exact f32Clamp_of_not_ge (f32Le_nan lo) (f32Lt_nan hi)
  · exact f32Clamp_of_within (by decide) (by decide)

end Sys2Proof.Machine
end

section
/-! What a step refuses (00_scope.md R8, 20_memory.md R34), the saturating increment and the elapsed time (R14, R15). -/

namespace Sys2Proof.Machine

theorem step_of_illFormed {s : State} (h : cfgWf s.cfg = false) : step s = .refused .illFormedConfiguration := by
  simp [step, h]

theorem step_of_idle {s : State} (hc : cfgWf s.cfg = true) (hi : s.inbox = []) : step s = .next s := by
  simp [step, hc, hi]

theorem step_of_delivery {s : State} {d : Delivery} {rest : List Delivery} (hc : cfgWf s.cfg = true)
    (hi : s.inbox = d :: rest) : step s = runDelivery d rest s := by
  simp [step, hc, hi]

/-- Only eight bytes make a frame. -/
theorem frameOfBytes_of_length_ne {bs : List Byte} (h : bs.length ≠ 8) : frameOfBytes bs = none := by
  unfold frameOfBytes
  split
  · exact absurd rfl h
  · rfl

theorem runDelivery_of_partial {d : Delivery} (rest : List Delivery) (s : State) (h : d.bytes.length ≠ 8) :
    runDelivery d rest s = .refused .partialFrame := by
  simp [runDelivery, frameOfBytes_of_length_ne h]

/-- Settles O11: the configuration is looked at first, then the inbox, then the length of the delivery. -/
theorem stepRefusesOrIdles : Obligations.StepRefusesOrIdles := by
  refine ⟨fun _ => step_of_illFormed, fun _ => step_of_idle, fun s d rest hc hi hlen => ?_⟩
  rw [step_of_delivery hc hi, runDelivery_of_partial rest s hlen]

/-- The elapsed time is the difference of the two times modulo 2^32, whichever is greater (R15). -/
theorem elapsed_eq_emod (now t : U32) : (elapsed now t : Int) = ((now.toNat : Int) - t.toNat) % 2 ^ 32 := by
  have hnow := now.isLt
  have ht := t.isLt
  rw [elapsed, BitVec.toNat_sub]
  omega

/-- Settles O23. -/
theorem countersSaturateAndClockWraps : Obligations.CountersSaturateAndClockWraps :=
  ⟨satInc32_toNat, elapsed_eq_emod⟩

end Sys2Proof.Machine
end

section
/-! What a command writes beside its response, said once, and from it what a command leaves in each unit's registers (10_state.md
R21 to R28): the registers as they were, or the value one of the commands that write the unit gives them. -/

namespace Sys2Proof.Machine

@[simp] theorem sensorRead_pid (s : State) : (sensorRead s).pid = s.pid := by obtain ⟨u, v, h⟩ := sensorRead_frame s; rw [h]
@[simp] theorem sensorRead_dqOe (s : State) : (sensorRead s).dqOe = false := by obtain ⟨u, v, h⟩ := sensorRead_frame s; rw [h]
@[simp] theorem sensorRead_hh (s : State) : (sensorRead s).hh = s.hh := by obtain ⟨u, v, h⟩ := sensorRead_frame s; rw [h]
@[simp] theorem sensorRead_arb (s : State) : (sensorRead s).arb = s.arb := by obtain ⟨u, v, h⟩ := sensorRead_frame s; rw [h]
@[simp] theorem sensorRead_btn (s : State) : (sensorRead s).btn = s.btn := by obtain ⟨u, v, h⟩ := sensorRead_frame s; rw [h]

section
variable (on low : Bool) (s : State)

@[simp] theorem heaterCheckState_pid : (heaterCheckState on low s).pid = s.pid := by rw [heaterCheckState_spec]
@[simp] theorem heaterCheckState_dqOe : (heaterCheckState on low s).dqOe = s.dqOe := by rw [heaterCheckState_spec]
@[simp] theorem heaterCheckState_arb : (heaterCheckState on low s).arb = s.arb := by rw [heaterCheckState_spec]
@[simp] theorem heaterCheckState_btn : (heaterCheckState on low s).btn = s.btn := by rw [heaterCheckState_spec]

end

section
variable (s : State)

@[simp] theorem recoverSensorSafe_pid : (recoverSensorSafe s).pid = s.pid := by rw [recoverSensorSafe_spec]; split <;> rfl
@[simp] theorem recoverSensorSafe_dqOe : (recoverSensorSafe s).dqOe = s.dqOe := by rw [recoverSensorSafe_spec]; split <;> rfl
@[simp] theorem recoverSensorSafe_hh : (recoverSensorSafe s).hh = s.hh := by rw [recoverSensorSafe_spec]; split <;> rfl
@[simp] theorem recoverSensorSafe_arb : (recoverSensorSafe s).arb = s.arb := by rw [recoverSensorSafe_spec]; split <;> rfl
@[simp] theorem recoverSensorSafe_btn : (recoverSensorSafe s).btn = s.btn := by rw [recoverSensorSafe_spec]; split <;> rfl
@[simp] theorem recoverSensorSafe_evt : (recoverSensorSafe s).evt = s.evt := by rw [recoverSensorSafe_spec]; split <;> rfl

end

/-- What can happen to PID.I, PID.LPV, PID.LOUT and PID.LT, from the registers `r` to the registers `q`. -/
inductive PidMoves (c : Cfg) (now : U32) (r q : Pid) : Prop
  /-- All four stay. -/
  | kept (hi : q.i = r.i) (hlpv : q.lpv = r.lpv) (hlout : q.lout = r.lout) (hlt : q.lt = r.lt)
  /-- `PidReset()` (R67): PID.LT stays. -/
  | cleared (hi : q.i = 0#32) (hlpv : q.lpv = 0#32) (hlout : q.lout = 0#32) (hlt : q.lt = r.lt)
  /-- A full computation (R63). -/
  | computed (pv : F32) (hruns : pidRuns c now r = true) (hq : q = pidFull c now pv r)

theorem pidMoves_of_eq {c : Cfg} {now : U32} {r q : Pid} (h : q = r) : PidMoves c now r q := by
  subst h
  exact .kept rfl rfl rfl rfl

theorem pidMoves_core (c : Cfg) (now : U32) (pv : F32) (r : Pid) : PidMoves c now r (pidCore c now pv r).1 := by
  rcases pidCore_cases c now pv r with ⟨-, hc⟩ | ⟨-, -, hc⟩ | ⟨hen, hle, hc⟩ <;> rw [hc]
  · exact pidMoves_of_eq rfl
  · exact pidMoves_of_eq rfl
  · exact .computed pv (by simp [pidRuns, hen, hle]) rfl

theorem pidMoves_arbDuty (c : Cfg) (now : U32) (st : ArbState) (tt : Tenths) (r : Pid) :
    PidMoves c now r (arbDuty c now st tt r).1 := by
  rcases arbDuty_cases c now st tt r with ⟨-, h⟩ | ⟨-, h⟩ <;> rw [h]
  · exact pidMoves_core c now _ r
  · exact .cleared rfl rfl rfl rfl

theorem arbDuty_en (c : Cfg) (now : U32) (st : ArbState) (tt : Tenths) (r : Pid) : (arbDuty c now st tt r).1.en = r.en := by
  rcases arbDuty_cases c now st tt r with ⟨-, h⟩ | ⟨-, h⟩ <;> rw [h]
  · obtain ⟨-, -, -, -, hen⟩ := pidCore_keeps c now (celsius tt) r
    exact hen
  · rfl

/-- A read only adds events (R71). -/
theorem sensorRead_evt (s : State) : ∃ v, (sensorRead s).evt = s.evt ||| v := by
  by_cases h : (decodeLine s.cfg s.env).err = .ok
  · exact ⟨0#4, by simp [sensorRead_success h]⟩
  · rw [sensorRead_failure h, recordFailure_spec]
    dsimp only
    split
    · exact ⟨_, BitVec.or_assoc _ _ _⟩
    · exact ⟨_, rfl⟩

/-- A heater check only adds events (R76). -/
theorem heaterCheckState_evt (on low : Bool) (s : State) : ∃ v, (heaterCheckState on low s).evt = s.evt ||| v := by
  rw [heaterCheckState_spec]
  exact ⟨_, BitVec.or_assoc _ _ _⟩

/-- What a command can at most write before it responds: the state it leaves, from the state `s`. `exec_writes` ties it to
`exec`. -/
inductive Writes (s : State) : Instr → State → Prop
  /-- A query, a gated read, a gated computation, an illegal command. -/
  | nothing (i : Instr) : Writes s i s
  | line : Writes s .decodeSample (s.withDqOe false)
  /-- A PID command: the history moves, and only PID_ENABLE writes PID.EN. -/
  | pid (i : Instr) (r : Pid) (hmoves : PidMoves s.cfg s.env.now s.pid r) (hen : r.en = s.pid.en ∨ i = .pidEnable r.en) :
    Writes s i (s.withPid r)
  | arbiter (ss hs : Bool) (spt tt : Tenths) :
    Writes s (.arbiterStep ss hs spt tt)
      ((s.withPid (arbDuty s.cfg s.env.now (arbNext s.cfg ss hs spt tt) tt s.pid).1).withArb
        ⟨arbNext s.cfg ss hs spt tt, (arbDuty s.cfg s.env.now (arbNext s.cfg ss hs spt tt) tt s.pid).2, ss && hs⟩)
  | sensorRead : Writes s .sensorUpdate (sensorRead s)
  | sensorRecover : Writes s .sensorRecover (recoverSensorSafe s)
  | heaterCheck (pwr : F32) (on : Bool) (cst : BitVec 2) (low : Bool) :
    Writes s (.heaterCheck pwr on cst) (heaterCheckState on low s)
  | heaterReset : Writes s .heaterReset (s.withHh ⟨0#32, false⟩)
  /-- A poll, with the event of an increment or none. -/
  | button (v : BitVec 4) :
    Writes s .buttonPoll ((s.withBtn (pollButton s.cfg s.env.now s.env.btnPin s.btn).b).withEvt (s.evt ||| v))
  | events : Writes s .eventsRead (s.withEvt 0#4)

section
variable {i : Instr} {s t : State}

/-- Every command writes as `Writes` says, and responds. -/
theorem exec_writes (h : exec i s = .next t) : ∃ u rsp dq, Writes s i u ∧ t = respondWith rsp dq u := by
  cases i with
  | decodeSample => cases Host.Outcome.next.inj h; exact ⟨_, _, _, .line, rfl⟩
  | pidCompute pv =>
    cases Host.Outcome.next.inj h
    obtain ⟨-, -, -, -, hen⟩ := pidCore_keeps s.cfg s.env.now pv s.pid
    exact ⟨_, _, _, .pid _ _ (pidMoves_core s.cfg s.env.now pv s.pid) (.inl hen), rfl⟩
  | pidReset =>
    cases Host.Outcome.next.inj h
    exact ⟨_, _, _, .pid _ (pidClear s.pid) (.cleared rfl rfl rfl rfl) (.inl rfl), rfl⟩
  | pidEnable en =>
    cases Host.Outcome.next.inj h
    cases en
    · exact ⟨_, _, _, .pid _ (setPidEnable false s.pid) (.kept rfl rfl rfl rfl) (.inr rfl), rfl⟩
    · exact ⟨_, _, _, .pid _ (pidClear (setPidEnable true s.pid)) (.cleared rfl rfl rfl rfl) (.inr rfl), rfl⟩
  | pidSetSetpoint | pidSetKp | pidSetKi | pidSetKd =>
    cases Host.Outcome.next.inj h
    refine ⟨_, _, _, .pid _ _ ?moves (.inl ?en), rfl⟩
    case moves => exact .kept rfl rfl rfl rfl
    case en => rfl
  | sensorUpdate =>
    cases Host.Outcome.next.inj h
    split
    · exact ⟨_, _, _, .sensorRead, rfl⟩
    · exact ⟨_, _, _, .nothing _, rfl⟩
  | sensorIsSafe => cases Host.Outcome.next.inj h; exact ⟨_, _, _, .nothing _, rfl⟩
  | sensorRecover => cases Host.Outcome.next.inj h; exact ⟨_, _, _, .sensorRecover, rfl⟩
  | heaterCheck pwr on cst =>
    rw [exec, execHeaterCheck] at h
    split at h
    · exact ⟨_, _, _, .nothing _, (Host.Outcome.next.inj h).symm⟩
    · exact ⟨_, _, _, .heaterCheck pwr on cst _, (Host.Outcome.next.inj h).symm⟩
  | heaterReset => cases Host.Outcome.next.inj h; exact ⟨_, _, _, .heaterReset, rfl⟩
  | arbiterStep ss hs spt tt => cases Host.Outcome.next.inj h; exact ⟨_, _, _, .arbiter ss hs spt tt, rfl⟩
  | buttonPoll =>
    cases Host.Outcome.next.inj ((execButtonPoll_spec s).symm.trans h)
    split
    · exact ⟨_, _, _, .button 0b1000#4, rfl⟩
    · exact ⟨_, _, _, .button 0#4, by rw [BitVec.or_zero]; rfl⟩
  | eventsRead => cases Host.Outcome.next.inj h; exact ⟨_, _, _, .events, rfl⟩

/-- No command writes CFG (R29). -/
theorem exec_cfg (h : exec i s = .next t) : t.cfg = s.cfg := by
  obtain ⟨t', -, h', hcfg, -⟩ := exec_next i s
  cases Host.Outcome.next.inj (h.symm.trans h')
  exact hcfg

/-- Every command moves the PID unit's history, if at all, as `PidMoves` says. -/
theorem exec_pid_moves (h : exec i s = .next t) : PidMoves s.cfg s.env.now s.pid t.pid := by
  obtain ⟨u, -, -, hw, rfl⟩ := exec_writes h
  cases hw with
  | pid _ r hmoves _ => exact hmoves
  | arbiter ss hs spt tt => exact pidMoves_arbDuty _ _ (arbNext s.cfg ss hs spt tt) tt _
  | _ => exact pidMoves_of_eq (by simp)

/-- PID.EN is written by PID_ENABLE (R68). -/
theorem exec_pid_en_cases (h : exec i s = .next t) : t.pid.en = s.pid.en ∨ i = .pidEnable t.pid.en := by
  obtain ⟨u, -, -, hw, rfl⟩ := exec_writes h
  cases hw with
  | pid _ r _ hen => exact hen
  | arbiter ss hs spt tt => exact .inl (arbDuty_en s.cfg s.env.now (arbNext s.cfg ss hs spt tt) tt s.pid)
  | _ => exact .inl (by simp)

/-- The SH registers are written by SENSOR_UPDATE, SENSOR_RECOVER and HEATER_CHECK (R71, R73, R76). -/
theorem exec_sh_cases (h : exec i s = .next t) : t.sh = s.sh ∨
    (i = .sensorUpdate ∧ t.sh = (sensorRead s).sh) ∨
    (i = .sensorRecover ∧ t.sh = (recoverSensorSafe s).sh) ∨
    ∃ pwr on cst low, i = .heaterCheck pwr on cst ∧ t.sh = (heaterCheckState on low s).sh := by
  obtain ⟨u, -, -, hw, rfl⟩ := exec_writes h
  cases hw with
  | sensorRead => exact .inr (.inl ⟨rfl, rfl⟩)
  | sensorRecover => exact .inr (.inr (.inl ⟨rfl, rfl⟩))
  | heaterCheck pwr on cst low => exact .inr (.inr (.inr ⟨pwr, on, cst, low, rfl, rfl⟩))
  | _ => exact .inl rfl

/-- The HH registers are written by HEATER_CHECK and HEATER_RESET (R76, R77). -/
theorem exec_hh_cases (h : exec i s = .next t) : t.hh = s.hh ∨
    (∃ pwr on cst low, i = .heaterCheck pwr on cst ∧ t.hh = (heaterCheckState on low s).hh) ∨
    (i = .heaterReset ∧ t.hh = ⟨0#32, false⟩) := by
  obtain ⟨u, -, -, hw, rfl⟩ := exec_writes h
  cases hw with
  | heaterCheck pwr on cst low => exact .inr (.inl ⟨pwr, on, cst, low, rfl, rfl⟩)
  | heaterReset => exact .inr (.inr ⟨rfl, rfl⟩)
  | _ => exact .inl (by simp)

/-- The ARB registers are written by ARBITER_STEP (R79). -/
theorem exec_arb_cases (h : exec i s = .next t) : t.arb = s.arb ∨
    ∃ ss hs spt tt duty, i = .arbiterStep ss hs spt tt ∧ t.arb = ⟨arbNext s.cfg ss hs spt tt, duty, ss && hs⟩ := by
  obtain ⟨u, -, -, hw, rfl⟩ := exec_writes h
  cases hw with
  | arbiter ss hs spt tt => exact .inr ⟨ss, hs, spt, tt, _, rfl, rfl⟩
  | _ => exact .inl (by simp)

/-- The BTN registers are written by BUTTON_POLL (R83). -/
theorem exec_btn_cases (h : exec i s = .next t) : t.btn = s.btn ∨
    (i = .buttonPoll ∧ t.btn = (pollButton s.cfg s.env.now s.env.btnPin s.btn).b) := by
  obtain ⟨u, -, -, hw, rfl⟩ := exec_writes h
  cases hw with
  | button v => exact .inr ⟨rfl, rfl⟩
  | _ => exact .inl (by simp)

/-- DEC.DQ_OE is as before a command, or 0 (R55). -/
theorem exec_dqOe_cases (h : exec i s = .next t) : t.dqOe = s.dqOe ∨ t.dqOe = false := by
  obtain ⟨u, -, -, hw, rfl⟩ := exec_writes h
  cases hw with
  | line => exact .inr rfl
  | sensorRead => exact .inr (sensorRead_dqOe s)
  | _ => exact .inl (by simp)

/-- A command other than EVENTS_READ only adds events (R85, R86). -/
theorem exec_evt_cases (h : exec i s = .next t) : i = .eventsRead ∨ ∃ v, t.evt = s.evt ||| v := by
  obtain ⟨u, -, -, hw, rfl⟩ := exec_writes h
  cases hw with
  | events => exact .inl rfl
  | sensorRead => exact .inr (sensorRead_evt s)
  | heaterCheck _ on _ low => exact .inr (heaterCheckState_evt on low s)
  | button v => exact .inr ⟨v, rfl⟩
  | _ => exact .inr ⟨0#4, by simp⟩

end

end Sys2Proof.Machine
end

section
/-! The nine invariants (10_state.md R32), unit by unit: each unit's invariant, and that every operation on the unit keeps it. -/

namespace Sys2Proof.Machine

/-- Invariants (1) and (2) on the PID unit. -/
structure PidInv (c : Cfg) (r : Pid) : Prop where
  accumulator : f32Within r.i (f32Neg (imax c)) (imax c) = true
  lastOutput : dutyOk c r.lout

/-- Invariants (3) and (4) on the sensor-health unit. -/
structure SensorInv (c : Cfg) (u : SensorHealth) : Prop where
  probation : u.prob = true → u.safe = true
  failures : u.safe = true → u.fails.toNat < c.maxSensorFailures.toNat

/-- Invariant (5) on the heater monitor. -/
def HeaterInv (c : Cfg) (u : HeaterHealth) : Prop := u.failed = false → u.cnt.toNat < c.heaterFaultMax.toNat

/-- Invariants (6) and (8) on the button unit. -/
structure ButtonInv (c : Cfg) (b : Button) : Prop where
  held : b.held = b.deb
  state : ¬(b.held = false ∧ b.fast = true)
  setpoint : c.spMin.toInt ≤ b.sp.toInt ∧ b.sp.toInt ≤ c.spMax.toInt

/-- Invariant (7) on the arbiter unit. -/
def ArbInv (a : Arbiter) : Prop := a.safe = false ↔ a.st = .u

/-- A duty that may be applied is a number. -/
theorem f32IsNaN_of_dutyOk {c : Cfg} {duty : F32} (h : dutyOk c duty) : f32IsNaN duty = false := by
  rcases h with rfl | h
  · decide
  · exact f32IsNaN_of_within h

/-- The nine invariants are those of the units. Invariants (1) and (2) say beside the ranges that PID.I and PID.LOUT are numbers,
which a value in a range is. -/
theorem inv_iff {s : State} : Inv s ↔
    cfgWf s.cfg = true ∧ PidInv s.cfg s.pid ∧ SensorInv s.cfg s.sh ∧ HeaterInv s.cfg s.hh ∧ ButtonInv s.cfg s.btn ∧
      ArbInv s.arb ∧ s.dqOe = false := by
  constructor
  · intro h
    exact ⟨h.configuration, ⟨h.accumulatorBounded, h.lastOutputClamped⟩, ⟨h.probationSafe, h.failuresBelow⟩,
      h.faultsBelow, ⟨h.heldIsDebounced, h.buttonState, h.setpointRange⟩, h.arbiterAgrees, h.lineReleased⟩
  · rintro ⟨hc, hp, hs, hh, hb, ha, hd⟩
    exact ⟨hc, hp.accumulator, f32IsNaN_of_within hp.accumulator, hp.lastOutput, f32IsNaN_of_dutyOk hp.lastOutput,
      hs.probation, hs.failures, hh, hb.held, hb.state, ha, hb.setpoint, hd⟩

/-- The history stays, is cleared, or is a full computation's, whose results are clamped (R63, R70). -/
theorem PidMoves.keeps_inv {c : Cfg} {now : U32} {r q : Pid} (hc : cfgWf c = true) (hm : PidMoves c now r q)
    (h : PidInv c r) : PidInv c q := by
  cases hm with
  | kept hi _ hlout _ => exact ⟨hi ▸ h.accumulator, hlout ▸ h.lastOutput⟩
  | cleared hi _ hlout _ => exact ⟨hi ▸ f32Within_zero_imax hc, .inl hlout⟩
  | computed pv _ hq =>
    obtain ⟨hout, hacc⟩ := pidFull_within hc now pv r
    subst hq
    exact ⟨hacc h.accumulator, .inr hout⟩

section
variable {s : State} (hc : cfgWf s.cfg = true)
include hc

/-- A success clears the count and ends probation; a failure that leaves SH.SAFE set is below the limit (R71). -/
theorem sensorRead_keeps_inv (h : SensorInv s.cfg s.sh) : SensorInv s.cfg (sensorRead s).sh := by
  obtain ⟨-, -, -, hmax, -⟩ := cfgWf_times hc
  by_cases hd : (decodeLine s.cfg s.env).err = .ok
  · rw [sensorRead_success hd]
    exact ⟨nofun, fun _ => hmax⟩
  · rw [sensorRead_failure hd, recordFailure_spec]
    obtain ⟨hprob, -⟩ := h
    cases hsafe : s.sh.safe with
    | false => exact ⟨by simp_all, nofun⟩
    | true => exact ⟨by simp, by simp +contextual⟩

theorem recoverSensorSafe_keeps_inv (h : SensorInv s.cfg s.sh) : SensorInv s.cfg (recoverSensorSafe s).sh := by
  obtain ⟨-, -, -, hmax, -⟩ := cfgWf_times hc
  rw [recoverSensorSafe_spec]
  split
  · exact h
  · exact ⟨fun _ => rfl, fun _ => hmax⟩

end

/-- A check that trips clears SH.SAFE with SH.PROB, and any other leaves both (R76). -/
theorem heaterCheckState_keeps_sensorInv (on low : Bool) {s : State} (h : SensorInv s.cfg s.sh) :
    SensorInv s.cfg (heaterCheckState on low s).sh := by
  obtain ⟨hp, hf⟩ := h
  rw [heaterCheckState_spec]
  constructor
  · cases hsafe : s.sh.safe <;> simp_all
  · simp_all

/-- A count at the threshold latches HH.FAILED in the same check (R76). -/
theorem heaterCheckState_heaterInv (on low : Bool) (s : State) : HeaterInv s.cfg (heaterCheckState on low s).hh := by
  rw [heaterCheckState_spec]
  simp [HeaterInv]

/-- ARB.ST is Unsafe exactly when the operands are not both safe (R78). -/
theorem arbNext_eq_u_iff (c : Cfg) (ss hs : Bool) (spt tt : Tenths) : arbNext c ss hs spt tt = .u ↔ (ss && hs) = false := by
  unfold arbNext
  split
  · split <;> simp_all
  · simp_all

/-- The rest of a poll from a button unit whose debounced level the edge has moved: the press-type machine follows it (R83). -/
theorem pollRest_buttonInv {c : Cfg} (hc : cfgWf c = true) (now : U32) (edge : Edge) {b : Button}
    (hstate : ¬(b.held = false ∧ b.fast = true)) (hsp : c.spMin.toInt ≤ b.sp.toInt ∧ b.sp.toInt ≤ c.spMax.toInt)
    (hnone : edge = .none → b.held = b.deb) (hpress : edge = .press → b.held = false ∧ b.deb = true)
    (hrelease : edge = .release → b.held = true ∧ b.deb = false) : ButtonInv c (pollRest c now edge b).b := by
  obtain ⟨-, -, hhold, -⟩ := cfgWf_times hc
  have hinc (step : Tenths) := incSetpoint_range hc step b.sp hsp
  cases hheld : b.held with
  | false =>
    obtain ⟨enone, epress, -⟩ := pollRest_idle (now := now) hhold hheld (by simpa [hheld] using hstate)
    cases edge with
    | none => rw [enone]; exact ⟨hnone rfl, hstate, hsp⟩
    | press => rw [epress]; exact ⟨(hpress rfl).2.symm, nofun, hsp⟩
    | release => simp [hheld] at hrelease
  | true =>
    cases hfast : b.fast with
    | false =>
      obtain ⟨enone, erelease⟩ := pollRest_waiting (c := c) (now := now) hheld hfast
      cases edge with
      | none =>
        rw [enone]
        split
        · exact ⟨hnone rfl, by simp [hheld], hinc _⟩
        · exact ⟨hnone rfl, hstate, hsp⟩
      | press => simp [hheld] at hpress
      | release => rw [erelease]; exact ⟨(hrelease rfl).2.symm, by simp [hfast], hinc _⟩
    | true =>
      obtain ⟨enone, erelease⟩ := pollRest_fast (c := c) (now := now) hheld hfast
      cases edge with
      | none =>
        rw [enone]
        split
        · exact ⟨hnone rfl, by simp [hheld], hinc _⟩
        · exact ⟨hnone rfl, hstate, hsp⟩
      | press => simp [hheld] at hpress
      | release =>
        rw [erelease]
        split
        · exact ⟨(hrelease rfl).2.symm, nofun, hinc _⟩
        · exact ⟨(hrelease rfl).2.symm, nofun, hsp⟩

theorem pollButton_keeps_inv {c : Cfg} (hc : cfgWf c = true) (now : U32) (pin : Bool) {b : Button} (h : ButtonInv c b) :
    ButtonInv c (pollButton c now pin b).b := by
  obtain ⟨hheld, hstate, hsp⟩ := h
  obtain ⟨dheld, dfast, -, -, dsp, dnone, dpress, drelease⟩ := debounce_edge c now (pressed c pin) b
  rw [pollButton_eq]
  apply pollRest_buttonInv hc
  · rwa [dheld, dfast]
  · rwa [dsp]
  · intro e; rw [dheld, hheld, dnone e]
  · intro e; rw [dheld, hheld]; exact dpress e
  · intro e; rw [dheld, hheld]; exact drelease e

end Sys2Proof.Machine
end

section
/-! The invariants along commands, steps and runs (10_state.md R32), and the configuration (R29). -/

namespace Sys2Proof.Machine

/-- Every command keeps the invariants, each unit's by the operations that write the unit. -/
theorem exec_keeps_inv {i : Instr} {s t : State} (h : Inv s) (he : exec i s = .next t) : Inv t := by
  obtain ⟨hc, hp, hs, hh, hb, ha, hd⟩ := inv_iff.1 h
  obtain ⟨-, -, -, -, hmax, -⟩ := cfgWf_times hc
  rw [inv_iff, exec_cfg he]
  refine ⟨hc, (exec_pid_moves he).keeps_inv hc hp, ?sensor, ?heater, ?button, ?arbiter, ?line⟩
  case sensor =>
    rcases exec_sh_cases he with e | ⟨-, e⟩ | ⟨-, e⟩ | ⟨-, on, -, low, -, e⟩ <;> rw [e]
    · exact hs
    · exact sensorRead_keeps_inv hc hs
    · exact recoverSensorSafe_keeps_inv hc hs
    · exact heaterCheckState_keeps_sensorInv on low hs
  case heater =>
    rcases exec_hh_cases he with e | ⟨-, on, -, low, -, e⟩ | ⟨-, e⟩ <;> rw [e]
    · exact hh
    · exact heaterCheckState_heaterInv on low s
    · exact fun _ => hmax
  case button =>
    rcases exec_btn_cases he with e | ⟨-, e⟩ <;> rw [e]
    · exact hb
    · exact pollButton_keeps_inv hc _ _ hb
  case arbiter =>
    rcases exec_arb_cases he with e | ⟨ss, hs, spt, tt, duty, -, e⟩ <;> rw [e]
    · exact ha
    · exact (arbNext_eq_u_iff s.cfg ss hs spt tt).symm
  case line =>
    rcases exec_dqOe_cases he with e | e <;> rw [e]
    exact hd

/-- Settles O14: idling and an illegal frame touch the ports alone, which no invariant reads; a legal frame runs a command. -/
theorem stepKeepsTheInvariants : Obligations.StepKeepsTheInvariants := by
  intro s t h hstep
  obtain ⟨-, ⟨-, rfl⟩ | ⟨d, rest, f, -, -, ⟨-, rfl⟩ | ⟨i, -, he⟩⟩⟩ := step_cases hstep
  · exact h
  · exact inv_iff.2 ((inv_iff (s := s)).1 h)
  · exact exec_keeps_inv (s := acceptDelivery d rest s) (inv_iff.2 ((inv_iff (s := s)).1 h)) he

/-- What every step of a machine keeps holds at the end of each run from a state where it holds. -/
theorem run_keeps {M : Host.Core} {P : M.State → Prop} (hP : ∀ s t, P s → M.step s = .next t → P t) {n : Nat}
    {s t : M.State} (h : P s) (hrun : M.run n s = .next t) : P t := by
  induction n generalizing s with
  | zero => exact Host.Outcome.next.inj hrun ▸ h
  | succ n ih =>
    rw [Host.Core.run] at hrun
    split at hrun
    · next u hu => exact ih (hP s u h hu) hrun
    · cases hrun
    · cases hrun

/-- The reset state meets the invariants (R100), whatever the host is about to deliver. -/
theorem inv_resetWith {c : Cfg} (h : cfgWf c = true) (ds : List Delivery) : Inv { State.resetWith c with inbox := ds } := by
  obtain ⟨-, -, -, hmax, hfault, -⟩ := cfgWf_times h
  obtain ⟨-, -, -, hsp⟩ := cfgWf_setpoints h
  exact inv_iff.2 ⟨h, ⟨f32Within_zero_imax h, .inl rfl⟩, ⟨nofun, fun _ => hmax⟩, fun _ => hfault, ⟨rfl, nofun, hsp⟩,
    ⟨nofun, nofun⟩, rfl⟩

/-- Settles O16, by induction on the number of steps. -/
theorem invariantsHoldAlongEveryRun : Obligations.InvariantsHoldAlongEveryRun :=
  fun _ ds _ _ hc hrun => run_keeps (M := core) stepKeepsTheInvariants (inv_resetWith hc ds) hrun

/-- Settles O19. -/
theorem noStepChangesTheConfiguration : Obligations.NoStepChangesTheConfiguration := by
  intro s t hstep
  obtain ⟨-, ⟨-, rfl⟩ | ⟨d, rest, f, -, -, ⟨-, rfl⟩ | ⟨i, -, he⟩⟩⟩ := step_cases hstep
  · rfl
  · rfl
  · exact (exec_cfg he).trans (acceptDelivery_cfg s d rest)

end Sys2Proof.Machine
end

section
/-! Which command moves which one-bit state (10_state.md R21). -/

namespace Sys2Proof.Machine

/-- A read sets neither SH.SAFE nor SH.PROB, and ends probation by a success or a trip (R71). -/
theorem sensorRead_flags (s : State) :
    (s.sh.safe = false → (sensorRead s).sh.safe = false) ∧ (s.sh.prob = false → (sensorRead s).sh.prob = false) ∧
    (s.sh.prob = true → (sensorRead s).sh.prob = false →
      (decodeLine s.cfg s.env).err = .ok ∨ (s.sh.safe = true ∧ (sensorRead s).sh.safe = false)) := by
  by_cases hd : (decodeLine s.cfg s.env).err = .ok
  · rw [sensorRead_success hd]
    exact ⟨id, fun _ => rfl, fun _ _ => .inl hd⟩
  · rw [sensorRead_failure hd, recordFailure_spec]
    cases hsafe : s.sh.safe <;> simp_all

/-- A check sets neither SH.SAFE nor SH.PROB, and ends probation by a trip (R76). -/
theorem heaterCheckState_flags (on low : Bool) (s : State) :
    (s.sh.safe = false → (heaterCheckState on low s).sh.safe = false) ∧
    (s.sh.prob = false → (heaterCheckState on low s).sh.prob = false) ∧
    (s.sh.prob = true → (heaterCheckState on low s).sh.prob = false →
      s.sh.safe = true ∧ (heaterCheckState on low s).sh.safe = false) := by
  rw [heaterCheckState_spec]
  cases hsafe : s.sh.safe <;> simp_all

/-- Recovery changes SH only while unsafe (R73). -/
theorem recoverSensorSafe_of_safe {s : State} (h : s.sh.safe = true) : recoverSensorSafe s = s := by
  simp [recoverSensorSafe_spec, h]

/-- Recovery never ends probation (R73). -/
theorem recoverSensorSafe_prob {s : State} (h : s.sh.prob = true) : (recoverSensorSafe s).sh.prob = true := by
  rw [recoverSensorSafe_spec]
  split
  · exact h
  · rfl

section
variable {i : Instr} {s t : State}

/-- Which commands move SH.SAFE and SH.PROB (R21). -/
theorem exec_sensor_flags (h : exec i s = .next t) :
    (s.sh.safe = false → t.sh.safe = true → i = .sensorRecover) ∧
    (s.sh.safe = true → t.sh.safe = false → i = .sensorUpdate ∨ ∃ p o c, i = .heaterCheck p o c) ∧
    (s.sh.prob = false → t.sh.prob = true → i = .sensorRecover ∧ s.sh.safe = false) ∧
    (s.sh.prob = true → t.sh.prob = false →
      (i = .sensorUpdate ∧ ((decodeLine s.cfg s.env).err = .ok ∨ (s.sh.safe = true ∧ t.sh.safe = false))) ∨
      ((∃ p o c, i = .heaterCheck p o c) ∧ s.sh.safe = true ∧ t.sh.safe = false)) := by
  rcases exec_sh_cases h with e | ⟨rfl, e⟩ | ⟨rfl, e⟩ | ⟨pwr, on, cst, low, rfl, e⟩ <;> rw [e]
  · simp_all
  · obtain ⟨hsafe, hprob, hfall⟩ := sensorRead_flags s
    exact ⟨fun h0 h1 => by simp [hsafe h0] at h1, fun _ _ => .inl rfl, fun h0 h1 => by simp [hprob h0] at h1,
      fun h0 h1 => .inl ⟨rfl, hfall h0 h1⟩⟩
  · refine ⟨fun _ _ => rfl, fun _ h1 => by simp at h1, fun h0 h1 => ⟨rfl, ?_⟩, fun h0 h1 => ?_⟩
    · by_contra hsafe
      rw [recoverSensorSafe_of_safe (by simpa using hsafe), h0] at h1
      cases h1
    · rw [recoverSensorSafe_prob h0] at h1
      cases h1
  · obtain ⟨hsafe, hprob, hfall⟩ := heaterCheckState_flags on low s
    exact ⟨fun h0 h1 => by simp [hsafe h0] at h1, fun _ _ => .inr ⟨_, _, _, rfl⟩, fun h0 h1 => by simp [hprob h0] at h1,
      fun h0 h1 => .inr ⟨⟨_, _, _, rfl⟩, hfall h0 h1⟩⟩

/-- A check keeps a latched HH.FAILED (R76). -/
theorem heaterCheckState_failed (on low : Bool) (h : s.hh.failed = true) : (heaterCheckState on low s).hh.failed = true := by
  simp [heaterCheckState_spec, h]

/-- Which commands move HH.FAILED (R21). -/
theorem exec_heater_flag (h : exec i s = .next t) :
    (s.hh.failed = false → t.hh.failed = true → ∃ p o c, i = .heaterCheck p o c) ∧
    (s.hh.failed = true → t.hh.failed = false → i = .heaterReset) := by
  rcases exec_hh_cases h with e | ⟨pwr, on, cst, low, rfl, e⟩ | ⟨rfl, e⟩ <;> rw [e]
  · simp_all
  · exact ⟨fun _ _ => ⟨_, _, _, rfl⟩, fun h0 h1 => by simp [heaterCheckState_failed on low h0] at h1⟩
  · exact ⟨nofun, fun _ _ => rfl⟩

end

/-- Settles O42: each unit's registers are what they were, or one of the commands that write the unit ran. -/
theorem flagsMoveOnlyByTheirCommands : Obligations.FlagsMoveOnlyByTheirCommands := by
  intro i s t h
  obtain ⟨safeRises, safeFalls, probRises, probFalls⟩ := exec_sensor_flags h
  obtain ⟨failedRises, failedFalls⟩ := exec_heater_flag h
  refine ⟨safeRises, safeFalls, probRises, probFalls, failedRises, failedFalls, (exec_pid_en_cases h).resolve_left, ?arbiter,
    ?button, ?events⟩
  case arbiter =>
    intro hne
    obtain e | ⟨ss, hs, spt, tt, duty, hi, e⟩ := exec_arb_cases h
    · exact absurd (congrArg Arbiter.safe e) hne
    · exact ⟨ss, hs, spt, tt, hi, by rw [e]⟩
  case button =>
    intro hne
    obtain e | ⟨hi, -⟩ := exec_btn_cases h
    · simp [e] at hne
    · exact hi
  case events =>
    intro k h0 h1
    obtain hi | ⟨v, e⟩ := exec_evt_cases h
    · exact hi
    · simp [e, h0] at h1

end Sys2Proof.Machine
end

section
/-! Frames on the byte transport (20_memory.md R33, R34), and the answer to each of them (R35, R41; 30_encoding.md R50). -/

namespace Sys2Proof.Machine

/-- The bytes of a frame, most significant first, put together are the frame (R33). -/
theorem frameOfBytes_bytesOfFrame (f : Frame) : frameOfBytes (bytesOfFrame f) = some f := by
  simp (disch := omega) only [bytesOfFrame, frameOfBytes, BitVec.extractLsb'_append_extractLsb'_eq_extractLsb']
  simp

/-- A byte list that gives a frame holds that frame's bytes (R33). -/
theorem bytesOfFrame_of_frameOfBytes {bs : List Byte} {f : Frame} (h : frameOfBytes bs = some f) : bs = bytesOfFrame f := by
  unfold frameOfBytes at h
  split at h
  · cases h
    simp (disch := omega) only [bytesOfFrame, BitVec.extractLsb'_append_eq_of_le, BitVec.extractLsb'_append_eq_right,
      Nat.reduceSub, BitVec.extractLsb'_eq_self]
  · cases h

/-- Eight bytes make a frame (R33). -/
theorem frameOfBytes_of_length {bs : List Byte} (h : bs.length = 8) : ∃ f, frameOfBytes bs = some f :=
  match bs, h with
  | [_, _, _, _, _, _, _, _], _ => ⟨_, rfl⟩

theorem bytesOfFrame_getElem? (f : Frame) : ∀ k < 8, (bytesOfFrame f)[k]? = some (f.extractLsb' (56 - 8 * k) 8)
  | 0, _ | 1, _ | 2, _ | 3, _ | 4, _ | 5, _ | 6, _ | 7, _ => rfl

/-- Settles O6: the bytes are the frame's eight parts, in order, and only eight bytes are put together. -/
theorem framesAreBigEndianOnTheTransport : Obligations.FramesAreBigEndianOnTheTransport :=
  ⟨fun f => ⟨frameOfBytes_bytesOfFrame f, bytesOfFrame_getElem? f⟩, fun _ _ => bytesOfFrame_of_frameOfBytes,
    fun _ => frameOfBytes_of_length_ne⟩

/-- CST = 3 is the one value that names no current-sensor status (R75). -/
theorem currentStatus_eq_none_iff (cst : BitVec 2) : currentStatus cst = none ↔ cst = 3#2 := by
  revert cst
  decide

/-- The response a command ends with: STATUS 0x00, but for the command that is not well-formed, which gets the illegal one (R50,
R87). -/
def AnswersAs (i : Instr) (rsp : Frame) : Prop :=
  (i.wf = true ∧ rsp.extractLsb' 56 8 = 0x00#8) ∨ (i.wf = false ∧ rsp = illegalResponse)

theorem illegalResponse_eq : illegalResponse = 0x0100000000000000#64 := by decide

theorem answersAs_of_wf {i : Instr} (h : i.wf = true) (payload : BitVec 56) : AnswersAs i (0x00#8 ++ payload) :=
  .inl ⟨h, BitVec.extractLsb'_append_eq_left⟩

/-- Every command responds last, with a response of its kind. -/
theorem exec_answers {i : Instr} {s t : State} (h : exec i s = .next t) :
    ∃ u rsp dq, t = respondWith rsp dq u ∧ AnswersAs i rsp := by
  cases i with
  | heaterCheck pwr on cst =>
    rw [exec, execHeaterCheck] at h
    split at h
    · next hst =>
      refine ⟨s, illegalResponse, [], (Host.Outcome.next.inj h).symm, .inr ⟨?_, rfl⟩⟩
      simp [Instr.wf, (currentStatus_eq_none_iff cst).1 hst]
    · next st hst =>
      refine ⟨_, _, _, (Host.Outcome.next.inj h).symm, answersAs_of_wf ?_ _⟩
      have hcst : cst ≠ 3#2 := fun e => by simp [(currentStatus_eq_none_iff cst).2 e] at hst
      simp [Instr.wf, hcst]
  | _ => cases Host.Outcome.next.inj h; exact ⟨_, _, _, rfl, answersAs_of_wf rfl _⟩

/-- A command adds its one response to RSP, and keeps CFG and the deliveries (R35). -/
theorem exec_adds_response (i : Instr) (s : State) : ∃ t r, exec i s = .next t ∧ t.cfg = s.cfg ∧ t.inbox = s.inbox ∧
    t.outbox = s.outbox ++ [r] ∧ AnswersAs i r.rsp := by
  obtain ⟨t, r, h, hcfg, -, hin, hout⟩ := exec_next i s
  obtain ⟨u, rsp, dq, rfl, hrsp⟩ := exec_answers h
  obtain ⟨-, hr⟩ := List.append_inj' hout rfl
  cases hr
  exact ⟨_, _, h, hcfg, hin, hout, hrsp⟩

/-- Settles O12: an illegal frame is answered at once, and a legal one by its command. -/
theorem everyFrameGetsOneResponse : Obligations.EveryFrameGetsOneResponse := by
  intro s d rest hc hi hlen
  obtain ⟨f, hf⟩ := frameOfBytes_of_length hlen
  rw [step_of_delivery hc hi, runDelivery, hf]
  dsimp only
  cases hd : decode f with
  | none => exact ⟨_, _, rfl, rfl, rfl, rfl, .inr illegalResponse_eq⟩
  | some i =>
    obtain ⟨t, r, h, hcfg, hin, hout, hrsp⟩ := exec_adds_response i (acceptDelivery d rest s)
    exact ⟨t, r, h, hin, hcfg, hout, hrsp.imp (fun ⟨_, hok⟩ => hok) fun ⟨_, hill⟩ => hill.trans illegalResponse_eq⟩

theorem run_succ {M : Host.Core} {n : Nat} {s u : M.State} (h : M.step s = .next u) : M.run (n + 1) s = M.run n u := by
  rw [Host.Core.run, h]

/-- A run over the whole frames `ds`: each step takes the first one and adds one response. -/
theorem run_answers {ds : List Delivery} (hlen : ∀ d ∈ ds, d.bytes.length = 8) {s : State} (hc : cfgWf s.cfg = true)
    (hi : s.inbox = ds) : ∃ (t : State) (new : List Response), Host.Core.run core ds.length s = .next t ∧ t.inbox = [] ∧
      t.outbox = s.outbox ++ new ∧ new.length = ds.length := by
  induction ds generalizing s with
  | nil => exact ⟨s, [], rfl, hi, by simp, rfl⟩
  | cons d rest ih =>
    obtain ⟨hd, hrest⟩ := List.forall_mem_cons.1 hlen
    obtain ⟨u, r, hstep, hin, hcfg, hout, -⟩ := everyFrameGetsOneResponse s d rest hc hi hd
    obtain ⟨t, new, hrun, hempty, hnew, hcount⟩ := ih hrest (hcfg ▸ hc) hin
    exact ⟨t, r :: new, (run_succ (M := core) hstep).trans hrun, hempty, by simp [hnew, hout], by simp [hcount]⟩

/-- Settles O13, by induction on the deliveries. -/
theorem everyRunAnswersAllCommands : Obligations.EveryRunAnswersAllCommands := by
  intro s hc hlen
  obtain ⟨t, new, hrun, hempty, hnew, hcount⟩ := run_answers hlen hc rfl
  exact ⟨t, hrun, hempty, by simp [hnew, hcount], new, hnew⟩

end Sys2Proof.Machine
end

section
/-! The bound on a decode (20_memory.md R41, 70_reset_and_hazards.md R112): how many waits it makes, and how long each lasts. -/

namespace Sys2Proof.Machine

/-- "Each wait lasts at most its limit plus CFG.POLL_G_US" (R41). -/
theorem waitUs_le (G : Nat) (w : Wait) : waitUs G w ≤ w.limit + G := by
  unfold waitUs
  split
  · exact Nat.le_refl _
  · exact Nat.min_le_right _ _

/-- The time of at most `n` waits of one limit. -/
theorem sum_waitUs_le (G : Nat) {n limit : Nat} {ws : List Wait} (hlen : ws.length ≤ n)
    (hlimit : ∀ w ∈ ws, w.limit = limit) : (ws.map (waitUs G)).sum ≤ n * (limit + G) := by
  have hw : ∀ us ∈ ws.map (waitUs G), us ≤ limit + G := by
    intro us hus
    obtain ⟨w, hmem, rfl⟩ := List.mem_map.1 hus
    exact hlimit w hmem ▸ waitUs_le G w
  calc (ws.map (waitUs G)).sum
    _ ≤ ws.length * (limit + G) := by simpa using List.sum_le_card_nsmul _ _ hw
    _ ≤ n * (limit + G) := Nat.mul_le_mul_right _ hlen

/-- The waits of a decode are the handshake's, at most 3, and then the data bits', at most 80 (R55). -/
theorem decodeWaits_split (c : Cfg) (e : Env) : ∃ hs bits, decodeWaits c e = hs ++ bits ∧
    (hs.length ≤ 3 ∧ ∀ w ∈ hs, w.limit = c.hsTimeoutUs.toNat) ∧
    bits.length ≤ 80 ∧ ∀ w ∈ bits, w.limit = c.bitTimeoutUs.toNat := by
  obtain ⟨hs, hwaits, hlen, -, hlimit⟩ := handshake_waits c handshakeLevels (lineStart e)
  unfold decodeWaits decodeFrom
  split
  · next l1 h =>
    rw [h] at hwaits
    exact ⟨hs, [], by simpa [lineStart] using hwaits, ⟨hlen, hlimit⟩, by simp, by simp⟩
  · next l1 h =>
    rw [h] at hwaits
    obtain ⟨bits, hbits, hlen', hlimit'⟩ := readBits_waits c 40 0#40 l1
    refine ⟨hs, bits, ?_, ⟨hlen, hlimit⟩, hlen', hlimit'⟩
    have hall : (readBits c 40 0#40 l1).2.waits = hs ++ bits := by rw [hbits, hwaits]; rfl
    split
    · next h2 => rwa [h2] at hall
    · next h2 => rwa [h2] at hall

/-- Settles O33: 3 waits of the handshake limit and 80 of the bit limit, each no longer than its limit plus G. -/
theorem decodeEndsInBoundedTime : Obligations.DecodeEndsInBoundedTime := by
  intro c e
  obtain ⟨hs, bits, hsplit, ⟨hlen, hlimit⟩, hlen', hlimit'⟩ := decodeWaits_split c e
  have hsUs := sum_waitUs_le c.pollGUs.toNat hlen hlimit
  have bitsUs := sum_waitUs_le c.pollGUs.toNat hlen' hlimit'
  rw [decodeUs, hsplit, List.length_append, List.map_append, List.sum_append]
  omega

end Sys2Proof.Machine
end

section
/-! Commands repeated at the same NOW with the same inputs (20_memory.md R36): the gates see an elapsed time of 0, which is below
every limit of at least 1. -/

namespace Sys2Proof.Machine

@[simp] theorem elapsed_self (now : U32) : elapsed now now = 0 := by
  simp [elapsed]

section
variable {c : Cfg}

theorem pidCore_of_gated {now : U32} {r : Pid} (pv : F32) (hen : r.en = true) (h : elapsed now r.lt < c.sampleTimeMs.toNat) :
    pidCore c now pv r = (r, r.lout) := by
  simp [pidCore, hen, h]

/-- A repeated `PidCore` gives the same registers and output: a full computation gates the next one (R63). -/
theorem pidCore_again (hsample : 1 ≤ c.sampleTimeMs.toNat) (now : U32) (pv : F32) (r : Pid) :
    pidCore c now pv (pidCore c now pv r).1 = pidCore c now pv r := by
  rcases pidCore_cases c now pv r with ⟨-, h⟩ | ⟨-, -, h⟩ | ⟨hen, -, h⟩ <;> rw [h]
  · exact h
  · exact h
  · exact pidCore_of_gated (r := pidFull c now pv r) pv hen (by simpa [pidFull] using Nat.lt_of_succ_le hsample)

/-- A repeated step of the arbiter in one state gives the same PID registers and duty (R79). -/
theorem arbDuty_again (hsample : 1 ≤ c.sampleTimeMs.toNat) (now : U32) (st : ArbState) (tt : Tenths) (r : Pid) :
    arbDuty c now st tt (arbDuty c now st tt r).1 = arbDuty c now st tt r := by
  cases st with
  | sn => exact pidCore_again hsample now (celsius tt) r
  | soc => rfl
  | u => rfl

/-- After a debounce the raw level is the pin's, and the debounced level follows it or waits for the window (R81). -/
theorem debounce_settles (now : U32) (pr : Bool) (b : Button) : (debounce c now pr b).1.raw = pr ∧
    ¬(c.debounceMs.toNat ≤ elapsed now (debounce c now pr b).1.lct ∧ pr ≠ (debounce c now pr b).1.deb) := by
  obtain ⟨hraw, hdeb, -, -, -, -, -, -, ⟨-, -, h⟩ | ⟨hkeep, h⟩⟩ := debounce_cases c now pr b <;> rw [h]
  · exact ⟨hraw, fun hmove => hmove.2 rfl⟩
  · exact ⟨hraw, by rwa [hdeb]⟩

/-- A debounce of a settled button reports no edge and changes nothing (R81). -/
theorem debounce_of_settled {now : U32} {pr : Bool} {b : Button} (hraw : b.raw = pr)
    (h : ¬(c.debounceMs.toNat ≤ elapsed now b.lct ∧ pr ≠ b.deb)) : debounce c now pr b = (b, .none) := by
  subst hraw
  have hsample : sampleRaw now b.raw b = b := if_neg (not_not.2 rfl)
  rw [debounce, hsample]
  exact if_neg h

end

section
/-! A poll, step by step (45_button.md R83). -/
variable {c : Cfg} {now : U32}

/-- The registers the debounce reads stay, and only an increment, which sets `changed`, writes the setpoint. -/
structure KeepsUnlessChanged (p q : Poll) : Prop where
  raw : q.b.raw = p.b.raw
  deb : q.b.deb = p.b.deb
  lct : q.b.lct = p.b.lct
  setpoint : q.changed = false → p.changed = false ∧ q.b.sp = p.b.sp

theorem KeepsUnlessChanged.refl (p : Poll) : KeepsUnlessChanged p p := ⟨rfl, rfl, rfl, fun h => ⟨h, rfl⟩⟩

theorem KeepsUnlessChanged.trans {p q r : Poll} (h : KeepsUnlessChanged p q) (h' : KeepsUnlessChanged q r) :
    KeepsUnlessChanged p r := by
  refine ⟨h'.raw.trans h.raw, h'.deb.trans h.deb, h'.lct.trans h.lct, fun hr => ?_⟩
  obtain ⟨hq, hsp⟩ := h'.setpoint hr
  obtain ⟨hp, hsp'⟩ := h.setpoint hq
  exact ⟨hp, hsp.trans hsp'⟩

theorem pollRepeat_keeps (p : Poll) : KeepsUnlessChanged p (pollRepeat c now p) := by
  unfold pollRepeat
  split
  · exact ⟨rfl, rfl, rfl, nofun⟩
  · exact .refl p

theorem pollPress_keeps (edge : Edge) (p : Poll) : KeepsUnlessChanged p (pollPress now edge p) := by
  unfold pollPress
  split
  · exact ⟨rfl, rfl, rfl, fun h => ⟨h, rfl⟩⟩
  · exact .refl p

theorem releaseInc_keeps (p : Poll) : KeepsUnlessChanged p (releaseInc c now p) := by
  unfold releaseInc
  split
  · split <;> exact ⟨rfl, rfl, rfl, nofun⟩
  · exact .refl p

theorem pollRelease_keeps (edge : Edge) (p : Poll) : KeepsUnlessChanged p (pollRelease c now edge p) := by
  unfold pollRelease
  split
  · exact (releaseInc_keeps p).trans ⟨rfl, rfl, rfl, fun h => ⟨h, rfl⟩⟩
  · exact .refl p

theorem pollHold_keeps (p : Poll) : KeepsUnlessChanged p (pollHold c now p) := by
  unfold pollHold
  split
  · exact ⟨rfl, rfl, rfl, nofun⟩
  · exact .refl p

theorem pollRest_keeps (edge : Edge) (b : Button) : KeepsUnlessChanged ⟨b, false⟩ (pollRest c now edge b) :=
  (pollRepeat_keeps _).trans ((pollPress_keeps edge _).trans ((pollRelease_keeps edge _).trans (pollHold_keeps _)))

/-- Step 2 has an increment to make. -/
def RepeatDue (c : Cfg) (now : U32) (b : Button) : Prop :=
  b.held = true ∧ b.fast = true ∧ c.repeatMs.toNat ≤ elapsed now b.lft

/-- Step 4 has an increment to make. -/
def HoldDue (c : Cfg) (now : U32) (b : Button) : Prop :=
  b.held = true ∧ b.fast = false ∧ b.deb = true ∧ c.holdMs.toNat ≤ elapsed now b.pst

/-- Without an edge, and with neither increment due, the poll changes nothing. -/
theorem pollRest_of_notDue {b : Button} (hrepeat : ¬RepeatDue c now b) (hhold : ¬HoldDue c now b) :
    pollRest c now .none b = ⟨b, false⟩ := by
  have h2 : pollRepeat c now ⟨b, false⟩ = ⟨b, false⟩ := if_neg hrepeat
  have h4 : pollHold c now ⟨b, false⟩ = ⟨b, false⟩ := if_neg hhold
  rw [pollRest, h2]
  exact h4

section
variable (hrepeat : 1 ≤ c.repeatMs.toNat)
include hrepeat

/-- A repeat restarts its interval. -/
theorem pollRepeat_notDue (p : Poll) : ¬RepeatDue c now (pollRepeat c now p).b := by
  unfold pollRepeat
  split
  · rintro ⟨-, -, hdue⟩
    simp only [elapsed_self] at hdue
    omega
  · assumption

/-- Step 4 makes its increment when it is due, enters Fast-Repeat and starts the repeat interval. -/
theorem pollHold_notDue {p : Poll} (h : ¬RepeatDue c now p.b) :
    ¬RepeatDue c now (pollHold c now p).b ∧ ¬HoldDue c now (pollHold c now p).b := by
  unfold pollHold
  split
  · refine ⟨?_, nofun⟩
    rintro ⟨-, -, hdue⟩
    simp only [elapsed_self] at hdue
    omega
  · exact ⟨h, by assumption⟩

/-- A poll leaves no increment due: a press and a release do not start a repeat. -/
theorem pollRest_notDue (edge : Edge) (b : Button) :
    ¬RepeatDue c now (pollRest c now edge b).b ∧ ¬HoldDue c now (pollRest c now edge b).b := by
  have h2 := pollRepeat_notDue (now := now) hrepeat ⟨b, false⟩
  have h3a : ¬RepeatDue c now (pollPress now edge (pollRepeat c now ⟨b, false⟩)).b := by
    unfold pollPress
    split
    · next h => rintro ⟨-, hfast, -⟩; simp [h.2.2] at hfast
    · exact h2
  apply pollHold_notDue hrepeat
  unfold pollRelease
  split
  · rintro ⟨hheld, -⟩; cases hheld
  · exact h3a

/-- A repeated poll changes nothing (R36, R83). -/
theorem pollButton_again (pin : Bool) (b : Button) :
    pollButton c now pin (pollButton c now pin b).b = ⟨(pollButton c now pin b).b, false⟩ := by
  obtain ⟨hraw, hsettled⟩ := debounce_settles (c := c) now (pressed c pin) b
  have hkeeps := pollRest_keeps (c := c) (now := now) (debounce c now (pressed c pin) b).2 (debounce c now (pressed c pin) b).1
  obtain ⟨hnorepeat, hnohold⟩ :=
    pollRest_notDue (now := now) hrepeat (debounce c now (pressed c pin) b).2 (debounce c now (pressed c pin) b).1
  rw [← pollButton_eq] at hkeeps hnorepeat hnohold
  have hdebounce : debounce c now (pressed c pin) (pollButton c now pin b).b = ((pollButton c now pin b).b, .none) :=
    debounce_of_settled (hkeeps.raw.trans hraw) (by rwa [hkeeps.lct, hkeeps.deb])
  rw [pollButton_eq, hdebounce]
  exact pollRest_of_notDue hnorepeat hnohold

end

/-- A poll without an increment leaves the setpoint. -/
theorem pollButton_sp {pin : Bool} {b : Button} (h : (pollButton c now pin b).changed = false) :
    (pollButton c now pin b).b.sp = b.sp := by
  obtain ⟨-, -, -, -, hsp, -⟩ := debounce_edge c now (pressed c pin) b
  exact ((pollRest_keeps _ _).setpoint h).2.trans hsp

end

section
variable {s t : State}

/-- BUTTON_POLL repeated: no second increment, and so no change (R36). -/
theorem exec_buttonPoll_again (hrepeat : 1 ≤ s.cfg.repeatMs.toNat) (h : exec .buttonPoll s = .next t) :
    ∃ changed, t.outbox = s.outbox ++ [⟨0x00#8 ++ buttonFields changed t.btn.sp, []⟩] ∧
      exec .buttonPoll t = .next { t with outbox := t.outbox ++ [⟨0x00#8 ++ buttonFields false t.btn.sp, []⟩] } ∧
      (changed = false → t.btn.sp = s.btn.sp ∧ t.evt = s.evt) := by
  cases Host.Outcome.next.inj ((execButtonPoll_spec s).symm.trans h)
  refine ⟨(pollButton s.cfg s.env.now s.env.btnPin s.btn).changed, rfl, ?again, ?unchanged⟩
  case unchanged => exact fun hc => ⟨pollButton_sp hc, by simp [hc]⟩
  case again =>
    refine (execButtonPoll_spec _).trans ?_
    dsimp only
    rw [pollButton_again hrepeat]
    rfl

/-- The interval restarts with the read (R71). -/
theorem sensorRead_lrt (s : State) : (sensorRead s).sh.lrt = s.env.now := by
  by_cases h : (decodeLine s.cfg s.env).err = .ok
  · rw [sensorRead_success h]
  · rw [sensorRead_failure h, recordFailure_spec]

@[simp] theorem sensorRead_cfg (s : State) : (sensorRead s).cfg = s.cfg := by obtain ⟨u, v, h⟩ := sensorRead_frame s; rw [h]
@[simp] theorem sensorRead_env (s : State) : (sensorRead s).env = s.env := by obtain ⟨u, v, h⟩ := sensorRead_frame s; rw [h]
@[simp] theorem sensorRead_outbox (s : State) : (sensorRead s).outbox = s.outbox := by
  obtain ⟨u, v, h⟩ := sensorRead_frame s; rw [h]

/-- A read closes the gate, for an interval of at least 1 (R71). -/
theorem sensorGateOpen_sensorRead (h : 1 ≤ s.cfg.readIntervalMs.toNat) : sensorGateOpen (sensorRead s) = false := by
  simp only [sensorGateOpen, sensorRead_cfg, sensorRead_env, sensorRead_lrt, elapsed_self, decide_eq_false_iff_not]
  omega

/-- A gated SENSOR_UPDATE answers the last good sample and changes nothing (R71). -/
theorem execSensorUpdate_of_gated (h : sensorGateOpen s = false) :
    execSensorUpdate s = .next (respondWith (0x00#8 ++ sampleFields s.sh.h s.sh.t) [] s) := by
  simp [execSensorUpdate, h]

theorem execSensorUpdate_of_open (h : sensorGateOpen s = true) : execSensorUpdate s =
    .next (respondWith (0x00#8 ++ sampleFields (sensorRead s).sh.h (sensorRead s).sh.t) (decodeDrive s.cfg) (sensorRead s)) := by
  simp [execSensorUpdate, h]

/-- SENSOR_UPDATE repeated: the second is gated, and answers the sample the first answered (R36). -/
theorem exec_sensorUpdate_again (hinterval : 1 ≤ s.cfg.readIntervalMs.toNat) (h : exec .sensorUpdate s = .next t) :
    ∃ r, t.outbox = s.outbox ++ [r] ∧ exec .sensorUpdate t = .next { t with outbox := t.outbox ++ [⟨r.rsp, []⟩] } := by
  cases hgate : sensorGateOpen s with
  | false =>
    cases Host.Outcome.next.inj ((execSensorUpdate_of_gated hgate).symm.trans h)
    exact ⟨_, rfl, execSensorUpdate_of_gated hgate⟩
  | true =>
    cases Host.Outcome.next.inj ((execSensorUpdate_of_open hgate).symm.trans h)
    refine ⟨⟨0x00#8 ++ sampleFields (sensorRead s).sh.h (sensorRead s).sh.t, decodeDrive s.cfg⟩, by simp, ?_⟩
    exact execSensorUpdate_of_gated (sensorGateOpen_sensorRead hinterval)

@[simp] theorem recoverSensorSafe_outbox (s : State) : (recoverSensorSafe s).outbox = s.outbox := by
  rw [recoverSensorSafe_spec]; split <;> rfl

theorem exec_pidCompute (pv : F32) (s : State) : exec (.pidCompute pv) s =
    .next (respondWith (0x00#8 ++ pidFields (pidCore s.cfg s.env.now pv s.pid).2) []
      (s.withPid (pidCore s.cfg s.env.now pv s.pid).1)) := rfl

theorem exec_arbiterStep (ss hs : Bool) (spt tt : Tenths) (s : State) : exec (.arbiterStep ss hs spt tt) s =
    let st := arbNext s.cfg ss hs spt tt
    let q := arbDuty s.cfg s.env.now st tt s.pid
    .next (respondWith (0x00#8 ++ arbiterFields st (ss && hs) q.2) [] ((s.withPid q.1).withArb ⟨st, q.2, ss && hs⟩)) := rfl

theorem exec_sensorRecover (s : State) :
    exec .sensorRecover s = .next (respondWith (0x00#8 ++ 0#56) [] (recoverSensorSafe s)) := rfl

/-- A command is idempotent when, run again where it has run, it responds the same and writes nothing. -/
theorem again_of_second {i : Instr} {rsp : Frame} {u : State} (h : exec i s = .next t)
    (hfirst : exec i s = .next (respondWith rsp [] u)) (hout : u.outbox = s.outbox)
    (hsecond : exec i (respondWith rsp [] u) = .next (respondWith rsp [] (respondWith rsp [] u))) :
    ∃ r, t.outbox = s.outbox ++ [r] ∧ exec i t = .next { t with outbox := t.outbox ++ [r] } := by
  cases Host.Outcome.next.inj (hfirst.symm.trans h)
  exact ⟨⟨rsp, []⟩, by rw [respondWith_outbox, hout], hsecond⟩

/-- The commands R36 sums up as "all others", repeated: the registers they write already hold what they write. -/
theorem exec_again {i : Instr} (hsample : 1 ≤ s.cfg.sampleTimeMs.toNat) (hdecode : i ≠ .decodeSample)
    (hsensor : i ≠ .sensorUpdate) (hevents : i ≠ .eventsRead) (hbutton : i ≠ .buttonPoll)
    (hheater : ∀ p o c, i ≠ .heaterCheck p o c) (h : exec i s = .next t) :
    ∃ r, t.outbox = s.outbox ++ [r] ∧ exec i t = .next { t with outbox := t.outbox ++ [r] } := by
  cases i with
  | decodeSample => exact absurd rfl hdecode
  | sensorUpdate => exact absurd rfl hsensor
  | eventsRead => exact absurd rfl hevents
  | buttonPoll => exact absurd rfl hbutton
  | heaterCheck p o c => exact absurd rfl (hheater p o c)
  | pidCompute pv =>
    have hagain := pidCore_again hsample s.env.now pv s.pid
    refine again_of_second h (exec_pidCompute pv s) rfl ((exec_pidCompute pv _).trans ?_)
    simp only [respondWith_cfg, respondWith_env, respondWith_pid, withPid_cfg, withPid_env, withPid_pid, hagain]
    rfl
  | arbiterStep ss hs spt tt =>
    have hagain := arbDuty_again hsample s.env.now (arbNext s.cfg ss hs spt tt) tt s.pid
    refine again_of_second h (exec_arbiterStep ss hs spt tt s) rfl ((exec_arbiterStep ss hs spt tt _).trans ?_)
    simp only [respondWith_cfg, respondWith_env, respondWith_pid, withArb_cfg, withArb_env, withArb_pid, withPid_cfg,
      withPid_env, withPid_pid, hagain]
    rfl
  | sensorRecover =>
    have hsafe : (respondWith (0x00#8 ++ 0#56) [] (recoverSensorSafe s)).sh.safe = true := recoverSensorSafe_safe s
    refine again_of_second h (exec_sensorRecover s) (recoverSensorSafe_outbox s) ?_
    rw [exec_sensorRecover, recoverSensorSafe_of_safe hsafe]
  | pidEnable en => cases Host.Outcome.next.inj h; cases en <;> exact ⟨_, rfl, rfl⟩
  | _ => cases Host.Outcome.next.inj h; exact ⟨_, rfl, rfl⟩

end

/-- Settles O58: the gates of the first run stay closed for the second, and what no gate guards is written the same again. -/
theorem repeatedCommandsAreIdempotent : Obligations.RepeatedCommandsAreIdempotent := by
  refine ⟨fun i s t hc hdecode hsensor hevents hbutton hheater h => ?others, fun s t => exec_sensorUpdate_again,
    fun s t hc h => ?button⟩
  case others =>
    obtain ⟨hsample, -⟩ := cfgWf_times hc
    exact exec_again hsample hdecode hsensor hevents hbutton hheater h
  case button =>
    obtain ⟨-, hrepeat, -⟩ := cfgWf_times hc
    exact exec_buttonPoll_again hrepeat h

end Sys2Proof.Machine
end

section
/-! The fields of a frame (30_encoding.md R45, R46), and each response's place for them (R50). -/

namespace Sys2Proof.Machine

/-- A field is the concatenation of the two parts it splits into. -/
theorem extractLsb'_eq_append_iff {w n k m : Nat} {f : BitVec w} {a : BitVec k} {b : BitVec m} :
    f.extractLsb' n (k + m) = a ++ b ↔ f.extractLsb' (n + m) k = a ∧ f.extractLsb' n m = b := by
  rw [← BitVec.extractLsb'_append_extractLsb'_eq_extractLsb' rfl]
  constructor
  · intro h
    have hhigh := congrArg (BitVec.extractLsb' m k) h
    have hlow := congrArg (BitVec.extractLsb' 0 m) h
    simp only [BitVec.extractLsb'_append_eq_left, BitVec.extractLsb'_append_eq_right] at hhigh hlow
    exact ⟨hhigh, hlow⟩
  · rintro ⟨rfl, rfl⟩
    rfl

theorem append_eq_iff {k m : Nat} {f : BitVec (k + m)} {a : BitVec k} {b : BitVec m} :
    a ++ b = f ↔ f.extractLsb' m k = a ∧ f.extractLsb' 0 m = b := by
  have h := extractLsb'_eq_append_iff (n := 0) (f := f) (a := a) (b := b)
  rw [BitVec.extractLsb'_eq_self, Nat.zero_add] at h
  rw [eq_comm, h]

/-- A field of one bit is that bit. -/
theorem extractLsb'_eq_bit_iff {w k : Nat} {f : BitVec w} {b : Bool} : f.extractLsb' k 1 = bit b ↔ f.getLsbD k = b := by
  have hget : (f.extractLsb' k 1).getLsbD 0 = f.getLsbD k := by simp
  rw [← hget, BitVec.eq_of_getLsbD_eq_iff]
  simp [bit]

section
variable {f : Frame}

theorem encodeN_eq_iff {o : BitVec 8} : encodeN o = f ↔ opcOf f = o ∧ f.extractLsb' 0 56 = 0#56 :=
  append_eq_iff

theorem encodeF_eq_iff {o : BitVec 8} {x : F32} :
    encodeF o x = f ↔ opcOf f = o ∧ f.extractLsb' 32 24 = 0#24 ∧ f.extractLsb' 0 32 = x := by
  rw [encodeF, append_eq_iff, extractLsb'_eq_append_iff, and_assoc]
  rfl

theorem encode_pidEnable_eq_iff {en : Bool} :
    encode (.pidEnable en) = f ↔ opcOf f = 0x23#8 ∧ f.extractLsb' 1 55 = 0#55 ∧ f.getLsbD 0 = en := by
  rw [encode, append_eq_iff, extractLsb'_eq_append_iff, extractLsb'_eq_bit_iff, and_assoc]
  rfl

theorem encode_heaterCheck_eq_iff {pwr : F32} {on : Bool} {cst : BitVec 2} :
    encode (.heaterCheck pwr on cst) = f ↔ opcOf f = 0x40#8 ∧ f.extractLsb' 35 21 = 0#21 ∧ f.extractLsb' 33 2 = cst ∧
      f.getLsbD 32 = on ∧ f.extractLsb' 0 32 = pwr := by
  rw [encode, append_eq_iff]
  simp only [extractLsb'_eq_append_iff, extractLsb'_eq_bit_iff, and_assoc]
  rfl

theorem encode_arbiterStep_eq_iff {ss hs : Bool} {spt tt : Tenths} :
    encode (.arbiterStep ss hs spt tt) = f ↔ opcOf f = 0x50#8 ∧ f.extractLsb' 34 22 = 0#22 ∧ f.getLsbD 33 = ss ∧
      f.getLsbD 32 = hs ∧ f.extractLsb' 16 16 = spt ∧ f.extractLsb' 0 16 = tt := by
  rw [encode, append_eq_iff]
  simp only [extractLsb'_eq_append_iff, extractLsb'_eq_bit_iff, and_assoc]
  rfl

/-- The zero bits below a zero status byte join it. -/
theorem zeros_of_status {m n : Nat} (hres : f.extractLsb' n m = 0#m) (hstatus : f.extractLsb' (n + m) 8 = 0x00#8) :
    f.extractLsb' n (8 + m) = 0#(8 + m) :=
  (extractLsb'_eq_append_iff.2 ⟨hstatus, hres⟩).trans BitVec.zero_append_zero

end

/-- Settles O7: a response is its status byte and its payload, which is taken apart from the top. -/
theorem responseFieldPositions : Obligations.ResponseFieldPositions := by
  refine ⟨?decode, ?pid, ?sample, ?safe, ?heater, ?arbiter, ?button, ?events, by decide⟩
  case decode =>
    intro err h t r
    have hr : 0x00#8 ++ (0#22 ++ errBits err ++ h ++ t) = r := rfl
    simp only [append_eq_iff, extractLsb'_eq_append_iff] at hr
    obtain ⟨hstatus, ⟨⟨hres, herr⟩, hh⟩, ht⟩ := hr
    exact ⟨hstatus, hres, herr, hh, ht⟩
  case pid =>
    intro out r
    have hr : 0x00#8 ++ (0#24 ++ out) = r := rfl
    simp only [append_eq_iff, extractLsb'_eq_append_iff] at hr
    obtain ⟨hstatus, hres, hout⟩ := hr
    exact ⟨zeros_of_status hres hstatus, hout⟩
  case sample =>
    intro h t r
    have hr : 0x00#8 ++ (0#24 ++ h ++ t) = r := rfl
    simp only [append_eq_iff, extractLsb'_eq_append_iff] at hr
    obtain ⟨hstatus, ⟨hres, hh⟩, ht⟩ := hr
    exact ⟨zeros_of_status hres hstatus, hh, ht⟩
  case safe =>
    intro b r
    have hr : 0x00#8 ++ (0#55 ++ bit b) = r := rfl
    simp only [append_eq_iff, extractLsb'_eq_append_iff, extractLsb'_eq_bit_iff] at hr
    obtain ⟨hstatus, hres, hb⟩ := hr
    exact ⟨zeros_of_status hres hstatus, hb⟩
  case heater =>
    intro b cnt r
    have hr : 0x00#8 ++ (0#23 ++ bit b ++ cnt) = r := rfl
    simp only [append_eq_iff, extractLsb'_eq_append_iff, extractLsb'_eq_bit_iff] at hr
    obtain ⟨hstatus, ⟨hres, hb⟩, hcnt⟩ := hr
    exact ⟨zeros_of_status hres hstatus, hb, hcnt⟩
  case arbiter =>
    intro st b duty r
    have hr : 0x00#8 ++ (0#21 ++ arbBits st ++ bit b ++ duty) = r := rfl
    simp only [append_eq_iff, extractLsb'_eq_append_iff, extractLsb'_eq_bit_iff] at hr
    obtain ⟨hstatus, ⟨⟨hres, hst⟩, hb⟩, hduty⟩ := hr
    exact ⟨zeros_of_status hres hstatus, hst, hb, hduty⟩
  case button =>
    intro b sp r
    have hr : 0x00#8 ++ (0#23 ++ bit b ++ 0#16 ++ sp) = r := rfl
    simp only [append_eq_iff, extractLsb'_eq_append_iff, extractLsb'_eq_bit_iff] at hr
    obtain ⟨hstatus, ⟨⟨hres, hb⟩, hgap⟩, hsp⟩ := hr
    exact ⟨zeros_of_status hres hstatus, hb, hgap, hsp⟩
  case events =>
    intro v r
    have hr : 0x00#8 ++ (0#52 ++ v) = r := rfl
    simp only [append_eq_iff, extractLsb'_eq_append_iff] at hr
    obtain ⟨hstatus, hres, hv⟩ := hr
    exact ⟨zeros_of_status hres hstatus, hv⟩

end Sys2Proof.Machine
end

section
/-! The decoder and the encoder (30_encoding.md R47 to R49): what a format reads, and that decoding and encoding undo each
other. -/

namespace Sys2Proof.Machine

section
variable {f : Frame} {i : Instr}

/-- What each format reads: its reserved bits are 0, and its fields are the command's operands (R45, R46). -/
theorem formatN_eq_some_iff {k : Instr} : formatN f k = some i ↔ f.extractLsb' 0 56 = 0#56 ∧ k = i := by
  rw [formatN, Option.ite_none_right_eq_some, Option.some.injEq]

theorem formatF_eq_some_iff {k : F32 → Instr} :
    formatF f k = some i ↔ f.extractLsb' 32 24 = 0#24 ∧ k (f.extractLsb' 0 32) = i := by
  rw [formatF, Option.ite_none_right_eq_some, Option.some.injEq]

theorem formatB_eq_some_iff {k : Bool → Instr} :
    formatB f k = some i ↔ f.extractLsb' 1 55 = 0#55 ∧ k (f.getLsbD 0) = i := by
  rw [formatB, Option.ite_none_right_eq_some, Option.some.injEq]

theorem formatH_eq_some_iff {k : F32 → Bool → BitVec 2 → Instr} : formatH f k = some i ↔
    f.extractLsb' 35 21 = 0#21 ∧ f.extractLsb' 33 2 ≠ 3#2 ∧
      k (f.extractLsb' 0 32) (f.getLsbD 32) (f.extractLsb' 33 2) = i := by
  rw [formatH, Option.ite_none_right_eq_some, Option.ite_none_left_eq_some, Option.some.injEq]

theorem formatA_eq_some_iff {k : Bool → Bool → Tenths → Tenths → Instr} : formatA f k = some i ↔
    f.extractLsb' 34 22 = 0#22 ∧ k (f.getLsbD 33) (f.getLsbD 32) (f.extractLsb' 16 16) (f.extractLsb' 0 16) = i := by
  rw [formatA, Option.ite_none_right_eq_some, Option.some.injEq]

/-- A format names no command when a reserved bit of it is 1; format H names none for CST = 3 either (R49 b, c). -/
theorem format_eq_none_iff :
    (∀ k, formatN f k = none ↔ reservedBitSet f .n) ∧ (∀ k, formatF f k = none ↔ reservedBitSet f .f) ∧
    (∀ k, formatB f k = none ↔ reservedBitSet f .b) ∧ (∀ k, formatA f k = none ↔ reservedBitSet f .a) ∧
    ∀ k, formatH f k = none ↔ reservedBitSet f .h ∨ f.extractLsb' 33 2 = 3#2 := by
  simp [formatN, formatF, formatB, formatH, formatA, reservedBitSet, imp_iff_not_or]

/-- The command a frame names is well-formed, and the frame is its encoding. -/
theorem decode_eq_some (h : decode f = some i) : i.wf = true ∧ encode i = f := by
  unfold decode at h
  split at h -- the opcodes in the map's order: formats N, F, B, H and A, then every other one
  case h_1 hopc | h_4 hopc | h_9 hopc | h_10 hopc | h_11 hopc | h_13 hopc | h_15 hopc | h_16 hopc =>
    obtain ⟨hres, rfl⟩ := formatN_eq_some_iff.1 h
    exact ⟨rfl, encodeN_eq_iff.2 ⟨hopc, hres⟩⟩
  case h_2 hopc | h_3 hopc | h_6 hopc | h_7 hopc | h_8 hopc =>
    obtain ⟨hres, rfl⟩ := formatF_eq_some_iff.1 h
    exact ⟨rfl, encodeF_eq_iff.2 ⟨hopc, hres, rfl⟩⟩
  case h_5 hopc =>
    obtain ⟨hres, rfl⟩ := formatB_eq_some_iff.1 h
    exact ⟨rfl, encode_pidEnable_eq_iff.2 ⟨hopc, hres, rfl⟩⟩
  case h_12 hopc =>
    obtain ⟨hres, hcst, rfl⟩ := formatH_eq_some_iff.1 h
    exact ⟨bne_iff_ne.2 hcst, encode_heaterCheck_eq_iff.2 ⟨hopc, hres, rfl, rfl, rfl⟩⟩
  case h_14 hopc =>
    obtain ⟨hres, rfl⟩ := formatA_eq_some_iff.1 h
    exact ⟨rfl, encode_arbiterStep_eq_iff.2 ⟨hopc, hres, rfl, rfl, rfl, rfl⟩⟩
  case h_17 => cases h

theorem decode_encode (h : i.wf = true) : decode (encode i) = some i := by
  cases i with
  | pidCompute arg | pidSetSetpoint arg | pidSetKp arg | pidSetKi arg | pidSetKd arg =>
    obtain ⟨hopc, hres, harg⟩ := encodeF_eq_iff.1 (rfl : encodeF _ arg = _)
    rw [decode, encode, hopc]
    exact formatF_eq_some_iff.2 ⟨hres, congrArg _ harg⟩
  | pidEnable en =>
    obtain ⟨hopc, hres, hen⟩ := encode_pidEnable_eq_iff.1 (rfl : encode (.pidEnable en) = _)
    rw [decode, hopc]
    exact formatB_eq_some_iff.2 ⟨hres, congrArg _ hen⟩
  | heaterCheck pwr on cst =>
    obtain ⟨hopc, hres, hcst, hon, hpwr⟩ := encode_heaterCheck_eq_iff.1 (rfl : encode (.heaterCheck pwr on cst) = _)
    rw [decode, hopc]
    refine formatH_eq_some_iff.2 ⟨hres, ?_, ?_⟩
    · rw [hcst]; exact bne_iff_ne.1 h
    · rw [hcst, hon, hpwr]
  | arbiterStep ss hs spt tt =>
    obtain ⟨hopc, hres, hss, hhs, hspt, htt⟩ := encode_arbiterStep_eq_iff.1 (rfl : encode (.arbiterStep ss hs spt tt) = _)
    rw [decode, hopc]
    refine formatA_eq_some_iff.2 ⟨hres, ?_⟩
    rw [hss, hhs, hspt, htt]
  | _ => rfl

end

/-- Settles O1: the fields the encoder writes are those the decoder reads. -/
theorem decodeOfEncodeIsTheCommand : Obligations.DecodeOfEncodeIsTheCommand := fun _ => decode_encode

/-- Settles O2: the decoder reads every field, and leaves out zeros only. -/
theorem encodeOfDecodeIsTheFrame : Obligations.EncodeOfDecodeIsTheFrame := fun _ _ => decode_eq_some

/-- Settles O5. -/
theorem wordsOfTheTestVectorsDecode : Obligations.WordsOfTheTestVectorsDecode := by
  unfold Obligations.WordsOfTheTestVectorsDecode
  decide

end Sys2Proof.Machine
end

section
/-! The opcode map (30_encoding.md R47, R49): what selects a row, and when the row's format names no command. -/

namespace Sys2Proof.Machine

/-- A mask that keeps the opcode and the `m` reserved bits below it compares just these; the reserved bits as `reservedBitSet`
has them. -/
theorem masked_eq_iff {m n : Nat} {f : BitVec (8 + m + n)} {o : BitVec 8} :
    f &&& (BitVec.allOnes (8 + m) ++ 0#n) = o ++ 0#m ++ 0#n ↔
      f.extractLsb' (n + m) 8 = o ∧ ¬f.extractLsb' n m ≠ 0#m := by
  rw [Laws.OpcodeByte.and_high, BitVec.append_left_inj, extractLsb'_eq_append_iff, not_not]

/-- The mask of a format (R47): the opcode and the reserved bits. -/
def formatMask : Format → Frame
  | .n => BitVec.allOnes (8 + 56) ++ 0#0
  | .f => BitVec.allOnes (8 + 24) ++ 0#32
  | .b => BitVec.allOnes (8 + 55) ++ 0#1
  | .h => BitVec.allOnes (8 + 21) ++ 0#35
  | .a => BitVec.allOnes (8 + 22) ++ 0#34

/-- The match of a format and an opcode (R47): every reserved and operand bit 0. -/
def formatMatch (o : BitVec 8) : Format → Frame
  | .n => o ++ 0#56 ++ 0#0
  | .f => o ++ 0#24 ++ 0#32
  | .b => o ++ 0#55 ++ 0#1
  | .h => o ++ 0#21 ++ 0#35
  | .a => o ++ 0#22 ++ 0#34

theorem opcodeMap_columns :
    ∀ r ∈ opcodeMap, r.maskBits = formatMask r.format ∧ r.matchBits = formatMatch r.opc r.format := by
  decide

theorem and_formatMask_eq_iff (f : Frame) (o : BitVec 8) (t : Format) :
    f &&& formatMask t = formatMatch o t ↔ opcOf f = o ∧ ¬reservedBitSet f t := by
  cases t with
  | n => exact masked_eq_iff (m := 56) (n := 0)
  | f => exact masked_eq_iff (m := 24) (n := 32)
  | b => exact masked_eq_iff (m := 55) (n := 1)
  | h => exact masked_eq_iff (m := 21) (n := 35)
  | a => exact masked_eq_iff (m := 22) (n := 34)

/-- A frame selects a row when it has the row's opcode and no reserved bit of the row's format is 1. -/
theorem row_selectedBy_iff {f : Frame} {r : OpcodeRow} (h : r ∈ opcodeMap) :
    r.selectedBy f = true ↔ opcOf f = r.opc ∧ ¬reservedBitSet f r.format := by
  obtain ⟨hmask, hmatch⟩ := opcodeMap_columns r h
  rw [OpcodeRow.selectedBy, beq_iff_eq, hmask, hmatch, and_formatMask_eq_iff]

theorem row_eq_of_opc : ∀ r ∈ opcodeMap, ∀ r' ∈ opcodeMap, r.opc = r'.opc → r = r' := by decide

/-- Every command's frame selects the row of its mnemonic. -/
theorem encode_row (i : Instr) : Laws.OpcodeByte.Statement i :=
  match i with
  | .decodeSample => Laws.OpcodeByte.decodeSample
  | .pidCompute arg => Laws.OpcodeByte.pidCompute arg
  | .pidSetSetpoint arg => Laws.OpcodeByte.pidSetSetpoint arg
  | .pidReset => Laws.OpcodeByte.pidReset
  | .pidEnable en => Laws.OpcodeByte.pidEnable en
  | .pidSetKp arg => Laws.OpcodeByte.pidSetKp arg
  | .pidSetKi arg => Laws.OpcodeByte.pidSetKi arg
  | .pidSetKd arg => Laws.OpcodeByte.pidSetKd arg
  | .sensorUpdate => Laws.OpcodeByte.sensorUpdate
  | .sensorIsSafe => Laws.OpcodeByte.sensorIsSafe
  | .sensorRecover => Laws.OpcodeByte.sensorRecover
  | .heaterCheck pwr on cst => Laws.OpcodeByte.heaterCheck pwr on cst
  | .heaterReset => Laws.OpcodeByte.heaterReset
  | .arbiterStep ss hs spt tt => Laws.OpcodeByte.arbiterStep ss hs spt tt
  | .buttonPoll => Laws.OpcodeByte.buttonPoll
  | .eventsRead => Laws.OpcodeByte.eventsRead

section
variable {f : Frame}

/-- On a listed opcode the decoder is the format of its row. -/
theorem decode_eq_none_iff_of_row : ∀ r ∈ opcodeMap, opcOf f = r.opc →
    (decode f = none ↔ reservedBitSet f r.format ∨ (opcOf f = 0x40#8 ∧ f.extractLsb' 33 2 = 3#2)) := by
  simp only [opcodeMap, List.cons_append, List.nil_append, List.forall_mem_cons, List.not_mem_nil,
    false_implies, implies_true, and_true]
  and_intros <;> (intro hopc; rw [decode, hopc]; simp [format_eq_none_iff])

theorem row_of_decode_eq_some {i : Instr} (h : decode f = some i) :
    ∃ r ∈ opcodeMap, r.selectedBy f = true ∧ r.mnemonic = mnemonicOf i := by
  obtain ⟨-, rfl⟩ := decode_eq_some h
  obtain ⟨r, hr, hname, hsel, -⟩ := encode_row i
  exact ⟨r, hr, hsel, hname⟩

theorem decode_eq_none_of_unselected (h : ∀ r ∈ opcodeMap, r.selectedBy f = false) : decode f = none := by
  refine Option.eq_none_iff_forall_ne_some.2 fun i hi => ?_
  obtain ⟨r, hr, hsel, -⟩ := row_of_decode_eq_some hi
  rw [h r hr] at hsel
  cases hsel

theorem decode_eq_none_of_no_row (h : ∀ r ∈ opcodeMap, r.opc ≠ opcOf f) : decode f = none :=
  decode_eq_none_of_unselected fun r hr => Bool.eq_false_iff.2 fun hsel =>
    h r hr ((row_selectedBy_iff hr).1 hsel).1.symm

theorem decode_eq_none_iff : decode f = none ↔
    (∀ r ∈ opcodeMap, r.opc ≠ opcOf f) ∨ (∃ r ∈ opcodeMap, r.opc = opcOf f ∧ reservedBitSet f r.format) ∨
    (opcOf f = 0x40#8 ∧ f.extractLsb' 33 2 = 3#2) := by
  by_cases hlisted : ∀ r ∈ opcodeMap, r.opc ≠ opcOf f
  · exact iff_of_true (decode_eq_none_of_no_row hlisted) (.inl hlisted)
  · obtain ⟨r, hr, hopc⟩ : ∃ r ∈ opcodeMap, r.opc = opcOf f := by simpa using hlisted
    have hres : (∃ r' ∈ opcodeMap, r'.opc = opcOf f ∧ reservedBitSet f r'.format) ↔ reservedBitSet f r.format := by
      refine ⟨fun ⟨r', hr', hopc', h⟩ => ?_, fun h => ⟨r, hr, hopc, h⟩⟩
      rwa [row_eq_of_opc r hr r' hr' (hopc.trans hopc'.symm)]
    rw [decode_eq_none_iff_of_row r hr hopc.symm, hres, or_iff_right hlisted]

theorem rows_eq_of_selectedBy {r r' : OpcodeRow} (hr : r ∈ opcodeMap) (hr' : r' ∈ opcodeMap) (h : r.selectedBy f = true)
    (h' : r'.selectedBy f = true) : r = r' :=
  row_eq_of_opc r hr r' hr' (((row_selectedBy_iff hr).1 h).1.symm.trans ((row_selectedBy_iff hr').1 h').1)

theorem heaterCheck_row_iff : ∀ r ∈ opcodeMap, r.mnemonic = "HEATER_CHECK" ↔ r.opc = 0x40#8 := by decide

theorem decode_eq_none_iff_of_selectedBy {r : OpcodeRow} (hr : r ∈ opcodeMap) (h : r.selectedBy f = true) :
    decode f = none ↔ r.mnemonic = "HEATER_CHECK" ∧ f.extractLsb' 33 2 = 3#2 := by
  obtain ⟨hopc, hres⟩ := (row_selectedBy_iff hr).1 h
  rw [decode_eq_none_iff_of_row r hr hopc, heaterCheck_row_iff r hr, hopc, or_iff_right hres]

end

/-- Settles O4: a listed opcode has one row, and its format decides. -/
theorem illegalFramesAreTheThreeCases : Obligations.IllegalFramesAreTheThreeCases :=
  ⟨fun _ => decode_eq_none_iff, by decide⟩

/-- Settles O3: a named command's frame is its encoding, which selects its row; and a frame that selects a row meets the row's
format. -/
theorem decodeFollowsTheOpcodeMap : Obligations.DecodeFollowsTheOpcodeMap := by
  intro f
  refine ⟨fun _ => row_of_decode_eq_some, ⟨fun h => ?_, ?_⟩, fun _ hr _ hr' => rows_eq_of_selectedBy hr hr',
    decode_eq_none_of_no_row⟩
  · by_cases hsel : ∃ r ∈ opcodeMap, r.selectedBy f = true
    · obtain ⟨r, hr, hsel⟩ := hsel
      obtain ⟨hname, hcst⟩ := (decode_eq_none_iff_of_selectedBy hr hsel).1 h
      exact .inr ⟨r, hr, hname, hsel, hcst⟩
    · exact .inl fun r hr => Bool.eq_false_iff.2 fun h => hsel ⟨r, hr, h⟩
  · rintro (hnone | ⟨r, hr, hname, hsel, hcst⟩)
    · exact decode_eq_none_of_unselected hnone
    · exact (decode_eq_none_iff_of_selectedBy hr hsel).2 ⟨hname, hcst⟩

end Sys2Proof.Machine
end

section
/-! The step on a legal frame (30_encoding.md R48). -/

namespace Sys2Proof.Machine

theorem step_of_frame {s : State} {f : Frame} {e : Env} {rest : List Delivery} {i : Instr} (hc : cfgWf s.cfg = true)
    (hi : s.inbox = ⟨bytesOfFrame f, e⟩ :: rest) (hd : decode f = some i) :
    step s = exec i { s with inbox := rest, env := e } := by
  rw [step_of_delivery hc hi, runDelivery, frameOfBytes_bytesOfFrame]
  simp only [hd]
  rfl

/-- Settles O9. -/
theorem stepRunsTheDecodedCommand : Obligations.StepRunsTheDecodedCommand := by
  intro s f e rest i hc hi hd
  refine ⟨step_of_frame hc hi hd, fun e' => ?_⟩
  rw [step_of_frame hc hi hd, step_of_frame (s := { s with env := e' }) hc hi hd]

end Sys2Proof.Machine
end

section
/-! The assembler's lines (30_encoding.md R52): a line's text comes apart into its mnemonic and operands. -/

namespace Sys2Proof.Machine

section
variable {t : List Char} {sep : Char}

theorem splitText_of_not_mem (h : sep ∉ t) : splitText sep t = [t] := by
  induction t with
  | nil => rfl
  | cons c cs ih =>
    rw [List.mem_cons, not_or] at h
    obtain ⟨hc, hcs⟩ := h
    rw [splitText, if_neg (Ne.symm hc), ih hcs]

theorem splitText_append (h : sep ∉ t) (u : List Char) : splitText sep (t ++ sep :: u) = t :: splitText sep u := by
  induction t with
  | nil => exact if_pos rfl
  | cons c cs ih =>
    rw [List.mem_cons, not_or] at h
    obtain ⟨hc, hcs⟩ := h
    rw [List.cons_append, splitText, if_neg (Ne.symm hc), ih hcs]

/-- A character that is no separator opens the first part. -/
theorem splitText_cons {c : Char} (h : c ≠ sep) (t : List Char) :
    ∃ w ws, splitText sep t = w :: ws ∧ splitText sep (c :: t) = (c :: w) :: ws := by
  have hne : splitText sep t ≠ [] := by
    cases t with
    | nil => exact List.cons_ne_nil _ _
    | cons d ds =>
      rw [splitText]
      split
      · exact List.cons_ne_nil _ _
      · split <;> exact List.cons_ne_nil _ _
  obtain ⟨w, ws, hw⟩ := List.exists_cons_of_ne_nil hne
  exact ⟨w, ws, hw, by rw [splitText, if_neg h, hw]⟩

/-- Text that begins and ends with something but a space. -/
def Trimmed (t : List Char) : Prop := t ≠ [] ∧ t.head? ≠ some ' ' ∧ t.getLast? ≠ some ' '

theorem Trimmed.append {u : List Char} (ht : Trimmed t) (hu : Trimmed u) (between : List Char) :
    Trimmed (t ++ between ++ u) := by
  obtain ⟨htne, hhead, -⟩ := ht
  obtain ⟨hune, -, hlast⟩ := hu
  refine ⟨?_, ?_, ?_⟩
  · exact List.append_ne_nil_of_right_ne_nil _ hune
  · rwa [List.append_assoc, List.head?_append_of_ne_nil _ htne]
  · rwa [List.getLast?_append_of_ne_nil _ hune]

theorem trimmed_of_plain (h : plainText t) : Trimmed t := by
  obtain ⟨hne, hspace, -⟩ := h
  exact ⟨hne, fun hh => hspace (List.mem_of_head? hh), fun hh => hspace (List.mem_of_getLast? hh)⟩

theorem trimText_of_trimmed (h : Trimmed t) : trimText t = t := by
  have hdrop : ∀ u : List Char, u.head? ≠ some ' ' → u.dropWhile (· = ' ') = u := by
    intro u hu
    cases u with
    | nil => rfl
    | cons c cs => exact List.dropWhile_cons_of_neg (by simpa using hu)
  obtain ⟨-, hhead, hlast⟩ := h
  rw [trimText, hdrop t hhead, hdrop t.reverse (by rwa [List.head?_reverse]), List.reverse_reverse]

theorem trimText_space (t : List Char) : trimText (' ' :: t) = trimText t := by
  rw [trimText, List.dropWhile_cons_of_pos (by decide), trimText]

/-- A space before the first part is trimmed off it. -/
theorem map_trimText_splitText_space (h : ' ' ≠ sep) (t : List Char) :
    (splitText sep (' ' :: t)).map trimText = (splitText sep t).map trimText := by
  obtain ⟨w, ws, hw, hspace⟩ := splitText_cons h t
  rw [hw, hspace, List.map_cons, List.map_cons, trimText_space]

end

section
variable {ops : List (List Char)}

theorem operandsText_cons (a : List Char) (h : ops ≠ []) :
    operandsText (a :: ops) = a ++ [',', ' '] ++ operandsText ops := by
  cases ops with
  | nil => exact absurd rfl h
  | cons b bs => exact (List.append_assoc a [',', ' '] _).symm

theorem trimmed_operandsText (hne : ops ≠ []) (hops : ∀ a ∈ ops, plainText a) : Trimmed (operandsText ops) := by
  induction ops with
  | nil => exact absurd rfl hne
  | cons a rest ih =>
    obtain ⟨ha, hplain⟩ := List.forall_mem_cons.1 hops
    by_cases hr : rest = []
    · subst hr
      exact trimmed_of_plain ha
    · rw [operandsText_cons a hr]
      exact (trimmed_of_plain ha).append (ih hr hplain) _

theorem splitText_operandsText (hne : ops ≠ []) (hops : ∀ a ∈ ops, plainText a) :
    (splitText ',' (operandsText ops)).map trimText = ops := by
  induction ops with
  | nil => exact absurd rfl hne
  | cons a rest ih =>
    obtain ⟨ha, hplain⟩ := List.forall_mem_cons.1 hops
    have htrim : trimText a = a := trimText_of_trimmed (trimmed_of_plain ha)
    obtain ⟨-, -, hcomma⟩ := ha
    by_cases hr : rest = []
    · subst hr
      rw [operandsText, splitText_of_not_mem hcomma, List.map_singleton, htrim]
    · have hsplit := splitText_append hcomma (' ' :: operandsText rest)
      rw [operandsText_cons a hr, List.append_assoc, List.cons_append, List.cons_append, List.nil_append, hsplit,
        List.map_cons, htrim, map_trimText_splitText_space (by decide), ih hr hplain]

/-- The first space ends the mnemonic, and the commas part the operands. -/
theorem assembleLine_lineText {m : List Char} (hm : plainText m) (hops : ∀ a ∈ ops, plainText a) :
    assembleLine (lineText m ops) = assembleWords m ops := by
  have ⟨_, hspace, _⟩ := hm
  have hword : ∀ c ∈ m, decide (c ≠ ' ') = true := fun c hc => decide_eq_true fun h => hspace (h ▸ hc)
  by_cases hne : ops = []
  · subst hne
    have hm' : trimText m = m := trimText_of_trimmed (trimmed_of_plain hm)
    have htake : m.takeWhile (· ≠ ' ') = m := List.takeWhile_eq_self_iff.2 hword
    simp only [assembleLine, lineText, if_pos, hm', htake, List.drop_length]
    rfl
  · have htrim := trimmed_operandsText hne hops
    have hline := trimText_of_trimmed ((trimmed_of_plain hm).append htrim [' '])
    have htake : (m ++ [' '] ++ operandsText ops).takeWhile (· ≠ ' ') = m := by
      rw [List.append_assoc, List.takeWhile_append_of_pos hword]
      simp
    have hlineText : lineText m ops = m ++ [' '] ++ operandsText ops := by
      rw [lineText, if_neg hne, List.append_assoc]
      rfl
    have ⟨hrest, _⟩ := htrim
    simp only [assembleLine, hlineText, hline, htake]
    rw [List.append_assoc, List.drop_left, List.singleton_append, trimText_space, trimText_of_trimmed htrim,
      if_neg hrest, splitText_operandsText hne hops]
end

end Sys2Proof.Machine
end

section
/-! The commands that words spell (30_encoding.md R52). -/

namespace Sys2Proof.Machine

theorem wf_of_assembleN {m : List Char} {i : Instr} (h : assembleN m = some i) : i.wf = true := by
  have hall : ∀ j ∈ [Instr.decodeSample, .pidReset, .sensorUpdate, .sensorIsSafe, .sensorRecover, .heaterReset, .buttonPoll,
      .eventsRead], j.wf = true := by decide
  exact hall i (List.mem_of_find?_eq_some h)

theorem wf_of_assembleF {m : List Char} {x : F32} {i : Instr} (h : assembleF m x = some i) : i.wf = true := by
  have hmem := List.mem_of_find?_eq_some h
  simp only [List.mem_cons, List.not_mem_nil, or_false] at hmem
  obtain rfl | rfl | rfl | rfl | rfl := hmem <;> rfl

/-- CST = 3 has no spelling. -/
theorem parseStatus_ne {t : List Char} {cst : BitVec 2} (h : parseStatus t = some cst) : cst ≠ 3#2 := by
  rintro rfl
  rw [parseStatus] at h
  split_ifs at h <;> simp at h

theorem wf_of_assembleHeater {p o c : List Char} {i : Instr} (h : assembleHeater p o c = some i) : i.wf = true := by
  rw [assembleHeater] at h
  split at h
  · next cst _ _ hcst =>
    cases h
    exact bne_iff_ne.2 (parseStatus_ne hcst)
  · cases h

theorem wf_of_assembleArbiter {t sp ss hs : List Char} {i : Instr} (h : assembleArbiter t sp ss hs = some i) :
    i.wf = true := by
  rw [assembleArbiter] at h
  split at h <;> cases h
  rfl

theorem forall_of_map_singleton {o : Option Instr} {is : List Instr} (h : o.map ([·]) = some is) {P : Instr → Prop}
    (hP : ∀ i, o = some i → P i) : ∀ i ∈ is, P i := by
  obtain ⟨j, hj, rfl⟩ := Option.map_eq_some_iff.1 h
  exact List.forall_mem_singleton.2 (hP j hj)

/-- CST is the one operand a command can be ill-formed by, and it is read from a status text. -/
theorem wf_of_assembleWords {m : List Char} {ops : List (List Char)} {is : List Instr} (h : assembleWords m ops = some is) :
    ∀ i ∈ is, i.wf = true := by
  unfold assembleWords at h
  split at h
  · exact forall_of_map_singleton h fun _ => wf_of_assembleN
  · split at h
    · obtain ⟨b, -, rfl⟩ := Option.map_eq_some_iff.1 h
      exact List.forall_mem_singleton.2 rfl
    · refine forall_of_map_singleton h fun i hi => ?_
      obtain ⟨x, -, hx⟩ := Option.bind_eq_some_iff.1 hi
      exact wf_of_assembleF hx
  · split at h
    · exact forall_of_map_singleton h fun _ => wf_of_assembleHeater
    · split at h
      · split at h
        · cases h
          simp [pidSetGains, Instr.wf]
        · cases h
      · cases h
  · split at h
    · exact forall_of_map_singleton h fun _ => wf_of_assembleArbiter
    · cases h
  · cases h

theorem keyed_text (key : String) (t : List Char) : keyed key (key.toList ++ '=' :: t) = some t := by
  have hlen : key.length + 1 = (key.toList ++ ['=']).length := by
    rw [List.length_append, String.length_toList]; rfl
  rw [keyed, List.append_cons, hlen, List.take_left, List.drop_left, if_pos rfl]

theorem assembleWords_noOperand : ∀ i ∈ [Instr.decodeSample, .pidReset, .sensorUpdate, .sensorIsSafe, .sensorRecover,
    .heaterReset, .buttonPoll, .eventsRead], assembleWords (mnemonicOf i).toList [] = some [i] := by
  decide

theorem assembleWords_float {a : List Char} {x : F32} (h : parseF32 a = some x) :
    ∀ k ∈ [Instr.pidCompute, .pidSetSetpoint, .pidSetKp, .pidSetKi, .pidSetKd],
      assembleWords (mnemonicOf (k x)).toList [a] = some [k x] := by
  simp [assembleWords, assembleF, mnemonicOf, h]

theorem assembleWords_heaterCheck {p o c : List Char} {pwr : F32} {on : Bool} {cst : BitVec 2} (hp : parseF32 p = some pwr)
    (ho : parseOnOff o = some on) (hc : parseStatus c = some cst) :
    assembleWords "HEATER_CHECK".toList [p, o, c] = some [.heaterCheck pwr on cst] := by
  simp [assembleWords, assembleHeater, hp, ho, hc]

theorem assembleWords_arbiterStep {t sp ss hs : List Char} {tt spt : Tenths} {s h : Bool} (ht : parseInt16 t = some tt)
    (hsp : parseInt16 sp = some spt) (hss : parseBit ss = some s) (hhs : parseBit hs = some h) :
    assembleWords "ARBITER_STEP".toList ["t=".toList ++ t, "sp=".toList ++ sp, "ss=".toList ++ ss, "hs=".toList ++ hs] =
      some [.arbiterStep s h spt tt] := by
  have ht' : keyed "t" ("t=".toList ++ t) = some t := keyed_text "t" t
  have hsp' : keyed "sp" ("sp=".toList ++ sp) = some sp := keyed_text "sp" sp
  have hss' : keyed "ss" ("ss=".toList ++ ss) = some ss := keyed_text "ss" ss
  have hhs' : keyed "hs" ("hs=".toList ++ hs) = some hs := keyed_text "hs" hs
  rw [assembleWords, if_pos rfl, assembleArbiter, ht', hsp', hss', hhs']
  simp only [Option.bind_some, ht, hsp, hss, hhs, Option.map_some]

theorem assembleWords_pidSetGains {a b c : List Char} {kp ki kd : F32} (ha : parseF32 a = some kp)
    (hb : parseF32 b = some ki) (hc : parseF32 c = some kd) :
    assembleWords "PID_SET_GAINS".toList [a, b, c] = some [.pidSetKp kp, .pidSetKi ki, .pidSetKd kd] := by
  simp [assembleWords, ha, hb, hc, pidSetGains]

end Sys2Proof.Machine
end

section
/-! The assembler's operand texts (30_encoding.md R52): integers, decimal literals and raw bits. -/

namespace Sys2Proof.Machine

/-- Characters that each read as a digit's value read as the number of these digits. -/
theorem digitsFrom_map {α : Type} {base : Nat} {value : Char → Option Nat} {char : α → Char} {num : α → Nat}
    (h : ∀ d, value (char d) = some (num d)) (ds : List α) (acc : Nat) :
    digitsFrom base value acc (ds.map char) = some ((ds.map num).foldl (fun n d => base * n + d) acc) := by
  induction ds generalizing acc with
  | nil => rfl
  | cons d ds ih => rw [List.map_cons, digitsFrom, h]; exact ih _

/-- What stands before digits counts as many places as these are. -/
theorem foldl_digits (base acc : Nat) (ds : List Nat) :
    ds.foldl (fun n d => base * n + d) acc = acc * base ^ ds.length + digitsNumber base ds := by
  unfold digitsNumber
  induction ds generalizing acc with
  | nil => simp
  | cons d ds ih =>
    rw [List.foldl_cons, List.foldl_cons, ih, ih (base * 0 + d), List.length_cons]
    ring

theorem digitsNumber_append (base : Nat) (ds es : List Nat) :
    digitsNumber base (ds ++ es) = digitsNumber base ds * base ^ es.length + digitsNumber base es := by
  rw [digitsNumber, List.foldl_append]
  exact foldl_digits base _ es

theorem digitValue_digit (d : Fin 10) : digitValue (Char.ofNat ('0'.toNat + d.val)) = some d.val := by
  revert d
  decide

theorem hexValue_digit (upper : Bool) (d : Fin 16) : hexValue (Char.ofNat (if d.val < 10 then '0'.toNat + d.val
    else (if upper then 'A'.toNat else 'a'.toNat) + (d.val - 10))) = some d.val := by
  revert upper d
  decide

section
variable {ws fs : List (Fin 10)}

theorem parseNat_decimalText (h : ws ≠ []) : parseNat (decimalText ws) = some (digitsNumber 10 (ws.map Fin.val)) := by
  have hne : decimalText ws ≠ [] := fun hnil => h (List.map_eq_nil_iff.1 hnil)
  rw [parseNat, if_neg hne]
  exact digitsFrom_map digitValue_digit ws 0

theorem not_mem_decimalText {c : Char} (h : digitValue c = none) (ws : List (Fin 10)) : c ∉ decimalText ws := by
  intro hc
  obtain ⟨d, -, rfl⟩ := List.mem_map.1 hc
  rw [digitValue_digit] at h
  cases h

theorem parseDecimal_whole (h : ws ≠ []) :
    parseDecimal (decimalText ws) = some (digitsNumber 10 (ws.map Fin.val), 1) := by
  rw [parseDecimal, splitText_of_not_mem (not_mem_decimalText (by decide) ws)]
  simp only [parseNat_decimalText h, Option.map_some]

theorem parseDecimal_point (hws : ws ≠ []) (hfs : fs ≠ []) : parseDecimal (decimalText ws ++ '.' :: decimalText fs) =
    some (digitsNumber 10 ((ws ++ fs).map Fin.val), 10 ^ fs.length) := by
  have hpoint : ∀ ds, '.' ∉ decimalText ds := not_mem_decimalText (by decide)
  have hlength : (decimalText fs).length = fs.length := List.length_map _
  rw [parseDecimal, splitText_append (hpoint ws), splitText_of_not_mem (hpoint fs)]
  simp only [parseNat_decimalText hws, parseNat_decimalText hfs, hlength, List.map_append, digitsNumber_append,
    List.length_map]

end

theorem takeSign_signText {t : List Char} (h : '-' ∉ t) (neg : Bool) : takeSign (signText neg ++ t) = (neg, t) := by
  cases neg with
  | true => rfl
  | false =>
    change takeSign t = (false, t)
    unfold takeSign
    split
    · exact absurd List.mem_cons_self h
    · rfl

theorem parseInt16_signText {t : List Char} {n : Nat} (hsign : '-' ∉ t) (hn : parseNat t = some n) (neg : Bool) :
    parseInt16 (signText neg ++ t) =
      if -32768 ≤ signedMag neg n ∧ signedMag neg n ≤ 32767 then some (BitVec.ofInt 16 (signedMag neg n)) else none := by
  rw [parseInt16, takeSign_signText hsign, hn]

theorem parseF32_signText {t : List Char} {n d : Nat} (hsign : '-' ∉ t) (hn : parseDecimal t = some (n, d)) (neg : Bool) :
    parseF32 (signText neg ++ t) = some (f32Bits (f32Round neg (n * 2 ^ 149) d)) := by
  rw [parseF32, takeSign_signText hsign, hn]
  rfl

/-- Text that starts with neither a digit nor a point is no decimal literal. -/
theorem parseDecimal_eq_none {c : Char} (hdigit : digitValue c = none) (hpoint : c ≠ '.') (t : List Char) :
    parseDecimal (c :: t) = none := by
  obtain ⟨w, ws, -, hsplit⟩ := splitText_cons hpoint t
  have hnat : parseNat (c :: w) = none := by
    rw [parseNat, if_neg (List.cons_ne_nil _ _), digitsFrom, hdigit]
  rw [parseDecimal, hsplit]
  rcases ws with _ | ⟨u, _ | ⟨v, vs⟩⟩
  · simp only [hnat, Option.map_none]
  · simp only [hnat]
  · rfl

theorem parseRaw_raw (rest : List Char) : parseRaw ("raw(0x".toList ++ rest) =
    if rest.length = 9 ∧ rest.getLast? = some ')' then (digitsFrom 16 hexValue 0 (rest.take 8)).map (BitVec.ofNat 32)
    else none := rfl

theorem parseRaw_hexText (upper : Bool) {hs : List (Fin 16)} (h : hs.length = 8) :
    parseRaw ("raw(0x".toList ++ hexText upper hs ++ [')']) =
      some (BitVec.ofNat 32 (digitsNumber 16 (hs.map Fin.val))) := by
  have hlength : (hexText upper hs).length = 8 := (List.length_map _).trans h
  have hdigits : digitsFrom 16 hexValue 0 (hexText upper hs) = some (digitsNumber 16 (hs.map Fin.val)) :=
    digitsFrom_map (hexValue_digit upper) hs 0
  have htake : (hexText upper hs ++ [')']).take 8 = hexText upper hs := by rw [← hlength, List.take_left]
  have hwhole : (hexText upper hs ++ [')']).length = 9 := by rw [List.length_append, hlength]; rfl
  rw [List.append_assoc, parseRaw_raw, if_pos ⟨hwhole, List.getLast?_concat⟩, htake, hdigits]
  rfl

theorem parseF32_raw (upper : Bool) {hs : List (Fin 16)} (h : hs.length = 8) :
    parseF32 ("raw(0x".toList ++ hexText upper hs ++ [')']) =
      some (BitVec.ofNat 32 (digitsNumber 16 (hs.map Fin.val))) := by
  have hsign : takeSign ("raw(0x".toList ++ hexText upper hs ++ [')']) =
      (false, "raw(0x".toList ++ hexText upper hs ++ [')']) := rfl
  have hnone : parseDecimal ("raw(0x".toList ++ hexText upper hs ++ [')']) = none :=
    parseDecimal_eq_none (by decide) (by decide) _
  rw [parseF32, hsign, hnone]
  exact parseRaw_hexText upper h

/-- Settles O8: a line comes apart into its words, each word is read by its own parser, and no parser reads CST = 3. -/
theorem assembledCommandsAreLegal : Obligations.AssembledCommandsAreLegal := by
  refine ⟨fun line is => wf_of_assembleWords, fun m ops => assembleLine_lineText, assembleWords_noOperand,
    fun k hk a x h => assembleWords_float h k hk, by decide, by decide, fun p pwr hp => ?heaterCheck,
    fun t tt sp spt ht hsp => ?arbiterStep, fun a b c kp ki kd => assembleWords_pidSetGains, ?whole, ?point,
    fun upper hs => parseF32_raw upper⟩
  case heaterCheck =>
    intro o ho st hst
    have hon : ∀ o ∈ [("on".toList, true), ("off".toList, false)], parseOnOff o.1 = some o.2 := by decide
    have hstatus : ∀ st ∈ [("ok".toList, 0#2), ("disc".toList, 1#2), ("ovv".toList, 2#2)],
      parseStatus st.1 = some st.2 := by decide
    exact assembleWords_heaterCheck hp (hon o ho) (hstatus st hst)
  case arbiterStep =>
    intro ss hss hs hhs
    have hbit : ∀ b ∈ [("0".toList, false), ("1".toList, true)], parseBit b.1 = some b.2 := by decide
    exact assembleWords_arbiterStep ht hsp (hbit ss hss) (hbit hs hhs)
  case whole =>
    intro neg ws hws n v
    have hsign := not_mem_decimalText (c := '-') (by decide) ws
    exact ⟨parseInt16_signText hsign (parseNat_decimalText hws) neg, parseF32_signText hsign (parseDecimal_whole hws) neg⟩
  case point =>
    intro neg ws fs hws hfs
    rw [List.append_assoc]
    refine parseF32_signText ?_ (parseDecimal_point hws hfs) neg
    have hsign : ∀ ds, '-' ∉ decimalText ds := not_mem_decimalText (by decide)
    simp [hsign]

end Sys2Proof.Machine
end

section
/-! The values of a sample's bytes (40_decoder.md R58, R59). -/

namespace Sys2Proof.Machine

/-- A pair of bytes is big-endian. -/
theorem toNat_append_byte (hi lo : Byte) : (hi ++ lo).toNat = 256 * hi.toNat + lo.toNat := by
  rw [BitVec.toNat_append, ← Nat.shiftLeft_add_eq_or_of_lt lo.isLt, Nat.shiftLeft_eq, Nat.mul_comm]

theorem temperatureMag_toNat (hi lo : Byte) : (temperatureMag hi lo).toNat = 256 * (hi.toNat % 128) + lo.toNat := by
  have hmask : (hi &&& 0x7F#8).toNat = hi.toNat % 128 := Nat.and_two_pow_sub_one_eq_mod hi.toNat 7
  rw [temperatureMag, toNat_append_byte, hmask]

/-- The magnitude has 15 bits, so it is its own value as a signed number. -/
theorem temperatureMag_toInt (hi lo : Byte) :
    (temperatureMag hi lo).toInt = (256 * (hi.toNat % 128) + lo.toNat : Nat) := by
  have hmag := temperatureMag_toNat hi lo
  have hlo := lo.isLt
  rw [BitVec.toInt_eq_toNat_of_lt (by omega), hmag]

theorem temperatureOf_toInt (hi lo : Byte) : (temperatureOf hi lo).toInt =
    if hi.toNat < 128 then ((256 * hi.toNat + lo.toNat : Nat) : Int)
    else -((256 * (hi.toNat - 128) + lo.toNat : Nat) : Int) := by
  have hmag := temperatureMag_toNat hi lo
  have hlo := lo.isLt
  have hhi := hi.isLt
  have hpositive : (temperatureMag hi lo).msb = false := by
    rw [BitVec.msb_eq_decide]
    exact decide_eq_false (by omega)
  have hsign : hi.msb = decide (128 ≤ hi.toNat) := BitVec.msb_eq_decide hi
  rw [temperatureOf, hsign]
  by_cases h : hi.toNat < 128
  · rw [if_pos h, if_neg (by simpa using h), temperatureMag_toInt, Nat.mod_eq_of_lt h]
  · have hmod : hi.toNat % 128 = hi.toNat - 128 := by omega
    rw [if_neg h, if_pos (by simpa using h), BitVec.toInt_neg_eq_of_msb hpositive, temperatureMag_toInt, hmod]

/-- Settles O35. -/
theorem sampleValuesFromBytes : Obligations.SampleValuesFromBytes := by
  intro hi lo
  have hhi := hi.isLt
  have hlo := lo.isLt
  have htemp := temperatureOf_toInt hi lo
  refine ⟨toNat_append_byte hi lo, htemp, ?_, ?_, by decide⟩
  · rw [htemp]; split <;> omega
  · rw [htemp]; split <;> omega

end Sys2Proof.Machine
end

section
/-! Measured durations, runs of the line trace, and waits on them (40_decoder.md R53, R54). -/

namespace Sys2Proof.Machine

theorem measured_bounds (G d : Nat) (x : Int) : d - G ≤ measured G d x ∧ measured G d x ≤ d + G := by
  unfold measured
  omega

/-- An offset within ±G is not cut. -/
theorem measured_sub {G d m : Nat} (hlow : d - G ≤ m) (hhigh : m ≤ d + G) : measured G d (m - d : Int) = m := by
  unfold measured
  omega

/-- After a positive duration at another level there is no run of the waited one. -/
theorem currentRun_other (L : Bool) {us : Nat} (rs : List Run) (h : 0 < us) :
    currentRun L (⟨!L, us⟩ :: rs) = (some 0, ⟨!L, us⟩ :: rs) :=
  if_neg (not_or.2 ⟨Bool.not_ne_self L, h.ne'⟩)

theorem currentRun_same (L : Bool) (us : Nat) (rs : List Run) :
    currentRun L (⟨L, us⟩ :: rs) = ((currentRun L rs).1.map (us + ·), (currentRun L rs).2) :=
  if_pos (.inl rfl)

/-- Settles O32: every measurement within ±G is its own offset's, and a wait's outcomes are those of `waitWhile_cases`. -/
theorem measurementsAreExactlyTheAllowedOnes : Obligations.MeasurementsAreExactlyTheAllowedOnes := by
  refine ⟨fun G d => ⟨measured_bounds G d, fun m hlow hhigh => ⟨_, measured_sub hlow hhigh⟩⟩, fun G limit L l => ?_, rfl, rfl,
    fun L us rs h => ⟨currentRun_other L rs h, currentRun_same L us rs⟩⟩
  obtain ⟨-, hcases⟩ := waitWhile_cases G L limit l
  rcases hcases with ⟨hd, hw⟩ | ⟨hd, hpass⟩ | ⟨d, hd, hne, hover, hw⟩ | ⟨d, hd, hne, hwithin, hpass⟩ <;> rw [hd]
  · exact ⟨fun _ => hw, nofun, nofun⟩
  · exact ⟨nofun, fun _ => hpass, fun k hk hne => absurd (Option.some.inj hk).symm hne⟩
  · refine ⟨nofun, fun h => absurd (Option.some.inj h) hne, ?_⟩
    rintro k ⟨⟩ -
    exact ⟨fun _ => hw, fun hle => absurd hle (Nat.not_le.2 hover)⟩
  · refine ⟨nofun, fun h => absurd (Option.some.inj h) hne, ?_⟩
    rintro k ⟨⟩ -
    exact ⟨fun hlt => absurd hwithin (Nat.not_le.2 hlt), fun _ => hpass⟩

end Sys2Proof.Machine
end

section
/-! The decode procedure's outcomes (40_decoder.md R55, R57): the handshake, the forty bits, the sample. -/

namespace Sys2Proof.Machine

theorem handshake_cons (c : Cfg) (L : Bool) (Ls : List Bool) (l : LineState) :
    let w := waitWhile c.pollGUs.toNat L c.hsTimeoutUs.toNat l
    handshake c (L :: Ls) l = if w.1.isSome then handshake c Ls w.2 else (false, w.2) := by
  dsimp only [handshake]
  rcases waitWhile c.pollGUs.toNat L c.hsTimeoutUs.toNat l with ⟨_ | _, l'⟩ <;> rfl

/-- The handshake passes when its three waits do, and leaves the line as the last of them does. -/
theorem handshake_levels (c : Cfg) (l : LineState) :
    let w1 := waitWhile c.pollGUs.toNat true c.hsTimeoutUs.toNat l
    let w2 := waitWhile c.pollGUs.toNat false c.hsTimeoutUs.toNat w1.2
    let w3 := waitWhile c.pollGUs.toNat true c.hsTimeoutUs.toNat w2.2
    (handshake c handshakeLevels l).1 = (w1.1.isSome && (w2.1.isSome && w3.1.isSome)) ∧
      ((handshake c handshakeLevels l).1 = true → (handshake c handshakeLevels l).2 = w3.2) := by
  intro w1 w2 w3
  have h : handshake c handshakeLevels l =
      if w1.1.isSome then if w2.1.isSome then if w3.1.isSome then (true, w3.2) else (false, w3.2)
        else (false, w2.2) else (false, w1.2) := by
    simp only [handshakeLevels, handshake_cons]
    rfl
  rw [h]
  cases w1.1.isSome
  · exact ⟨rfl, nofun⟩
  · cases w2.1.isSome
    · exact ⟨rfl, nofun⟩
    · cases w3.1.isSome
      · exact ⟨rfl, nofun⟩
      · exact ⟨rfl, fun _ => rfl⟩

/-- The first failing step decides: the handshake, then the data bits, then the checksum (R55). -/
theorem decodeFrom_eq (c : Cfg) (l : LineState) :
    let w := handshake c handshakeLevels l
    let b := readBits c 40 0#40 w.2
    decodeFrom c l =
      if w.1 then (b.1.elim (decodeFailure .timeout) sampleOf, b.2) else (decodeFailure .noResponse, w.2) := by
  dsimp only [decodeFrom]
  rcases handshake c handshakeLevels l with ⟨_ | _, l1⟩
  · rfl
  · dsimp only
    rcases readBits c 40 0#40 l1 with ⟨_ | _, l2⟩ <;> rfl

section
variable (b0 b1 b2 b3 b4 : Byte)

/-- The first byte received is the most significant one (R57). -/
theorem wireByte_append : let sr := b0 ++ b1 ++ b2 ++ b3 ++ b4
    wireByte sr 0 = b0 ∧ wireByte sr 1 = b1 ∧ wireByte sr 2 = b2 ∧ wireByte sr 3 = b3 ∧ wireByte sr 4 = b4 := by
  intro sr
  have hfield (k : Nat) : wireByte sr k = BitVec.extractLsb' (n := 8 + 8 + 8 + 8 + 8) (32 - 8 * k) 8 sr := rfl
  simp (disch := decide) only [hfield, sr, BitVec.extractLsb'_append_eq_of_le, BitVec.extractLsb'_append_eq_of_add_le,
    BitVec.extractLsb'_eq_self, Nat.reduceMul, Nat.reduceSub, and_self]

theorem sampleOf_append : sampleOf (b0 ++ b1 ++ b2 ++ b3 ++ b4) =
    if b4 = b0 + b1 + b2 + b3 then ⟨.ok, temperatureOf b2 b3, humidityOf b0 b1⟩ else decodeFailure .checksumMismatch := by
  obtain ⟨h0, h1, h2, h3, h4⟩ := wireByte_append b0 b1 b2 b3 b4
  simp only [sampleOf, checksumOk, h0, h1, h2, h3, h4, beq_iff_eq, eq_comm (a := b4)]

end

/-- The shift register when `n` bits of the value `v` are still to come: `v` from bit `n` on, and 0 below. -/
def ReadDownTo (v sr : BitVec 40) (n : Nat) : Prop :=
  ∀ i < 40, sr.getLsbD i = (decide (n ≤ i) && v.getLsbD i)

theorem readDownTo_start (v : BitVec 40) : ReadDownTo v 0#40 40 := by
  intro i hi
  simp [Nat.not_le.2 hi]

theorem ReadDownTo.eq {v sr : BitVec 40} (h : ReadDownTo v sr 0) : sr = v :=
  BitVec.eq_of_getLsbD_eq fun i hi => by simpa using h i hi

theorem getLsbD_putBit {n i : Nat} (hi : i < 40) (sr : BitVec 40) (b : Bool) :
    (putBit sr n b).getLsbD i = (sr.getLsbD i || (b && decide (n = i))) := by
  have hone : (1#40 <<< n).getLsbD i = decide (n = i) := by
    rw [BitVec.getLsbD_shiftLeft, BitVec.getLsbD_one]
    grind
  cases b with
  | false => simp [putBit]
  | true => simp [putBit, hone]

theorem ReadDownTo.putBit {v sr : BitVec 40} {n : Nat} {b : Bool} (h : ReadDownTo v sr (n + 1)) (hb : v.getLsbD n = b) :
    ReadDownTo v (putBit sr n b) n := by
  intro i hi
  rw [getLsbD_putBit hi, h i hi, ← hb]
  grind

/-- The loop after `n` data bits, with `j` to come, by induction on `n`. -/
theorem readBits_dataBits {c : Cfg} {ls : Nat → LineState} {ms : Nat → Nat} {n j : Nat}
    (h : ∀ k < n, dataBit c (ls k) (ms k) (ls (k + 1))) (hj : n + j = 40) :
    ∃ sr, readBits c 40 0#40 (ls 0) = readBits c j sr (ls n) ∧
      ∀ v : BitVec 40, (∀ k < n, v.getLsbD (39 - k) = bitOfDuration c (ms k)) → ReadDownTo v sr j := by
  induction n generalizing j with
  | zero =>
    obtain rfl : j = 40 := by omega
    exact ⟨0#40, rfl, fun v _ => readDownTo_start v⟩
  | succ n ih =>
    obtain ⟨sr, hread, hsr⟩ := ih (j := j + 1) (fun k hk => h k (by omega)) (by omega)
    refine ⟨putBit sr j (bitOfDuration c (ms n)), by rw [hread, readBits_dataBit (h n (by omega))], fun v hv => ?_⟩
    obtain rfl : j = 39 - n := by omega
    exact (hsr v fun k hk => hv k (by omega)).putBit (hv n (by omega))

theorem exec_decodeSample (s : State) : let r := decodeLine s.cfg s.env
    exec .decodeSample s = .next { s with
      dqOe := false
      outbox := s.outbox ++ [⟨0x00#8 ++ decodeFields r.err r.h r.t, decodeDrive s.cfg⟩] } := rfl

section
variable {c : Cfg} {e : Env}

theorem decodeLine_noResponse (h : (handshake c handshakeLevels (lineStart e)).1 = false) :
    decodeLine c e = decodeFailure .noResponse := by
  rw [decodeLine, decodeFrom_eq, if_neg (Bool.not_eq_true _ ▸ h)]

theorem decodeLine_of_handshake (h : (handshake c handshakeLevels (lineStart e)).1 = true) :
    decodeLine c e = (readBits c 40 0#40 (handshake c handshakeLevels (lineStart e)).2).1.elim
      (decodeFailure .timeout) sampleOf := by
  rw [decodeLine, decodeFrom_eq, if_pos h]

variable {ls : Nat → LineState} {ms : Nat → Nat}

theorem decodeLine_timeout {n : Nat}
    (hhs : (handshake c handshakeLevels (lineStart e)).1 = true)
    (hls : ls 0 = (handshake c handshakeLevels (lineStart e)).2) (hbits : ∀ k < n, dataBit c (ls k) (ms k) (ls (k + 1)))
    (hn : n < 40) (h : dataTimeout c (ls n)) : decodeLine c e = decodeFailure .timeout := by
  obtain ⟨j, hj⟩ : ∃ j, n + (j + 1) = 40 := ⟨39 - n, by omega⟩
  obtain ⟨sr, hread, -⟩ := readBits_dataBits hbits hj
  rw [decodeLine_of_handshake hhs, ← hls, hread, readBits_timeout h]
  rfl

theorem decodeLine_fortyBits {v : BitVec 40}
    (hhs : (handshake c handshakeLevels (lineStart e)).1 = true)
    (hls : ls 0 = (handshake c handshakeLevels (lineStart e)).2) (hbits : ∀ k < 40, dataBit c (ls k) (ms k) (ls (k + 1)))
    (hv : ∀ k < 40, v.getLsbD (39 - k) = bitOfDuration c (ms k)) : decodeLine c e = sampleOf v := by
  obtain ⟨sr, hread, hsr⟩ := readBits_dataBits hbits (j := 0) rfl
  rw [decodeLine_of_handshake hhs, ← hls, hread, (hsr v hv).eq]
  rfl

end

/-- Settles O30: the handshake's three waits, the data bits one by one, and the sample of the register they fill. -/
theorem decodeSampleRespondsTheResult : Obligations.DecodeSampleRespondsTheResult := by
  intro s c r
  refine ⟨exec_decodeSample s, fun herr => ?_, ?_⟩
  · have hr := decodeLine_failure c s.env herr
    exact ⟨congrArg DecodeResult.t hr, congrArg DecodeResult.h hr⟩
  intro w1 w2 w3
  have hpass : (handshake c handshakeLevels (lineStart s.env)).1 = (w1.1.isSome && (w2.1.isSome && w3.1.isSome)) :=
    (handshake_levels c (lineStart s.env)).1
  constructor
  · intro h
    have hfail : (handshake c handshakeLevels (lineStart s.env)).1 = false := by
      rw [hpass]
      rcases h with h | h | h <;> simp [h]
    exact decodeLine_noResponse hfail
  · intro h1 h2 h3 n ls ms hls hbits
    have hhs : (handshake c handshakeLevels (lineStart s.env)).1 = true := by
      rw [hpass, Bool.and_eq_true_iff, Bool.and_eq_true_iff]
      exact ⟨h1, h2, h3⟩
    replace hls := hls.trans ((handshake_levels c (lineStart s.env)).2 hhs).symm
    refine ⟨decodeLine_timeout hhs hls hbits, ?_⟩
    rintro rfl b0 b1 b2 b3 b4 hv
    have hr : r = _ := (decodeLine_fortyBits hhs hls hbits hv).trans (sampleOf_append b0 b1 b2 b3 b4)
    exact ⟨fun h => hr.trans (if_pos h), fun h => hr.trans (if_neg h)⟩

end Sys2Proof.Machine
end

section
/-! A nominal trace decodes exactly (95_test_vectors.md NOM, L1-1, L1-2): each wait passes, and each high run is on its side of
the threshold, whatever the draws. -/

namespace Sys2Proof.Machine

/-- A run that one of the other level follows ends there. -/
theorem currentRun_alternate (L : Bool) (us : Nat) {us' : Nat} (rs : List Run) (h : 0 < us') :
    currentRun L (⟨L, us⟩ :: ⟨!L, us'⟩ :: rs) = (some us, ⟨!L, us'⟩ :: rs) := by
  rw [currentRun_same, currentRun_other L rs h]
  rfl

/-- A run within the limit by at least G passes, is measured within ±G and is consumed. -/
theorem waitWhile_passes {G limit us us' : Nat} {L : Bool} {l : LineState} {rs : List Run}
    (hl : l.runs = ⟨L, us⟩ :: ⟨!L, us'⟩ :: rs) (hlimit : us + G ≤ limit) (hus : 0 < us := by omega)
    (hus' : 0 < us' := by omega) :
    (waitWhile G L limit l).2.runs = ⟨!L, us'⟩ :: rs ∧
      ∃ m, (waitWhile G L limit l).1 = some m ∧ us - G ≤ m ∧ m ≤ us + G := by
  obtain ⟨hlow, hhigh⟩ := measured_bounds G us (l.draws.head?.getD 0)
  obtain ⟨-, hcases⟩ := waitWhile_cases G L limit l
  rw [hl, currentRun_alternate L us rs hus'] at hcases
  rcases hcases with ⟨h, -⟩ | ⟨h, -⟩ | ⟨_, ⟨⟩, -, hover, -⟩ | ⟨_, ⟨⟩, -, -, hm, hruns, -⟩
  · cases h
  · exact absurd (Option.some.inj h) hus.ne'
  · omega
  · exact ⟨hruns, _, hm, hlow, hhigh⟩

theorem nomBits_eq_cons (v : BitVec 40) (n : Nat) : ∃ rs, nomBits v n = ⟨false, 50⟩ :: rs := by
  cases n with
  | zero => exact ⟨[], rfl⟩
  | succ n => exact ⟨_, rfl⟩

section
variable {c : Cfg} (hc : nominalCfg c)
include hc

/-- The next bit of a nominal trace is read as the bit that it carries. -/
theorem dataBit_nomBits {v : BitVec 40} {n : Nat} {l : LineState} (hl : l.runs = nomBits v (n + 1)) :
    ∃ m l', dataBit c l m l' ∧ v.getLsbD n = bitOfDuration c m ∧ l'.runs = nomBits v n := by
  obtain ⟨-, hlimit, hzero, hone⟩ := hc
  obtain ⟨rs, hrs⟩ := nomBits_eq_cons v n
  have hrange : 27 ≤ (if v.getLsbD n then 70 else 27) ∧ (if v.getLsbD n then 70 else 27) ≤ 70 := by split <;> omega
  obtain ⟨hruns, m, hm, -⟩ :=
    waitWhile_passes (G := c.pollGUs.toNat) (limit := c.bitTimeoutUs.toNat) (L := false) hl (by omega)
  rw [hrs] at hruns
  obtain ⟨hruns', m', hm', hlow', hhigh'⟩ :=
    waitWhile_passes (G := c.pollGUs.toNat) (limit := c.bitTimeoutUs.toNat) (L := true) hruns (by omega)
  refine ⟨m', _, ⟨hm ▸ rfl, hm', rfl⟩, ?_, hruns'.trans hrs.symm⟩
  cases hv : v.getLsbD n with
  | false =>
    rw [hv, if_neg Bool.false_ne_true] at hhigh'
    exact (decide_eq_false (by omega)).symm
  | true =>
    rw [hv, if_pos rfl] at hlow'
    exact (decide_eq_true (by omega)).symm

theorem readBits_nomBits {v : BitVec 40} {n : Nat} {sr : BitVec 40} {l : LineState} (hsr : ReadDownTo v sr n)
    (hl : l.runs = nomBits v n) : (readBits c n sr l).1 = some v := by
  induction n generalizing sr l with
  | zero => exact congrArg some hsr.eq
  | succ n ih =>
    obtain ⟨m, l', hbit, hv, hl'⟩ := dataBit_nomBits hc hl
    rw [readBits_dataBit hbit]
    exact ih (hsr.putBit hv) hl'

theorem handshake_nomTrace {b0 b1 b2 b3 b4 : Byte} {l : LineState} (hl : l.runs = nomTrace b0 b1 b2 b3 b4) :
    (handshake c handshakeLevels l).1 = true ∧
      (handshake c handshakeLevels l).2.runs = nomBits (b0 ++ b1 ++ b2 ++ b3 ++ b4) 40 := by
  obtain ⟨hhs, -⟩ := hc
  obtain ⟨hruns1, m1, hm1, -⟩ :=
    waitWhile_passes (G := c.pollGUs.toNat) (limit := c.hsTimeoutUs.toNat) (L := true) hl (by omega)
  obtain ⟨hruns2, m2, hm2, -⟩ :=
    waitWhile_passes (G := c.pollGUs.toNat) (limit := c.hsTimeoutUs.toNat) (L := false) hruns1 (by omega)
  obtain ⟨hruns3, m3, hm3, -⟩ :=
    waitWhile_passes (G := c.pollGUs.toNat) (limit := c.hsTimeoutUs.toNat) (L := true) hruns2 (by omega)
  obtain ⟨hpass, hline⟩ := handshake_levels c l
  rw [hm1, hm2, hm3] at hpass
  exact ⟨hpass, (congrArg LineState.runs (hline hpass)).trans hruns3⟩

end

/-- Settles O34: the trace's forty bits are the five bytes, and the sample is taken from them. -/
theorem nominalTraceDecodesExactly : Obligations.NominalTraceDecodesExactly := by
  intro c e b0 b1 b2 b3 b4 hc hline
  obtain ⟨hpass, hruns⟩ := handshake_nomTrace hc (l := lineStart e) hline
  have hsample : decodeLine c e = sampleOf (b0 ++ b1 ++ b2 ++ b3 ++ b4) := by
    rw [decodeLine_of_handshake hpass, readBits_nomBits hc (readDownTo_start _) hruns, Option.elim_some]
  rw [hsample, sampleOf_append]
  exact ⟨fun h => if_pos h, fun h => if_neg h⟩

end Sys2Proof.Machine
end

section
/-! Within the margins of R60 a decode does not depend on the draws: two runs of the procedure over the same trace make the same
waits, each of which passes in both or times out in both, and a data high run gives the same bit. -/

namespace Sys2Proof.Machine

/-- Two outcomes of the wait `w`, under different draws: a timeout in both, or a pass in both that leaves the same trace and,
by condition (a) of R60, gives the same bit. -/
inductive SameWait (c : Cfg) (w : Wait) : Option Nat × LineState → Option Nat × LineState → Prop
  | timeout (l l' : LineState) : SameWait c w (none, l) (none, l')
  | pass {m m' : Nat} {l l' : LineState} (runs : l'.runs = l.runs)
      (bit : bitMargin c w = true → bitOfDuration c m' = bitOfDuration c m) : SameWait c w (some m, l) (some m', l')

section
variable {c : Cfg} {l l' : LineState}

/-- Condition (a) of R60: the measurements of a run within it are on the same side of the threshold. -/
theorem bitOfDuration_measured {d : Nat} (hd : d ≠ 0) {L : Bool} {limit : Nat}
    (h : bitMargin c ⟨L, limit, some d⟩ = true) (x : Int) :
    bitOfDuration c (measured c.pollGUs.toNat d x) = decide (c.bitThresholdUs.toNat < d) := by
  have hbounds := measured_bounds c.pollGUs.toNat d x
  have hmargin := of_decide_eq_true h
  exact decide_eq_decide.2 (by omega)

/-- Condition (b) of R60: the measurements of a run within it pass the limit all or none. -/
theorem measured_le_limit_iff {G d : Nat} (hd : d ≠ 0) {L : Bool} {limit : Nat}
    (h : waitMargin G ⟨L, limit, some d⟩ = true) (x : Int) : measured G d x ≤ limit ↔ d ≤ limit := by
  have hbounds := measured_bounds G d x
  have hmargin : d = 0 ∨ d + G ≤ limit ∨ limit + G < d := of_decide_eq_true h
  omega

theorem waitWhile_same (hruns : l'.runs = l.runs) {L : Bool} {limit : Nat}
    (h : waitMargin c.pollGUs.toNat ⟨L, limit, (currentRun L l.runs).1⟩ = true) :
    SameWait c ⟨L, limit, (currentRun L l.runs).1⟩ (waitWhile c.pollGUs.toNat L limit l)
      (waitWhile c.pollGUs.toNat L limit l') := by
  unfold waitWhile
  rw [hruns]
  cases hd : (currentRun L l.runs).1 with
  | none => exact .timeout _ _
  | some d =>
    rw [hd] at h
    by_cases h0 : d = 0
    · simp only [h0, if_true]
      exact .pass rfl fun _ => rfl
    · simp only [h0, if_false, ← Nat.not_le, measured_le_limit_iff h0 h]
      by_cases hle : d ≤ limit
      · rw [if_neg (not_not.2 hle), if_neg (not_not.2 hle)]
        exact .pass rfl fun hbit => by rw [bitOfDuration_measured h0 hbit, bitOfDuration_measured h0 hbit]
      · rw [if_pos hle, if_pos hle]
        exact .timeout _ _

end

/-- A wait made after the first `k` is among those after the first `k` that the whole procedure makes. -/
theorem mem_drop_of_prefix {ws ws' : List Wait} {w : Wait} {k : Nat} (h : ws ++ [w] <+: ws') (hk : k ≤ ws.length) :
    w ∈ ws'.drop k := by
  obtain ⟨rest, rfl⟩ := h
  rw [List.append_assoc, List.drop_append_of_le_length hk]
  simp

theorem waits_prefix_handshake (c : Cfg) (Ls : List Bool) (l : LineState) : l.waits <+: (handshake c Ls l).2.waits := by
  obtain ⟨ws, hws, -⟩ := handshake_waits c Ls l
  exact ⟨ws, hws.symm⟩

theorem waits_prefix_handshake_cons (c : Cfg) (L : Bool) (Ls : List Bool) (l : LineState) :
    (waitWhile c.pollGUs.toNat L c.hsTimeoutUs.toNat l).2.waits <+: (handshake c (L :: Ls) l).2.waits := by
  rw [handshake_cons]
  split
  · exact waits_prefix_handshake c Ls _
  · exact List.prefix_rfl

/-- When the handshake's waits meet condition (b), other draws give the same outcome, and leave the same trace after a pass. -/
theorem handshake_same {c : Cfg} {Ls : List Bool} {l l' : LineState} {k : Nat} (hruns : l'.runs = l.runs)
    (hk : k ≤ l.waits.length)
    (h : ∀ w ∈ (handshake c Ls l).2.waits.drop k, waitMargin c.pollGUs.toNat w = true) :
    (handshake c Ls l').1 = (handshake c Ls l).1 ∧
      ((handshake c Ls l).1 = true → (handshake c Ls l').2.runs = (handshake c Ls l).2.runs) := by
  induction Ls generalizing l l' with
  | nil => exact ⟨rfl, fun _ => hruns⟩
  | cons L Ls ih =>
    have hwaits := (waitWhile_cases c.pollGUs.toNat L c.hsTimeoutUs.toNat l).1
    have hsame := waitWhile_same hruns
      (h _ (mem_drop_of_prefix (hwaits ▸ waits_prefix_handshake_cons c L Ls l) hk))
    rw [handshake_cons] at h
    rw [handshake_cons, handshake_cons]
    generalize waitWhile c.pollGUs.toNat L c.hsTimeoutUs.toNat l = w at *
    generalize waitWhile c.pollGUs.toNat L c.hsTimeoutUs.toNat l' = w' at *
    cases hsame with
    | timeout => exact ⟨rfl, nofun⟩
    | pass hruns' _ => exact ih hruns' (by rw [hwaits, List.length_append]; omega) h

theorem readBits_succ (c : Cfg) (n : Nat) (sr : BitVec 40) (l : LineState) :
    let low := waitWhile c.pollGUs.toNat false c.bitTimeoutUs.toNat l
    let high := waitWhile c.pollGUs.toNat true c.bitTimeoutUs.toNat low.2
    readBits c (n + 1) sr l =
      if low.1.isSome then
        high.1.elim (none, high.2) fun m => readBits c n (putBit sr n (bitOfDuration c m)) high.2
      else (none, low.2) := by
  dsimp only [readBits]
  rcases waitWhile c.pollGUs.toNat false c.bitTimeoutUs.toNat l with ⟨_ | _, l1⟩
  · rfl
  · dsimp only
    rcases waitWhile c.pollGUs.toNat true c.bitTimeoutUs.toNat l1 with ⟨_ | _, l2⟩ <;> rfl

theorem waits_prefix_readBits (c : Cfg) (n : Nat) (sr : BitVec 40) (l : LineState) :
    l.waits <+: (readBits c n sr l).2.waits := by
  obtain ⟨ws, hws, -⟩ := readBits_waits c n sr l
  exact ⟨ws, hws.symm⟩

/-- The wait for the high level is among the waits of the loop when the wait before it passes. -/
theorem waits_prefix_readBits_high (c : Cfg) (n : Nat) (sr : BitVec 40) (l : LineState) :
    let low := waitWhile c.pollGUs.toNat false c.bitTimeoutUs.toNat l
    low.1.isSome = true →
      (waitWhile c.pollGUs.toNat true c.bitTimeoutUs.toNat low.2).2.waits <+: (readBits c (n + 1) sr l).2.waits := by
  intro low hlow
  rw [readBits_succ, if_pos hlow]
  cases (waitWhile c.pollGUs.toNat true c.bitTimeoutUs.toNat low.2).1 with
  | none => exact List.prefix_rfl
  | some m => exact waits_prefix_readBits c n _ _

theorem waits_prefix_readBits_low (c : Cfg) (n : Nat) (sr : BitVec 40) (l : LineState) :
    (waitWhile c.pollGUs.toNat false c.bitTimeoutUs.toNat l).2.waits <+: (readBits c (n + 1) sr l).2.waits := by
  by_cases hlow : (waitWhile c.pollGUs.toNat false c.bitTimeoutUs.toNat l).1.isSome
  · refine .trans ?_ (waits_prefix_readBits_high c n sr l hlow)
    exact ⟨_, (waitWhile_cases _ _ _ _).1.symm⟩
  · rw [readBits_succ, if_neg hlow]

/-- When the data bits' waits meet conditions (a) and (b), other draws give the same register, or Timeout in both. -/
theorem readBits_same {c : Cfg} {n : Nat} {sr : BitVec 40} {l l' : LineState} {k : Nat} (hruns : l'.runs = l.runs)
    (hk : k ≤ l.waits.length)
    (h : ∀ w ∈ (readBits c n sr l).2.waits.drop k,
      waitMargin c.pollGUs.toNat w = true ∧ (w.level = true → bitMargin c w = true)) :
    (readBits c n sr l').1 = (readBits c n sr l).1 := by
  induction n generalizing sr l l' with
  | zero => rfl
  | succ n ih =>
    have hwaits := (waitWhile_cases c.pollGUs.toNat false c.bitTimeoutUs.toNat l).1
    obtain ⟨hmargin, -⟩ := h _ (mem_drop_of_prefix (hwaits ▸ waits_prefix_readBits_low c n sr l) hk)
    have hlow := waitWhile_same hruns hmargin
    have hprefix := waits_prefix_readBits_high c n sr l
    rw [readBits_succ] at h hprefix
    rw [readBits_succ, readBits_succ]
    generalize waitWhile c.pollGUs.toNat false c.bitTimeoutUs.toNat l = low at *
    generalize waitWhile c.pollGUs.toNat false c.bitTimeoutUs.toNat l' = low' at *
    cases hlow with
    | timeout => rfl
    | @pass _ _ l1 l1' hruns1 _ =>
      have hk1 : k ≤ l1.waits.length := by rw [hwaits, List.length_append]; omega
      have hwaits1 := (waitWhile_cases c.pollGUs.toNat true c.bitTimeoutUs.toNat l1).1
      obtain ⟨hmargin1, hbit1⟩ := h _ (mem_drop_of_prefix (hwaits1 ▸ hprefix rfl) hk1)
      have hhigh := waitWhile_same hruns1 hmargin1
      generalize waitWhile c.pollGUs.toNat true c.bitTimeoutUs.toNat l1 = high at *
      generalize waitWhile c.pollGUs.toNat true c.bitTimeoutUs.toNat l1' = high' at *
      cases hhigh with
      | timeout => rfl
      | @pass m m' l2 l2' hruns2 hbit =>
        change (readBits c n (putBit sr n (bitOfDuration c m')) l2').1 = _
        rw [hbit (hbit1 rfl)]
        exact ih hruns2 (by rw [hwaits1, List.length_append]; omega) h

section
variable {c : Cfg} {e : Env}

theorem decodeWaits_of_handshake (h : (handshake c handshakeLevels (lineStart e)).1 = true) :
    decodeWaits c e = (readBits c 40 0#40 (handshake c handshakeLevels (lineStart e)).2).2.waits := by
  rw [decodeWaits, decodeFrom_eq, if_pos h]

theorem decodeWaits_of_noResponse (h : (handshake c handshakeLevels (lineStart e)).1 = false) :
    decodeWaits c e = (handshake c handshakeLevels (lineStart e)).2.waits := by
  rw [decodeWaits, decodeFrom_eq, if_neg (Bool.not_eq_true _ ▸ h)]

/-- The handshake's waits are the first of the decode's. -/
theorem handshake_waits_prefix_decodeWaits (c : Cfg) (e : Env) :
    (handshake c handshakeLevels (lineStart e)).2.waits <+: decodeWaits c e := by
  cases hpass : (handshake c handshakeLevels (lineStart e)).1 with
  | false => exact decodeWaits_of_noResponse hpass ▸ List.prefix_rfl
  | true => exact decodeWaits_of_handshake hpass ▸ waits_prefix_readBits c 40 0#40 _

end

/-- Settles O31: the handshake's waits pass or time out alike, and then so do the data bits', with the same bits. -/
theorem decodeIndependentOfDraws : Obligations.DecodeIndependentOfDraws := by
  intro c e draws hmargins
  obtain ⟨hwait, hbit⟩ := hmargins
  obtain ⟨hpass, hruns⟩ := handshake_same (c := c) (Ls := handshakeLevels) (l := lineStart (exactEnv e))
    (l' := lineStart { e with draws := draws }) rfl (Nat.zero_le _)
    fun w hw => hwait w ((handshake_waits_prefix_decodeWaits c _).mem (List.mem_of_mem_drop hw))
  change _ = decodeLine c (exactEnv e)
  cases h : (handshake c handshakeLevels (lineStart (exactEnv e))).1 with
  | false => rw [decodeLine_noResponse h, decodeLine_noResponse (hpass.trans h)]
  | true =>
    have hlen : 3 ≤ (handshake c handshakeLevels (lineStart (exactEnv e))).2.waits.length := by
      obtain ⟨ws, hws, -, hall, -⟩ := handshake_waits c handshakeLevels (lineStart (exactEnv e))
      rw [hws, List.length_append, hall h]
      exact Nat.le_add_left 3 _
    rw [decodeWaits_of_handshake h] at hwait hbit
    rw [decodeLine_of_handshake h, decodeLine_of_handshake (hpass.trans h),
      readBits_same (hruns h) hlen fun w hw => ⟨hwait w (List.mem_of_mem_drop hw), hbit w hw⟩]

end Sys2Proof.Machine
end

section
/-! The PID commands (41_pid.md R63 to R70): PID_COMPUTE by the three cases of PidCore, the non-finite values of a full computation,
and the commands that write PID registers. -/

namespace Sys2Proof.Machine

section
variable {c : Cfg} {now : U32} {r : Pid}

theorem pidCore_of_disabled (c : Cfg) (now : U32) (pv : F32) (h : r.en = false) : pidCore c now pv r = (r, 0#32) := if_pos h

theorem pidCore_of_full (pv : F32) (hen : r.en = true) (h : c.sampleTimeMs.toNat ≤ elapsed now r.lt) :
    pidCore c now pv r = (pidFull c now pv r, (pidFull c now pv r).lout) := by
  simp [pidCore, hen, h]

end

section
variable {s : State} (pv : F32)

theorem exec_pidCompute_of_disabled (h : s.pid.en = false) :
    exec (.pidCompute pv) s = .next (respondWith (0x00#8 ++ pidFields 0#32) [] s) := by
  rw [exec_pidCompute, pidCore_of_disabled _ _ _ h]
  rfl

theorem exec_pidCompute_of_gated (hen : s.pid.en = true) (h : elapsed s.env.now s.pid.lt < s.cfg.sampleTimeMs.toNat) :
    exec (.pidCompute pv) s = .next (respondWith (0x00#8 ++ pidFields s.pid.lout) [] s) := by
  rw [exec_pidCompute, pidCore_of_gated pv hen h]
  rfl

/-- A full computation writes PID.I, PID.LPV, PID.LT and PID.LOUT, and responds with the output (R63). -/
theorem exec_pidCompute_of_full (hen : s.pid.en = true) (h : s.cfg.sampleTimeMs.toNat ≤ elapsed s.env.now s.pid.lt) :
    let x := pidTerms s.pid (elapsed s.env.now s.pid.lt) pv
    exec (.pidCompute pv) s = .next { s with
      pid := { s.pid with i := pidAccumulator s.cfg s.pid x, lpv := pv, lt := s.env.now, lout := pidOutput s.cfg x }
      outbox := s.outbox ++ [⟨0x00#8 ++ pidFields (pidOutput s.cfg x), []⟩] } := by
  rw [exec_pidCompute, pidCore_of_full pv hen h]
  rfl

end

/-- Settles O24: PidCore is disabled, gated or full, and the accumulator and the output of a full computation are R63's lines. -/
theorem pidComputeFollowsPidCore : Obligations.PidComputeFollowsPidCore := by
  intro s pv
  exact ⟨exec_pidCompute_of_disabled pv, exec_pidCompute_of_gated pv, exec_pidCompute_of_full pv⟩

/-- Settles O26: what the output and the accumulator are clamped to are their ranges. -/
theorem pidOutputAndAccumulatorBounded : Obligations.PidOutputAndAccumulatorBounded := by
  intro s pv hc hen hle
  exact ⟨_, exec_pidCompute_of_full pv hen hle, pidFull_within hc s.env.now pv s.pid⟩

/-- A NaN argument is clamped to the lower bound (R13). -/
theorem f32Clamp_nan (lo hi : Datum) : f32Clamp .nan lo hi = lo := f32Clamp_of_not_ge (f32Le_nan lo) (f32Lt_nan hi)

theorem f32Add_nan (x : Datum) : f32Add x .nan = .nan := by
  obtain ⟨hadd, -, -⟩ := f32_ops_nan x
  exact hadd

theorem f32Mul_nan (x : Datum) : f32Mul x .nan = .nan := by
  obtain ⟨-, hmul, -⟩ := f32_ops_nan x
  exact hmul

/-- A NaN PID.LPV makes the derivative term, and so u, a NaN (R64 d). -/
theorem pidTerms_u_of_lpv_nan {r : Pid} (e : Nat) (pv : F32) (h : f32Datum r.lpv = .nan) : (pidTerms r e pv).u = .nan := by
  have hdm : f32Sub (f32Datum pv) (f32Datum r.lpv) = .nan := by rw [h]; exact f32Add_nan _
  have hd : (pidTerms r e pv).d = .nan := by rw [pidTerms, hdm, f32Mul_nan]; rfl
  have hu : (pidTerms r e pv).u = f32Add (f32Add (pidTerms r e pv).p (pidTerms r e pv).i) (pidTerms r e pv).d := rfl
  rw [hu, hd, f32Add_nan]

section
variable {c : Cfg} {x : PidTerms}

/-- No error that is a NaN pushes into saturation: neither comparison with it holds. -/
theorem pidSaturated_of_err_nan (h : x.err = .nan) : pidSaturated c x = false := by
  simp [pidSaturated, h, f32Gt, f32Lt, f32Key]

/-- A NaN err sends the accumulator to -IMAX (R64 a). -/
theorem pidAccumulator_of_err_nan (r : Pid) (h : x.err = .nan) : pidAccumulator c r x = f32Bits (f32Neg (imax c)) := by
  have hsum : f32Add (f32Datum r.i) (f32Mul x.err x.dt) = .nan := by rw [h, f32Mul, f32Add_nan]
  simp [pidAccumulator, pidSaturated_of_err_nan h, hsum, f32Clamp_nan]

variable (hc : cfgWf c = true)
include hc

theorem f32Bits_outMin : f32Bits (outMin c) = c.outMin := by
  obtain ⟨⟨hnum, -⟩, -, -⟩ := outBounds_of_wf hc
  exact f32Bits_f32Datum hnum

theorem f32Bits_outMax : f32Bits (outMax c) = c.outMax := by
  obtain ⟨-, ⟨hnum, -⟩, -⟩ := outBounds_of_wf hc
  exact f32Bits_f32Datum hnum

/-- OUT_MAX is finite, so +infinity lies beyond it (R8). -/
theorem f32Gt_inf_outMax : f32Gt (.inf false) (outMax c) = true := by
  obtain ⟨-, ⟨neg, mag, hfin⟩, -, -⟩ := cfgWf_numbers hc
  obtain ⟨hlt, -, -, -⟩ := f32Order_fin_inf hfin
  rw [hfin]
  exact hlt

/-- A NaN u gives OUT_MIN (R64 b). -/
theorem pidOutput_of_u_nan (h : x.u = .nan) : pidOutput c x = c.outMin := by
  rw [pidOutput, h, f32Clamp_nan, f32Bits_outMin hc]

/-- u = +infinity gives OUT_MAX (R64 c). -/
theorem pidOutput_of_u_inf (h : x.u = .inf false) : pidOutput c x = c.outMax := by
  rw [pidOutput, h, f32Clamp_of_gt (f32Gt_inf_outMax hc), f32Bits_outMax hc]

/-- u = +infinity is saturated when the error is positive: the accumulator holds (R64 c). -/
theorem pidAccumulator_of_u_inf (r : Pid) (h : x.u = .inf false) (herr : f32Gt x.err f32Zero = true) :
    pidAccumulator c r x = r.i := by
  have hge : f32Ge x.u (outMax c) = true := by
    rw [h]
    exact f32Le_of_f32Lt (f32Gt_inf_outMax hc)
  simp [pidAccumulator, pidSaturated, hge, herr]

end

/-- Settles O25: a NaN falls to the lower bound of its clamp, and +infinity to the upper. -/
theorem pidNonFiniteCases : Obligations.PidNonFiniteCases := by
  intro s pv hc hen hle x
  obtain ⟨hout, -⟩ := pidFull_within hc s.env.now pv s.pid
  refine ⟨_, exec_pidCompute_of_full pv hen hle, rfl, f32IsNaN_of_within hout, pidAccumulator_of_err_nan s.pid,
    pidOutput_of_u_nan hc, fun hu herr => ⟨pidAccumulator_of_u_inf hc s.pid hu herr, pidOutput_of_u_inf hc hu⟩, fun hlpv => ?_⟩
  exact pidOutput_of_u_nan hc (pidTerms_u_of_lpv_nan _ pv (by simpa [f32IsNaN] using hlpv))

theorem pidRuns_iff {c : Cfg} {now : U32} {r : Pid} :
    pidRuns c now r = true ↔ r.en = true ∧ c.sampleTimeMs.toNat ≤ elapsed now r.lt := by
  simp [pidRuns]

/-- Settles O27: of the three moves of the PID history, only a full computation writes PID.LT. -/
theorem pidComputesNoFasterThanTheSampleTime : Obligations.PidComputesNoFasterThanTheSampleTime := by
  intro i s t h
  cases exec_pid_moves h with
  | kept hi hlpv hlout hlt => exact ⟨fun hne => absurd hlt hne, fun _ => ⟨hlt, .inl ⟨hi, hlpv, hlout⟩⟩⟩
  | cleared hi hlpv hlout hlt => exact ⟨fun hne => absurd hlt hne, fun _ => ⟨hlt, .inr ⟨hi, hlpv, hlout⟩⟩⟩
  | computed pv hruns hq =>
    obtain ⟨hen, hle⟩ := pidRuns_iff.1 hruns
    refine ⟨fun _ => ⟨hen, hle, by rw [hq]; rfl⟩, ?_⟩
    rintro (hdis | hgated)
    · exact absurd (hen.symm.trans hdis) nofun
    · exact absurd hle (Nat.not_le_of_lt hgated)

/-- Settles O28: each command is the write of its own registers and the empty response. -/
theorem pidSettersAndReset : Obligations.PidSettersAndReset := fun _ _ => ⟨rfl, rfl, rfl, rfl, rfl⟩

/-- Settles O29: EN is written first, and `PidReset` runs for EN = 1 alone. -/
theorem pidEnableResetsAndDisableKeeps : Obligations.PidEnableResetsAndDisableKeeps := fun _ => ⟨rfl, rfl⟩

end Sys2Proof.Machine
end

section
/-! Sensor health: the gate, a read's outcome, and runs of failed reads (42_sensor_health.md R71 to R74). -/

namespace Sys2Proof.Machine

section
variable {s : State}

theorem sensorGateOpen_iff : sensorGateOpen s = true ↔ s.cfg.readIntervalMs.toNat ≤ (s.env.now - s.sh.lrt).toNat := by
  rw [sensorGateOpen, decide_eq_true_iff, elapsed]

/-- Saturation hides nothing from a threshold of 32 bits (R14). -/
theorem le_satInc32_iff (m n : U32) : m.toNat ≤ (satInc32 n).toNat ↔ m.toNat ≤ n.toNat + 1 := by
  rw [satInc32_toNat]
  omega

/-- While SH.SAFE is 0, a failed read trips nothing (R71). -/
theorem sensorRead_failure_of_notSafe (herr : (decodeLine s.cfg s.env).err ≠ .ok) (hsafe : s.sh.safe = false) :
    (sensorRead s).sh.safe = false ∧ (sensorRead s).evt.getLsbD 1 = s.evt.getLsbD 1 := by
  rw [sensorRead_failure herr, recordFailure_spec]
  simp [hsafe, eventBit]

/-- A failed read trips at the threshold, and in probation (R71). -/
theorem sensorRead_failure_of_trip (herr : (decodeLine s.cfg s.env).err ≠ .ok) (hsafe : s.sh.safe = true)
    (htrip : s.cfg.maxSensorFailures.toNat ≤ s.sh.fails.toNat + 1 ∨ s.sh.prob = true) :
    (sensorRead s).sh.safe = false ∧ (sensorRead s).sh.prob = false ∧ (sensorRead s).evt.getLsbD 1 = true := by
  rw [← le_satInc32_iff] at htrip
  rw [sensorRead_failure herr, recordFailure_spec]
  simp [hsafe, htrip, eventBit]

/-- A failed read below the threshold and out of probation is counted, and no more (R71). -/
theorem sensorRead_failure_of_below (herr : (decodeLine s.cfg s.env).err ≠ .ok) (hsafe : s.sh.safe = true)
    (hprob : s.sh.prob = false) (hbelow : s.sh.fails.toNat + 1 < s.cfg.maxSensorFailures.toNat) :
    (sensorRead s).sh.safe = true ∧ (sensorRead s).sh.prob = false ∧
      (sensorRead s).sh.fails.toNat = s.sh.fails.toNat + 1 ∧ (sensorRead s).evt.getLsbD 1 = s.evt.getLsbD 1 := by
  have hcount : (satInc32 s.sh.fails).toNat = s.sh.fails.toNat + 1 := by
    rw [satInc32_toNat]
    omega
  rw [sensorRead_failure herr, recordFailure_spec]
  simp [hsafe, hprob, hcount, Nat.not_le_of_lt hbelow, eventBit]

/-- A read that fails is a SENSOR_UPDATE behind an open gate whose decode fails. -/
theorem exec_sensorUpdate_of_readFails {e : Env} (h : readFails e s = true) :
    (decodeLine s.cfg e).err ≠ .ok ∧
      ∃ r dq, exec .sensorUpdate { s with env := e } = .next (respondWith r dq (sensorRead { s with env := e })) := by
  obtain ⟨hgate, herr⟩ : sensorGateOpen { s with env := e } = true ∧ (decodeLine s.cfg e).err ≠ .ok := by
    simpa [readFails] using h
  exact ⟨herr, _, _, execSensorUpdate_of_open hgate⟩

/-- The first of a run of failed reads. -/
theorem failedReads_of_cons {e : Env} {es : List Env} {t : State} (h : failedReads (e :: es) s = some t) :
    (decodeLine s.cfg e).err ≠ .ok ∧
      ∃ r dq, failedReads es (respondWith r dq (sensorRead { s with env := e })) = some t := by
  rw [failedReads] at h
  split at h
  · next hfails =>
    obtain ⟨herr, r, dq, he⟩ := exec_sensorUpdate_of_readFails hfails
    rw [he] at h
    exact ⟨herr, r, dq, h⟩
  · cases h

end

/-- Settles O36: a closed gate answers from the registers. -/
theorem sensorUpdateGated : Obligations.SensorUpdateGated := by
  intro s h
  have hgate : sensorGateOpen s = false := by
    rw [← Bool.not_eq_true, sensorGateOpen_iff]
    omega
  exact execSensorUpdate_of_gated hgate

/-- Settles O37: behind an open gate, the success branch of the read. -/
theorem sensorUpdateSuccess : Obligations.SensorUpdateSuccess := by
  intro s hopen herr r
  refine (execSensorUpdate_of_open (sensorGateOpen_iff.2 hopen)).trans ?_
  rw [sensorRead_success herr]
  rfl

/-- Settles O38: behind an open gate, the failure branch of the read. -/
theorem sensorUpdateFailure : Obligations.SensorUpdateFailure := by
  intro s hopen herr fails trip
  refine (execSensorUpdate_of_open (sensorGateOpen_iff.2 hopen)).trans ?_
  rw [sensorRead_failure herr, recordFailure_spec]
  rfl

/-- Settles O39: recovery is guarded by SH.SAFE. -/
theorem sensorIsSafeAndRecover : Obligations.SensorIsSafeAndRecover := by
  intro s
  refine ⟨rfl, fun hsafe => ?_, fun hsafe => ?_⟩
  · rw [exec_sensorRecover, recoverSensorSafe_spec, hsafe]
    rfl
  · rw [exec_sensorRecover, recoverSensorSafe_of_safe hsafe]
    rfl

/-- Failed reads from any count below the threshold: they latch when the count reaches it, and not before. -/
theorem failedReads_latch {es : List Env} {s t : State} (hsafe : s.sh.safe = true) (hprob : s.sh.prob = false)
    (hbelow : s.sh.fails.toNat < s.cfg.maxSensorFailures.toNat) (h : failedReads es s = some t) :
    (s.sh.fails.toNat + es.length < s.cfg.maxSensorFailures.toNat →
      t.sh.safe = true ∧ t.evt.getLsbD 1 = s.evt.getLsbD 1) ∧
    (s.sh.fails.toNat + es.length = s.cfg.maxSensorFailures.toNat → t.sh.safe = false ∧ t.evt.getLsbD 1 = true) := by
  induction es generalizing s with
  | nil =>
    cases h
    exact ⟨fun _ => ⟨hsafe, rfl⟩, fun hlen => absurd hlen hbelow.ne⟩
  | cons e es ih =>
    obtain ⟨herr, r, dq, hrest⟩ := failedReads_of_cons h
    rw [List.length_cons]
    by_cases hlast : s.sh.fails.toNat + 1 < s.cfg.maxSensorFailures.toNat
    · obtain ⟨hsafe', hprob', hcount, hevt⟩ :=
        sensorRead_failure_of_below (s := { s with env := e }) herr hsafe hprob hlast
      have hih := ih (s := respondWith r dq (sensorRead { s with env := e })) hsafe' hprob' (by simpa [hcount]) hrest
      simp only [respondWith_sh, respondWith_cfg, respondWith_evt, sensorRead_cfg, hcount, hevt] at hih
      rwa [Nat.add_assoc, Nat.add_comm 1] at hih
    · obtain ⟨hsafe', -, hevt⟩ :=
        sensorRead_failure_of_trip (s := { s with env := e }) herr hsafe (.inl (Nat.le_of_not_lt hlast))
      refine ⟨fun hlen => by omega, fun hlen => ?_⟩
      obtain rfl : es = [] := List.length_eq_zero_iff.1 (by omega)
      cases hrest
      exact ⟨hsafe', hevt⟩

/-- Settles O40: the run of failed reads from count 0, below the threshold of a well-formed configuration. -/
theorem nFailedReadsLatchUnsafe : Obligations.NFailedReadsLatchUnsafe := by
  intro es s t hc hsafe hprob hfails h
  obtain ⟨-, -, -, hmax, -⟩ := cfgWf_times hc
  have hlatch := failedReads_latch hsafe hprob (by rw [hfails]; exact hmax) h
  simpa [hfails] using hlatch

/-- Settles O41: recovery starts probation, in which any failure trips; without it SH.SAFE is 0 and nothing is left to trip. -/
theorem oneFailureAfterRecoveryTripsAgain : Obligations.OneFailureAfterRecoveryTripsAgain := by
  intro e s hsafe
  refine ⟨_, exec_sensorRecover s, recoverSensorSafe_safe s, fun hfails => ?_, fun hfails => ?_⟩
  · have hprob : (recoverSensorSafe s).sh.prob = true := by simp [recoverSensorSafe_spec, hsafe]
    obtain ⟨herr, r, dq, he⟩ := exec_sensorUpdate_of_readFails hfails
    exact ⟨_, he, sensorRead_failure_of_trip herr (recoverSensorSafe_safe s) (.inr hprob)⟩
  · obtain ⟨herr, r, dq, he⟩ := exec_sensorUpdate_of_readFails hfails
    exact ⟨_, he, sensorRead_failure_of_notSafe herr hsafe⟩

end Sys2Proof.Machine
end

section
/-! The heater monitor: one check's count and latch, and runs of low checks (43_heater_monitor.md R75 to R77). -/

namespace Sys2Proof.Machine

/-- A legal CST names a status (R46, R75). -/
theorem exists_statusBits_eq {cst : BitVec 2} (h : cst ≠ 3#2) : ∃ st, statusBits st = cst := by
  obtain rfl | rfl | rfl : cst = 0#2 ∨ cst = 1#2 ∨ cst = 2#2 := by
    revert cst
    decide
  · exact ⟨.ok, rfl⟩
  · exact ⟨.disconnected, rfl⟩
  · exact ⟨.overvoltage, rfl⟩

@[simp] theorem currentStatus_statusBits (st : CurrentStatus) : currentStatus (statusBits st) = some st := by
  cases st <;> rfl

/-- DISCONNECTED is low by configuration, the other two by the power (R75). -/
theorem lowPower_eq_ite (c : Cfg) (pwr : F32) (st : CurrentStatus) : lowPower c pwr st =
    if statusBits st = 1#2 then c.disconnectedIsFault else !f32Ge (f32Datum pwr) (f32Datum c.powerThresholdW) := by
  cases st <;> rfl

section
variable {s : State}

/-- HEATER_CHECK with a legal CST is the check on the registers, answered from them (R76). -/
theorem exec_heaterCheck_statusBits (pwr : F32) (on : Bool) (st : CurrentStatus) (s : State) :
    exec (.heaterCheck pwr on (statusBits st)) s =
      let u := heaterCheckState on (lowPower s.cfg pwr st) s
      .next (respond (heaterFields u.hh.failed u.hh.cnt) u) := by
  rw [exec, execHeaterCheck, currentStatus_statusBits]

/-- A low check below the threshold is counted, and no more (R76). -/
theorem heaterCheckState_low_of_below (hfailed : s.hh.failed = false)
    (hbelow : s.hh.cnt.toNat + 1 < s.cfg.heaterFaultMax.toNat) :
    (heaterCheckState true true s).hh.failed = false ∧
      (heaterCheckState true true s).hh.cnt.toNat = s.hh.cnt.toNat + 1 ∧ (heaterCheckState true true s).sh = s.sh := by
  have hcount : (heaterCount true true s.hh.cnt).toNat = s.hh.cnt.toNat + 1 := by
    rw [heaterCount, Bool.and_self, if_pos rfl, satInc32_toNat]
    omega
  rw [heaterCheckState_spec]
  simp [hfailed, hcount, Nat.not_le_of_lt hbelow]

/-- A low check that reaches the threshold latches HH.FAILED with HEATER_FAILURE, and leaves SH.SAFE 0 (R76). -/
theorem heaterCheckState_low_of_max (hfailed : s.hh.failed = false)
    (hmax : s.cfg.heaterFaultMax.toNat ≤ s.hh.cnt.toNat + 1) :
    (heaterCheckState true true s).hh.failed = true ∧ (heaterCheckState true true s).sh.safe = false ∧
      (heaterCheckState true true s).evt.getLsbD 2 = true := by
  have hcount : s.cfg.heaterFaultMax.toNat ≤ (heaterCount true true s.hh.cnt).toNat := (le_satInc32_iff _ _).2 hmax
  rw [heaterCheckState_spec]
  simp [hfailed, hcount, eventBit]

/-- The first of a run of low checks. -/
theorem lowChecks_of_cons {x : F32 × CurrentStatus} {xs : List (F32 × CurrentStatus)} {t : State}
    (h : lowChecks (x :: xs) s = some t) : ∃ r, lowChecks xs (respondWith r [] (heaterCheckState true true s)) = some t := by
  obtain ⟨pwr, st⟩ := x
  rw [lowChecks] at h
  split at h
  · next hlow =>
    rw [exec_heaterCheck_statusBits, hlow] at h
    exact ⟨_, h⟩
  · cases h

/-- Low checks from any count below the threshold: they latch when the count reaches it, and not before. -/
theorem lowChecks_latch {xs : List (F32 × CurrentStatus)} {t : State} (hfailed : s.hh.failed = false)
    (hbelow : s.hh.cnt.toNat < s.cfg.heaterFaultMax.toNat) (h : lowChecks xs s = some t) :
    (s.hh.cnt.toNat + xs.length < s.cfg.heaterFaultMax.toNat →
      t.hh.failed = false ∧ t.hh.cnt.toNat = s.hh.cnt.toNat + xs.length ∧ t.sh = s.sh) ∧
    (s.hh.cnt.toNat + xs.length = s.cfg.heaterFaultMax.toNat →
      t.hh.failed = true ∧ t.sh.safe = false ∧ t.evt.getLsbD 2 = true) := by
  induction xs generalizing s with
  | nil =>
    cases h
    exact ⟨fun _ => ⟨hfailed, rfl, rfl⟩, fun hlen => absurd hlen hbelow.ne⟩
  | cons x xs ih =>
    obtain ⟨r, hrest⟩ := lowChecks_of_cons h
    have hcfg : (heaterCheckState true true s).cfg = s.cfg := by rw [heaterCheckState_spec]
    rw [List.length_cons]
    by_cases hlast : s.hh.cnt.toNat + 1 < s.cfg.heaterFaultMax.toNat
    · obtain ⟨hfailed', hcount, hsh⟩ := heaterCheckState_low_of_below hfailed hlast
      have hih := ih (s := respondWith r [] (heaterCheckState true true s)) hfailed' (by simpa [hcount, hcfg]) hrest
      simp only [respondWith_sh, respondWith_hh, respondWith_cfg, hcfg, hcount, hsh] at hih
      rwa [Nat.add_assoc, Nat.add_comm 1] at hih
    · have hmax := heaterCheckState_low_of_max hfailed (Nat.le_of_not_lt hlast)
      refine ⟨fun hlen => by omega, fun hlen => ?_⟩
      obtain rfl : xs = [] := List.length_eq_zero_iff.1 (by omega)
      cases hrest
      exact hmax

end

/-- Settles O43: a legal CST names a status, whose check is written out by `heaterCheckState_spec`. -/
theorem heaterCheckCountsAndLatches : Obligations.HeaterCheckCountsAndLatches := by
  intro s pwr on cst
  refine ⟨fun hcst => ?_, rfl⟩
  obtain ⟨st, rfl⟩ := exists_statusBits_eq hcst
  intro low cnt
  have hlow : lowPower s.cfg pwr st = low := lowPower_eq_ite s.cfg pwr st
  have hcnt : heaterCount on low s.hh.cnt = cnt := by
    simp only [heaterCount, Bool.and_eq_true]
    rfl
  rw [exec_heaterCheck_statusBits, hlow, heaterCheckState_spec, hcnt]
  rfl

/-- Settles O44: the clear writes HH alone. -/
theorem heaterResetClearsTheLatch : Obligations.HeaterResetClearsTheLatch := fun _ => rfl

/-- Settles O45: the run of low checks from count 0, below the threshold of a well-formed configuration. -/
theorem nLowChecksLatchTheHeater : Obligations.NLowChecksLatchTheHeater := by
  intro xs s t hc hclear h
  obtain ⟨-, -, -, -, hmax, -⟩ := cfgWf_times hc
  have hlatch := lowChecks_latch (by rw [hclear]) (by rw [hclear]; exact hmax) h
  simpa [hclear] using hlatch

end Sys2Proof.Machine
end

section
/-! The arbiter: its next state, its duty, and the heater command (44_arbiter.md R78 to R80). -/

namespace Sys2Proof.Machine

section
variable (c : Cfg) (ss hs : Bool) (spt tt : Tenths)

/-- Over the margin the arbiter cuts off, once the operands are safe (R78). -/
theorem arbNext_eq_soc_iff : arbNext c ss hs spt tt = .soc ↔
    (ss && hs) = true ∧ spt.toInt + c.overshootMargin.toInt < tt.toInt := by
  unfold arbNext
  split
  · split <;> simp_all
  · simp_all

/-- At the margin the arbiter is still in Safe-Normal (R78). -/
theorem arbNext_eq_sn_iff : arbNext c ss hs spt tt = .sn ↔
    (ss && hs) = true ∧ tt.toInt ≤ spt.toInt + c.overshootMargin.toInt := by
  unfold arbNext
  split
  · split <;> simp_all
  · simp_all

end

theorem arbDuty_of_ne_sn (c : Cfg) (now : U32) {st : ArbState} (tt : Tenths) (r : Pid) (h : st ≠ .sn) :
    arbDuty c now st tt r = (pidClear r, 0#32) := by
  rcases arbDuty_cases c now st tt r with ⟨hsn, -⟩ | ⟨-, he⟩
  · exact absurd hsn h
  · exact he

/-- What PidCore answers is +0.0 while disabled, and else the PID.LOUT that it leaves (R63). -/
theorem pidCore_output (c : Cfg) (now : U32) (pv : F32) (r : Pid) :
    (pidCore c now pv r).2 = 0#32 ∨ (pidCore c now pv r).2 = (pidCore c now pv r).1.lout := by
  rcases pidCore_cases c now pv r with ⟨-, h⟩ | ⟨-, -, h⟩ | ⟨-, -, h⟩ <;> rw [h]
  · exact .inl rfl
  · exact .inr rfl
  · exact .inr rfl

/-- The duty is +0.0, or the PID.LOUT that the step leaves (R79). -/
theorem arbDuty_output (c : Cfg) (now : U32) (st : ArbState) (tt : Tenths) (r : Pid) :
    (arbDuty c now st tt r).2 = 0#32 ∨ (arbDuty c now st tt r).2 = (arbDuty c now st tt r).1.lout := by
  rcases arbDuty_cases c now st tt r with ⟨-, h⟩ | ⟨-, h⟩ <;> rw [h]
  · exact pidCore_output c now (celsius tt) r
  · exact .inl rfl

/-- A value between two finite ones is finite: the infinities lie outside, and a NaN is not comparable. -/
theorem finiteField_of_within {b lo hi : F32} {g k : Bool} {m n : Nat} (hlo : f32Datum lo = .fin g m)
    (hhi : f32Datum hi = .fin k n) (h : f32Within b (f32Datum lo) (f32Datum hi) = true) : finiteField b = true := by
  obtain ⟨-, -, -, hnegInf⟩ := f32Order_fin_inf hlo
  obtain ⟨-, -, hposInf, -⟩ := f32Order_fin_inf hhi
  rw [f32Within, hlo, hhi, Bool.and_eq_true, f32Ge] at h
  obtain ⟨hge, hle⟩ := h
  unfold finiteField
  generalize f32Datum b = x at hge hle ⊢
  cases x with
  | nan => simp at hge
  | inf neg =>
    cases neg
    · exact absurd hle (Bool.eq_false_iff.1 hposInf)
    · exact absurd hge (Bool.eq_false_iff.1 hnegInf)
  | fin neg mag => rfl

/-- A duty that may be applied is finite, as OUT_MIN and OUT_MAX are (R8). -/
theorem finiteField_of_dutyOk {c : Cfg} {duty : F32} (hc : cfgWf c = true) (h : dutyOk c duty) : finiteField duty = true := by
  obtain ⟨⟨g, m, hmin⟩, ⟨k, n, hmax⟩, -, -⟩ := cfgWf_numbers hc
  rcases h with rfl | h
  · decide
  · exact finiteField_of_within hmin hmax h

section
variable {s : State} {ss hs : Bool} {spt tt : Tenths}

/-- Outside Safe-Normal the step clears the PID and writes and answers the duty +0.0 (R79). -/
theorem exec_arbiterStep_of_ne_sn {st : ArbState} (h : arbNext s.cfg ss hs spt tt = st) (hst : st ≠ .sn) :
    exec (.arbiterStep ss hs spt tt) s = .next (respondWith (0x00#8 ++ arbiterFields st (ss && hs) 0#32) []
      ((s.withPid (pidClear s.pid)).withArb ⟨st, 0#32, ss && hs⟩)) := by
  rw [exec_arbiterStep, h]
  dsimp only
  rw [arbDuty_of_ne_sn _ _ _ _ hst]

/-- Safe and within the margin, the step applies PidCore of the temperature (R79). -/
theorem exec_arbiterStep_of_within (h : tt.toInt ≤ spt.toInt + s.cfg.overshootMargin.toInt) :
    let q := pidCore s.cfg s.env.now (celsius tt) s.pid
    exec (.arbiterStep true true spt tt) s = .next (respondWith (0x00#8 ++ arbiterFields .sn true q.2) []
      ((s.withPid q.1).withArb ⟨.sn, q.2, true⟩)) := by
  rw [exec_arbiterStep, (arbNext_eq_sn_iff s.cfg true true spt tt).2 ⟨rfl, h⟩]
  rfl

end

/-- Settles O46: each state of `arbNext` by its own condition. -/
theorem arbiterNextState : Obligations.ArbiterNextState := by
  intro s ss hs spt tt
  refine ⟨_, exec_arbiterStep ss hs spt tt s, rfl, (arbNext_eq_u_iff s.cfg ss hs spt tt).trans ?u,
    (arbNext_eq_soc_iff s.cfg ss hs spt tt).trans ?soc, (arbNext_eq_sn_iff s.cfg ss hs spt tt).trans ?sn⟩
  case u => exact Bool.and_eq_false_iff
  case soc => rw [Bool.and_eq_true, and_assoc]
  case sn => rw [Bool.and_eq_true, and_assoc]

/-- Settles O47: U and SOC are both outside Safe-Normal. -/
theorem arbiterForcesZeroOutsideSafeNormal : Obligations.ArbiterForcesZeroOutsideSafeNormal := by
  intro s ss hs spt tt pid
  constructor
  · intro hunsafe
    have hst := (arbNext_eq_u_iff s.cfg ss hs spt tt).2 hunsafe
    rw [exec_arbiterStep_of_ne_sn hst nofun, hunsafe]
    rfl
  · intro hover
    have hst := (arbNext_eq_soc_iff s.cfg true true spt tt).2 ⟨rfl, hover⟩
    rw [exec_arbiterStep_of_ne_sn hst nofun]
    rfl

/-- Settles O48: both commands apply the one PidCore of the temperature in °C. -/
theorem arbiterAppliesThePidInSafeNormal : Obligations.ArbiterAppliesThePidInSafeNormal := by
  intro s spt tt hwithin pv
  exact ⟨_, _, exec_pidCompute pv s, rfl, exec_arbiterStep_of_within hwithin⟩

/-- Settles O49: of the two cases of ARB, the write is ARBITER_STEP's. -/
theorem onlyTheArbiterWritesTheHeaterCommand : Obligations.OnlyTheArbiterWritesTheHeaterCommand := by
  intro i s t h hne
  obtain harb | ⟨ss, hs, spt, tt, -, hi, -⟩ := exec_arb_cases h
  · exact harb
  · exact absurd hi (hne ss hs spt tt)

/-- Settles O50: the duty is +0.0 or the PID.LOUT after the step, on which the step keeps invariant (2); not safe is U, where it
is +0.0. -/
theorem everyDutyIsSafeToApply : Obligations.EveryDutyIsSafeToApply := by
  intro s ss hs spt tt hinv
  have he := exec_arbiterStep ss hs spt tt s
  have hok : dutyOk s.cfg (arbDuty s.cfg s.env.now (arbNext s.cfg ss hs spt tt) tt s.pid).2 := by
    rcases arbDuty_output s.cfg s.env.now (arbNext s.cfg ss hs spt tt) tt s.pid with h | h <;> rw [h]
    · exact .inl rfl
    · exact (exec_keeps_inv hinv he).lastOutputClamped
  refine ⟨_, he, hok, finiteField_of_dutyOk hinv.configuration hok, fun hunsafe => ?_⟩
  have hst := (arbNext_eq_u_iff s.cfg ss hs spt tt).2 hunsafe
  exact congrArg Prod.snd (arbDuty_of_ne_sn s.cfg s.env.now tt s.pid (hst ▸ nofun))

end Sys2Proof.Machine
end

section
/-! One BUTTON_POLL (45_button.md R81 to R83): each step of the poll as one update of the button unit. -/

namespace Sys2Proof.Machine

section
variable {c : Cfg} {now : U32}

/-- The edge of a debounce, from whether it moves the debounced level, and to which level (R81). -/
def edgeTo (moves pr : Bool) : Edge := if moves then if pr then .press else .release else .none

/-- The debounce as one update of the button unit (R81). -/
theorem debounce_eq (pr : Bool) (b : Button) :
    let lct := if pr = b.raw then b.lct else now
    let moves := decide (c.debounceMs.toNat ≤ elapsed now lct) && pr != b.deb
    debounce c now pr b = ({ b with raw := pr, lct := lct, deb := if moves then pr else b.deb }, edgeTo moves pr) := by
  intro lct moves
  have hsample : sampleRaw now pr b = { b with raw := pr, lct := lct } := by
    by_cases h : pr = b.raw
    · subst h; simp [sampleRaw, lct]
    · simp [sampleRaw, lct, h]
  have hmoves : c.debounceMs.toNat ≤ elapsed now lct ∧ pr ≠ b.deb ↔ moves = true := by simp [moves]
  simp only [debounce, hsample, hmoves]
  cases moves <;> rfl

/-- Step 2 as one update of the button unit, by whether the repeat is due (R83). -/
theorem pollRepeat_eq (p : Poll) :
    let due := p.b.held && p.b.fast && decide (c.repeatMs.toNat ≤ elapsed now p.b.lft)
    pollRepeat c now p = ⟨{ p.b with
      sp := if due then incSetpoint c c.fastStep p.b.sp else p.b.sp
      lft := if due then now else p.b.lft }, p.changed || due⟩ := by
  intro due
  have hdue : p.b.held = true ∧ p.b.fast = true ∧ c.repeatMs.toNat ≤ elapsed now p.b.lft ↔ due = true := by
    simp [due, and_assoc]
  simp only [pollRepeat, hdue]
  cases due <;> simp [incBy]

/-- Step 3a as one update, by whether a press starts (R83). -/
theorem pollPress_eq (edge : Edge) (p : Poll) :
    let starts := decide (edge = .press) && !p.b.held && !p.b.fast
    pollPress now edge p = ⟨{ p.b with
      held := p.b.held || starts
      pst := if starts then now else p.b.pst }, p.changed⟩ := by
  intro starts
  have hstarts : edge = .press ∧ p.b.held = false ∧ p.b.fast = false ↔ starts = true := by simp [starts, and_assoc]
  simp only [pollPress, hstarts]
  cases starts <;> simp

/-- The increment of a release as one update, by whether it pays (R83). -/
theorem releaseInc_eq (p : Poll) :
    let pays := p.b.held && !p.b.fast
    let step := if elapsed now p.b.pst < c.holdMs.toNat then c.singleStep else c.fastStep
    releaseInc c now p = ⟨{ p.b with sp := if pays then incSetpoint c step p.b.sp else p.b.sp }, p.changed || pays⟩ := by
  intro pays step
  have hpays : p.b.held = true ∧ p.b.fast = false ↔ pays = true := by simp [pays]
  simp only [releaseInc, hpays, ← apply_ite (incBy c · p)]
  cases pays <;> simp [incBy, step]

/-- Step 3b as one update (R83). -/
theorem pollRelease_eq (edge : Edge) (p : Poll) :
    let release := decide (edge = .release)
    let pays := release && p.b.held && !p.b.fast
    let step := if elapsed now p.b.pst < c.holdMs.toNat then c.singleStep else c.fastStep
    pollRelease c now edge p = ⟨{ p.b with
      sp := if pays then incSetpoint c step p.b.sp else p.b.sp
      held := p.b.held && !release
      fast := p.b.fast && !release }, p.changed || pays⟩ := by
  by_cases h : edge = .release
  · simp [pollRelease, releaseInc_eq, h]
  · simp [pollRelease, h]

/-- Step 4 as one update, by whether the hold is due (R83). -/
theorem pollHold_eq (p : Poll) :
    let hold := p.b.held && !p.b.fast && p.b.deb && decide (c.holdMs.toNat ≤ elapsed now p.b.pst)
    pollHold c now p = ⟨{ p.b with
      fast := p.b.fast || hold
      sp := if hold then incSetpoint c c.fastStep p.b.sp else p.b.sp
      lft := if hold then now else p.b.lft }, p.changed || hold⟩ := by
  intro hold
  have hhold : p.b.held = true ∧ p.b.fast = false ∧ p.b.deb = true ∧ c.holdMs.toNat ≤ elapsed now p.b.pst ↔
      hold = true := by simp [hold, and_assoc]
  simp only [pollHold, hhold]
  cases hold <;> simp [incBy]

end

/-- Steps 3a and 3b exclude each other: a release sees BTN.HELD and BTN.PST as they were before step 3a (R83). -/
theorem pollRelease_pollPress_eq {c : Cfg} {now : U32} (moves pr : Bool) (p : Poll) :
    let starts := moves && pr && !p.b.held && !p.b.fast
    let release := moves && !pr
    let pays := release && p.b.held && !p.b.fast
    let step := if elapsed now p.b.pst < c.holdMs.toNat then c.singleStep else c.fastStep
    pollRelease c now (edgeTo moves pr) (pollPress now (edgeTo moves pr) p) = ⟨{ p.b with
      sp := if pays then incSetpoint c step p.b.sp else p.b.sp
      held := (p.b.held || starts) && !release
      pst := if starts then now else p.b.pst
      fast := p.b.fast && !release }, p.changed || pays⟩ := by
  intro starts release pays step
  rw [pollPress_eq, pollRelease_eq]
  cases moves with
  | false => simp [edgeTo, starts, release, pays]
  | true => cases pr <;> simp [edgeTo, starts, release, pays, step]

/-- Settles O51: the four steps of the poll after one another, each as one update of the button unit. -/
theorem buttonPollReportsTheSetpoint : Obligations.ButtonPollReportsTheSetpoint := by
  intro s c now b inc pr lct edge deb rep sp2 starts pst release pays sp3 held fast hold sp changed
  let lft := if rep then now else b.lft
  have hdebounce : debounce c now pr b = ({ b with raw := pr, deb := deb, lct := lct }, edgeTo edge pr) := debounce_eq pr b
  have hrepeat : pollRepeat c now ⟨{ b with raw := pr, deb := deb, lct := lct }, false⟩ =
      ⟨{ b with raw := pr, deb := deb, lct := lct, sp := sp2, lft := lft }, rep⟩ := pollRepeat_eq _
  have hedge : pollRelease c now (edgeTo edge pr) (pollPress now (edgeTo edge pr)
        ⟨{ b with raw := pr, deb := deb, lct := lct, sp := sp2, lft := lft }, rep⟩) =
      ⟨⟨pr, deb, lct, pst, held, fast, lft, sp3⟩, rep || pays⟩ := pollRelease_pollPress_eq edge pr _
  have hhold : pollHold c now ⟨⟨pr, deb, lct, pst, held, fast, lft, sp3⟩, rep || pays⟩ =
      ⟨⟨pr, deb, lct, pst, held, fast || hold, if hold then now else lft, sp⟩, changed⟩ := pollHold_eq _
  have hpoll : pollButton s.cfg s.env.now s.env.btnPin s.btn =
      ⟨⟨pr, deb, lct, pst, held, fast || hold, if hold then now else lft, sp⟩, changed⟩ := by
    calc pollButton s.cfg s.env.now s.env.btnPin s.btn
        = pollRest c now (debounce c now pr b).2 (debounce c now pr b).1 := rfl
      _ = _ := by rw [hdebounce, pollRest, hrepeat, hedge, hhold]
  have hlft : (if hold then now else lft) = if rep || hold then now else b.lft := by
    cases hold <;> simp [lft]
  refine (execButtonPoll_spec s).trans ?_
  rw [hpoll, hlft]

/-- An increment wraps past CFG.SP_MAX, and is the integer sum up to it (R82). -/
theorem incSetpoint_cases (c : Cfg) (step sp : Tenths) :
    (c.spMax.toInt < sp.toInt + step.toNat → incSetpoint c step sp = c.spMin) ∧
    (sp.toInt + step.toNat ≤ c.spMax.toInt → (incSetpoint c step sp).toInt = sp.toInt + step.toNat) := by
  refine ⟨fun h => if_pos h, fun h => ?_⟩
  have hmax := BitVec.toInt_lt (x := c.spMax)
  have hmin := BitVec.le_toInt (x := sp)
  rw [incSetpoint, if_neg (by omega), BitVec.toInt_ofInt]
  apply Int.bmod_eq_of_le <;> omega

/-- Settles O52: a repeat is due in Fast-Repeat only, the release pays from Pressed-Waiting only and leaves it, and the hold is
due in Pressed-Waiting only, so that the three increments exclude each other. -/
theorem atMostOneIncrementPerPoll : Obligations.AtMostOneIncrementPerPoll := by
  intro s _
  have h := buttonPollReportsTheSetpoint s
  extract_lets c now b inc pr lct edge deb rep sp2 starts pst release pays sp3 held fast hold sp changed at h
  have hrepeating : rep = true → b.fast = true := by simp +contextual [rep]
  have hreleased : pays = true → release = true := by simp +contextual [pays]
  have hnopay : rep = true → pays = false := fun hrep => by simp [pays, hrepeating hrep]
  have hnohold : rep = true ∨ pays = true → hold = false := by
    rintro (hrep | hpays)
    · simp +contextual [hold, held, fast, hrepeating hrep]
    · simp [hold, held, hreleased hpays]
  have hsp : sp = b.sp ∨ ∃ step ∈ [c.singleStep, c.fastStep], sp = inc step b.sp := by
    by_cases hrep : rep = true
    · exact .inr ⟨c.fastStep, by simp, by simp [sp, sp3, sp2, hrep, hnopay, hnohold]⟩
    by_cases hpays : pays = true
    · exact .inr ⟨if (now - b.pst).toNat < c.holdMs.toNat then c.singleStep else c.fastStep, by split <;> simp,
        by simp [sp, sp3, sp2, hrep, hpays, hnohold]⟩
    by_cases hhold : hold = true
    · exact .inr ⟨c.fastStep, by simp, by simp [sp, sp3, sp2, hrep, hpays, hhold]⟩
    · exact .inl (by simp [sp, sp3, sp2, hrep, hpays, hhold])
  refine ⟨_, h, hsp.imp_right fun ⟨step, hmem, hinc⟩ => ⟨step, hmem, ?_⟩⟩
  rw [show sp = incSetpoint c step b.sp from hinc]
  exact incSetpoint_cases c step b.sp

/-- Settles O53: the edge, which moves the debounced level to the raw one, is the condition on the right. -/
theorem debounceWaitsForAStableLevel : Obligations.DebounceWaitsForAStableLevel := by
  intro s
  have h := buttonPollReportsTheSetpoint s
  extract_lets c now b inc pr lct edge deb rep sp2 starts pst release pays sp3 held fast hold sp changed at h
  refine ⟨_, h, rfl, rfl, ?_⟩
  have hedge : edge = true ↔ pr ≠ b.deb ∧ c.debounceMs.toNat ≤ (now - lct).toNat := by simp [edge, and_comm]
  have hdeb : deb ≠ b.deb ↔ edge = true := by
    by_cases hmoves : edge = true
    · simpa [deb, hmoves] using (hedge.1 hmoves).1
    · simp [deb, hmoves]
  exact hdeb.trans hedge

end Sys2Proof.Machine
end

section
/-! A press over many polls (45_button.md R84): what one poll does in each state of the press-type machine, and the increments of
a press that is polled periodically. -/

namespace Sys2Proof.Machine

section
variable {c : Cfg} {now start last : U32} {pin : Bool} {b : Button}

/-- Pressed-Waiting since `start`, the debounced level pressed. -/
structure Waiting (start : U32) (b : Button) : Prop where
  held : b.held = true
  notFast : b.fast = false
  debounced : b.deb = true
  since : b.pst = start

/-- Fast-Repeat, the last fast increment at `last`. -/
structure Repeating (last : U32) (b : Button) : Prop where
  held : b.held = true
  fast : b.fast = true
  since : b.lft = last

/-- Idle: neither flag is set. -/
structure Idle (b : Button) : Prop where
  notHeld : b.held = false
  notFast : b.fast = false

/-- Before the hold threshold a poll changes nothing, and the release pays the single increment. -/
theorem Waiting.poll_before_hold (h : Waiting start b) (hlt : elapsed now start < c.holdMs.toNat) :
    let edge := (debounce c now (pressed c pin) b).2
    let p := pollButton c now pin b
    (edge = .none → Waiting start p.b ∧ p.b.sp = b.sp ∧ p.changed = false) ∧
    (edge = .release → Idle p.b ∧ p.b.sp = incSetpoint c c.singleStep b.sp ∧ p.changed = true) := by
  obtain ⟨hheld, hnotFast, hdebounced, rfl⟩ := h
  obtain ⟨eheld, efast, epst, -, esp, edeb, -⟩ := debounce_edge c now (pressed c pin) b
  obtain ⟨enone, erelease⟩ := pollRest_waiting (c := c) (now := now) (eheld.trans hheld) (efast.trans hnotFast)
  constructor <;> intro hedge <;> rw [pollButton_eq, hedge]
  · rw [enone, epst, if_neg (by omega)]
    exact ⟨⟨eheld.trans hheld, efast.trans hnotFast, (edeb hedge).trans hdebounced, epst⟩, esp, rfl⟩
  · rw [erelease, epst, esp, if_pos hlt]
    exact ⟨⟨rfl, efast.trans hnotFast⟩, rfl, rfl⟩

/-- From the hold threshold on a poll pays one fast increment: it enters Fast-Repeat, or the release compensates. -/
theorem Waiting.poll_from_hold (h : Waiting start b) (hle : c.holdMs.toNat ≤ elapsed now start) :
    let edge := (debounce c now (pressed c pin) b).2
    let p := pollButton c now pin b
    (edge = .none → Repeating now p.b ∧ p.b.sp = incSetpoint c c.fastStep b.sp ∧ p.changed = true) ∧
    (edge = .release → Idle p.b ∧ p.b.sp = incSetpoint c c.fastStep b.sp ∧ p.changed = true) := by
  obtain ⟨hheld, hnotFast, hdebounced, rfl⟩ := h
  obtain ⟨eheld, efast, epst, -, esp, edeb, -⟩ := debounce_edge c now (pressed c pin) b
  obtain ⟨enone, erelease⟩ := pollRest_waiting (c := c) (now := now) (eheld.trans hheld) (efast.trans hnotFast)
  constructor <;> intro hedge <;> rw [pollButton_eq, hedge]
  · rw [enone, epst, esp, if_pos ⟨(edeb hedge).trans hdebounced, hle⟩]
    exact ⟨⟨eheld.trans hheld, rfl, rfl⟩, rfl, rfl⟩
  · rw [erelease, epst, esp, if_neg (by omega)]
    exact ⟨⟨rfl, efast.trans hnotFast⟩, rfl, rfl⟩

/-- Within the repeat interval a poll makes no increment, nor does the release. -/
theorem Repeating.poll_within_interval (h : Repeating last b) (hlt : elapsed now last < c.repeatMs.toNat) :
    let edge := (debounce c now (pressed c pin) b).2
    let p := pollButton c now pin b
    (edge = .none → Repeating last p.b ∧ p.b.sp = b.sp ∧ p.changed = false) ∧
    (edge = .release → Idle p.b ∧ p.b.sp = b.sp ∧ p.changed = false) := by
  obtain ⟨hheld, hfast, rfl⟩ := h
  obtain ⟨eheld, efast, -, elft, esp, -⟩ := debounce_edge c now (pressed c pin) b
  obtain ⟨enone, erelease⟩ := pollRest_fast (c := c) (now := now) (eheld.trans hheld) (efast.trans hfast)
  rw [elft, if_neg (by omega)] at enone erelease
  constructor <;> intro hedge <;> rw [pollButton_eq, hedge]
  · rw [enone]
    exact ⟨⟨eheld.trans hheld, efast.trans hfast, elft⟩, esp, rfl⟩
  · rw [erelease]
    exact ⟨⟨rfl, rfl⟩, esp, rfl⟩

/-- At the end of the repeat interval a poll makes the fast increment that is due, the release poll too. -/
theorem Repeating.poll_due (h : Repeating last b) (hle : c.repeatMs.toNat ≤ elapsed now last) :
    let edge := (debounce c now (pressed c pin) b).2
    let p := pollButton c now pin b
    (edge = .none → Repeating now p.b ∧ p.b.sp = incSetpoint c c.fastStep b.sp ∧ p.changed = true) ∧
    (edge = .release → Idle p.b ∧ p.b.sp = incSetpoint c c.fastStep b.sp ∧ p.changed = true) := by
  obtain ⟨hheld, hfast, rfl⟩ := h
  obtain ⟨eheld, efast, -, elft, esp, -⟩ := debounce_edge c now (pressed c pin) b
  obtain ⟨enone, erelease⟩ := pollRest_fast (c := c) (now := now) (eheld.trans hheld) (efast.trans hfast)
  rw [elft, esp, if_pos hle] at enone erelease
  constructor <;> intro hedge <;> rw [pollButton_eq, hedge]
  · rw [enone]
    exact ⟨⟨eheld.trans hheld, efast.trans hfast, rfl⟩, rfl, rfl⟩
  · rw [erelease]
    exact ⟨⟨rfl, rfl⟩, rfl, rfl⟩

end

/-- Polls that end in Idle at the setpoint `sp`, after `n` increments. -/
structure EndsIdle (q : Button × Nat) (n : Nat) (sp : Tenths) : Prop where
  increments : q.2 = n
  setpoint : q.1.sp = sp
  idle : Idle q.1

section
variable {c : Cfg} {now : U32} {pin : Bool} {b : Button} {rest : List (U32 × Bool)} {n : Nat} {sp : Tenths}

theorem Idle.endsIdle (h : Idle b) (hsp : b.sp = sp) : EndsIdle (pollsOf c [] b) 0 sp := ⟨rfl, hsp, h⟩

theorem EndsIdle.after_no_increment (h : EndsIdle (pollsOf c rest (pollButton c now pin b).b) n sp)
    (hchanged : (pollButton c now pin b).changed = false) : EndsIdle (pollsOf c ((now, pin) :: rest) b) n sp := by
  obtain ⟨hn, hsp, hidle⟩ := h
  refine ⟨?_, hsp, hidle⟩
  simp [pollsOf, hchanged, hn]

theorem EndsIdle.after_increment (h : EndsIdle (pollsOf c rest (pollButton c now pin b).b) n sp)
    (hchanged : (pollButton c now pin b).changed = true) : EndsIdle (pollsOf c ((now, pin) :: rest) b) (n + 1) sp := by
  obtain ⟨hn, hsp, hidle⟩ := h
  refine ⟨?_, hsp, hidle⟩
  simp [pollsOf, hchanged, hn, Nat.add_comm]

end

section
/-! A press polled periodically: its time is counted in polls (45_button.md R84). -/
variable {c : Cfg} {start : U32} {P : Nat}

/-- The time of the `k`-th periodic poll. -/
def pollTime (start : U32) (P k : Nat) : U32 := start + BitVec.ofNat 32 (k * P)

theorem pollTime_zero (start : U32) (P : Nat) : pollTime start P 0 = start := by simp [pollTime]

/-- The time between two polls, whatever wraps of NOW lie between them (R15). -/
theorem elapsed_pollTime {j k : Nat} (hjk : j ≤ k) (hk : k * P < 2 ^ 32) :
    elapsed (pollTime start P k) (pollTime start P j) = (k - j) * P := by
  have hle : j * P ≤ k * P := Nat.mul_le_mul_right P hjk
  have hj : (BitVec.ofNat 32 (j * P)).toNat = j * P := by simpa using hle.trans_lt hk
  have hk : (BitVec.ofNat 32 (k * P)).toNat = k * P := by simpa using hk
  rw [elapsed, pollTime, pollTime, add_sub_add_left_eq_sub, BitVec.toNat_sub_of_le (by rwa [BitVec.le_def, hj, hk]), hj, hk,
    Nat.sub_mul]

/-- A threshold of `n` polls is reached on the `n`-th poll. -/
theorem mul_le_elapsed_pollTime_iff {j k n : Nat} (hP : 0 < P) (hjk : j ≤ k) (hk : k * P < 2 ^ 32) :
    n * P ≤ elapsed (pollTime start P k) (pollTime start P j) ↔ j + n ≤ k := by
  rw [elapsed_pollTime hjk hk, Nat.mul_le_mul_right_iff hP]
  omega

/-- Periodic polls after the `k`-th one from the button unit `b`: no edge until the last poll, which sees the release. -/
inductive Press (c : Cfg) (start : U32) (P : Nat) : Nat → List Bool → Button → Prop
  | release {k : Nat} {pin : Bool} {b : Button} :
    (debounce c (pollTime start P (k + 1)) (pressed c pin) b).2 = .release → Press c start P k [pin] b
  | hold {k : Nat} {pin : Bool} {pins : List Bool} {b : Button} :
    (debounce c (pollTime start P (k + 1)) (pressed c pin) b).2 = .none →
    Press c start P (k + 1) pins (pollButton c (pollTime start P (k + 1)) pin b).b → Press c start P k (pin :: pins) b

/-- A press, from the edges that its polls report. -/
theorem press_of_edgesOf {pins : List Bool} {k : Nat} {b : Button}
    (h : edgesOf c (periodicPolls start P k pins) b = List.replicate (pins.length - 1) .none ++ [.release]) :
    Press c start P k pins b := by
  induction pins generalizing k b with
  | nil => cases h
  | cons pin pins ih =>
    cases pins with
    | nil => exact .release (List.cons.inj h).1
    | cons pin' pins =>
      obtain ⟨hnone, hrest⟩ := List.cons.inj h
      exact .hold hnone (ih hrest)

/-- A poll goes from the polls to come to the polls made. -/
theorem add_length_cons (k : Nat) (pin : Bool) (pins : List Bool) : k + (pin :: pins).length = k + 1 + pins.length := by
  rw [List.length_cons]
  omega

/-- A release before the hold threshold: one single increment. -/
theorem Press.endsIdle_of_short {pins : List Bool} {k : Nat} {b : Button} (h : Press c start P k pins b)
    (hb : Waiting (pollTime start P 0) b) (hshort : (k + pins.length) * P < c.holdMs.toNat) :
    EndsIdle (pollsOf c (periodicPolls start P k pins) b) 1 (incSetpoint c c.singleStep b.sp) := by
  induction h with
  | @release k pin b hedge =>
    rw [List.length_singleton] at hshort
    have hlt : elapsed (pollTime start P (k + 1)) (pollTime start P 0) < c.holdMs.toNat := by
      rwa [elapsed_pollTime (Nat.zero_le _) (hshort.trans c.holdMs.isLt)]
    obtain ⟨hidle, hsp, hchanged⟩ := (hb.poll_before_hold hlt).2 hedge
    exact (hidle.endsIdle hsp).after_increment hchanged
  | @hold k pin pins b hedge _ ih =>
    rw [add_length_cons] at hshort
    have hk : (k + 1) * P < c.holdMs.toNat := (Nat.mul_le_mul_right P (Nat.le_add_right ..)).trans_lt hshort
    have hlt : elapsed (pollTime start P (k + 1)) (pollTime start P 0) < c.holdMs.toNat := by
      rwa [elapsed_pollTime (Nat.zero_le _) (hk.trans c.holdMs.isLt)]
    obtain ⟨hwaiting, hsp, hchanged⟩ := (hb.poll_before_hold hlt).1 hedge
    exact hsp ▸ (ih hwaiting hshort).after_no_increment hchanged

section
variable {m r : Nat} (hP : 0 < P) (hr : c.repeatMs.toNat = r * P)
include hP hr

/-- In Fast-Repeat, with the last fast increment at the `j`-th poll: one for each whole repeat interval since, up to the
release poll. -/
theorem Press.endsIdle_of_repeating {pins : List Bool} {j k : Nat} {b : Button} (h : Press c start P k pins b)
    (hb : Repeating (pollTime start P j) b) (hjk : j ≤ k) (hkr : k < j + r) (hbound : (k + pins.length) * P < 2 ^ 32) :
    let n := (k + pins.length - j) / r
    EndsIdle (pollsOf c (periodicPolls start P k pins) b) n (fastIncrements c n b.sp) := by
  induction h generalizing j with
  | @release k pin b hedge =>
    have hdue := mul_le_elapsed_pollTime_iff (start := start) (n := r) hP (Nat.le_succ_of_le hjk) hbound
    rw [← hr] at hdue
    dsimp only [List.length_singleton]
    by_cases hjr : j + r ≤ k + 1
    · have hn : (k + 1 - j) / r = 1 := by
        rw [show k + 1 - j = r by omega, Nat.div_self (by omega)]
      obtain ⟨hidle, hsp, hchanged⟩ := (hb.poll_due (hdue.2 hjr)).2 hedge
      rw [hn]
      exact (hidle.endsIdle hsp).after_increment hchanged
    · have hn : (k + 1 - j) / r = 0 := Nat.div_eq_of_lt (by omega)
      obtain ⟨hidle, hsp, hchanged⟩ := (hb.poll_within_interval (Nat.lt_of_not_le (mt hdue.1 hjr))).2 hedge
      rw [hn]
      exact (hidle.endsIdle hsp).after_no_increment hchanged
  | @hold k pin pins b hedge _ ih =>
    rw [add_length_cons] at hbound ⊢
    have hk : (k + 1) * P < 2 ^ 32 := (Nat.mul_le_mul_right P (Nat.le_add_right ..)).trans_lt hbound
    have hdue := mul_le_elapsed_pollTime_iff (start := start) (n := r) hP (Nat.le_succ_of_le hjk) hk
    rw [← hr] at hdue
    by_cases hjr : j + r ≤ k + 1
    · have hn : (k + 1 + pins.length - j) / r = (k + 1 + pins.length - (k + 1)) / r + 1 := by
        rw [show k + 1 + pins.length - j = k + 1 + pins.length - (k + 1) + r by omega, Nat.add_div_right _ (by omega)]
      obtain ⟨hrepeating, hsp, hchanged⟩ := (hb.poll_due (hdue.2 hjr)).1 hedge
      have hrest := (ih hrepeating le_rfl (by omega) hbound).after_increment hchanged
      rw [hsp] at hrest
      dsimp only
      rw [hn]
      exact hrest
    · obtain ⟨hrepeating, hsp, hchanged⟩ := (hb.poll_within_interval (Nat.lt_of_not_le (mt hdue.1 hjr))).1 hedge
      exact hsp ▸ (ih hrepeating (by omega) (by omega) hbound).after_no_increment hchanged

/-- A release at or after the hold threshold, which the `m`-th poll reaches: one fast increment there, and one for each
whole repeat interval since. -/
theorem Press.endsIdle_of_long {pins : List Bool} {k : Nat} {b : Button} (hm : c.holdMs.toNat = m * P) (hrpos : 0 < r)
    (h : Press c start P k pins b) (hb : Waiting (pollTime start P 0) b) (hkm : k < m) (hlong : m ≤ k + pins.length)
    (hbound : (k + pins.length) * P < 2 ^ 32) :
    let n := (k + pins.length - m) / r + 1
    EndsIdle (pollsOf c (periodicPolls start P k pins) b) n (fastIncrements c n b.sp) := by
  induction h with
  | @release k pin b hedge =>
    have hpast := mul_le_elapsed_pollTime_iff (start := start) (n := m) hP (Nat.zero_le (k + 1)) hbound
    rw [← hm, Nat.zero_add] at hpast
    have hn : (k + 1 - m) / r = 0 := Nat.div_eq_of_lt (by omega)
    obtain ⟨hidle, hsp, hchanged⟩ := (hb.poll_from_hold (hpast.2 hlong)).2 hedge
    dsimp only [List.length_singleton]
    rw [hn]
    exact (hidle.endsIdle hsp).after_increment hchanged
  | @hold k pin pins b hedge hpress ih =>
    rw [add_length_cons] at hlong hbound ⊢
    have hk : (k + 1) * P < 2 ^ 32 := (Nat.mul_le_mul_right P (Nat.le_add_right ..)).trans_lt hbound
    have hpast := mul_le_elapsed_pollTime_iff (start := start) (n := m) hP (Nat.zero_le (k + 1)) hk
    rw [← hm, Nat.zero_add] at hpast
    by_cases hmk : m ≤ k + 1
    · obtain rfl : m = k + 1 := by omega
      obtain ⟨hrepeating, hsp, hchanged⟩ := (hb.poll_from_hold (hpast.2 le_rfl)).1 hedge
      have hrest := (hpress.endsIdle_of_repeating hP hr hrepeating le_rfl (by omega) hbound).after_increment hchanged
      rwa [hsp] at hrest
    · obtain ⟨hwaiting, hsp, hchanged⟩ := (hb.poll_before_hold (Nat.lt_of_not_le (mt hpast.1 hmk))).1 hedge
      exact hsp ▸ (ih hwaiting (by omega) hlong hbound).after_no_increment hchanged

end
end

/-- Settles O54: with times in polls, HOLD_MS is `m` and REPEAT_MS is `r` of them, and the count is that of the whole press. -/
theorem longPressCountsFastIncrements : Obligations.LongPressCountsFastIncrements := by
  intro c b P pins hc hheld hfast hdeb hP hholdP hrepeatP hlong hbound hedges n q
  obtain ⟨m, hm⟩ := exists_eq_mul_left_of_dvd hholdP
  obtain ⟨r, hr⟩ := exists_eq_mul_left_of_dvd hrepeatP
  obtain ⟨-, hrepeat, hhold, -⟩ := cfgWf_times hc
  have hmpos : 0 < m := Nat.pos_of_mul_pos_right (hm ▸ hhold)
  have hrpos : 0 < r := Nat.pos_of_mul_pos_right (hr ▸ hrepeat)
  have hmle : m ≤ pins.length := Nat.le_of_mul_le_mul_right (hm ▸ hlong) hP
  have hn : n = (0 + pins.length - m) / r + 1 := by
    dsimp only [n]
    rw [hm, hr, ← Nat.sub_mul, Nat.mul_div_mul_right _ _ hP, Nat.zero_add, Nat.add_comm]
  rw [hn]
  obtain ⟨hcount, hsp, hidle, hidle'⟩ := (press_of_edgesOf hedges).endsIdle_of_long hP hr hm hrpos
    ⟨hheld, hfast, hdeb, (pollTime_zero ..).symm⟩ hmpos (by rwa [Nat.zero_add]) (by rwa [Nat.zero_add])
  exact ⟨hcount, hsp, hidle, hidle'⟩

/-- Settles O55: every poll before the release is before the hold threshold too. -/
theorem shortPressCountsOneSingleIncrement : Obligations.ShortPressCountsOneSingleIncrement := by
  intro c b P pins _ hheld hfast hdeb _ hshort hedges q
  obtain ⟨hcount, hsp, hidle, hidle'⟩ := (press_of_edgesOf hedges).endsIdle_of_short
    ⟨hheld, hfast, hdeb, (pollTime_zero ..).symm⟩ (by rwa [Nat.zero_add])
  exact ⟨hcount, hsp, hidle, hidle'⟩

end Sys2Proof.Machine
end

section
/-! The event register: what sets each bit of EVT, and the read that clears it (46_events.md R85, R86). -/

namespace Sys2Proof.Machine

/-- R85 on the registers before and after: each bit of EVT is set when its source is there, and else as before. The falls of
SH.SAFE and the rises of HH.FAILED are read off the registers; a failed read and an increment are the command's. -/
structure EventsFollow (readFailed incremented : Bool) (s t : State) : Prop where
  sensorFailure : t.evt.getLsbD 0 = (s.evt.getLsbD 0 || readFailed)
  enteredUnsafe : t.evt.getLsbD 1 = (s.evt.getLsbD 1 || (s.sh.safe && !t.sh.safe))
  heaterFailure : t.evt.getLsbD 2 = (s.evt.getLsbD 2 || (!s.hh.failed && t.hh.failed))
  setpointChanged : t.evt.getLsbD 3 = (s.evt.getLsbD 3 || incremented)

section
variable {s t : State}

/-- Nothing is emitted, and no source is there. -/
theorem eventsFollow_of_quiet (hevt : t.evt = s.evt) (hsafe : s.sh.safe = true → t.sh.safe = true)
    (hfailed : s.hh.failed = false → t.hh.failed = false) : EventsFollow false false s t := by
  have hfall : (s.sh.safe && !t.sh.safe) = false := by simpa using hsafe
  have hrise : (!s.hh.failed && t.hh.failed) = false := by simpa using hfailed
  constructor <;> simp [hevt, hfall, hrise]

/-- A response writes none of the registers spoken of. -/
theorem EventsFollow.respondWith {readFailed incremented : Bool} (h : EventsFollow readFailed incremented s t) (rsp : Frame)
    (dq : List DqEvent) : EventsFollow readFailed incremented s (respondWith rsp dq t) :=
  ⟨h.sensorFailure, h.enteredUnsafe, h.heaterFailure, h.setpointChanged⟩

/-- A read emits SENSOR_FAILURE when it fails, and ENTERED_UNSAFE when the failure trips SH.SAFE (R71). -/
theorem eventsFollow_sensorRead (s : State) :
    EventsFollow (decide ((decodeLine s.cfg s.env).err ≠ .ok)) false s (sensorRead s) := by
  by_cases herr : (decodeLine s.cfg s.env).err = .ok
  · rw [sensorRead_success herr, herr]
    exact eventsFollow_of_quiet rfl id id
  · rw [sensorRead_failure herr, recordFailure_spec]
    dsimp only
    split
    · next htrip =>
      rw [Bool.and_eq_true] at htrip
      constructor <;> simp [herr, htrip.1, eventBit]
    · constructor <;> simp [herr, eventBit]

/-- A bit of what is emitted under a condition. -/
theorem getLsbD_ite_eventBit (b : Bool) (e : Event) (k : Nat) :
    (if b then eventBit e else 0#4).getLsbD k = (b && (eventBit e).getLsbD k) := by
  cases b
  · exact BitVec.getLsbD_zero
  · rfl

/-- A check emits HEATER_FAILURE when it latches HH.FAILED, and ENTERED_UNSAFE when it forces SH.SAFE false (R76). -/
theorem eventsFollow_heaterCheckState (on low : Bool) (s : State) :
    EventsFollow false false s (heaterCheckState on low s) := by
  rw [heaterCheckState_spec]
  constructor <;> simp only [BitVec.getLsbD_or, getLsbD_ite_eventBit]
  case sensorFailure => simp [eventBit]
  case enteredUnsafe => cases s.sh.safe <;> simp [eventBit]
  case heaterFailure => cases s.hh.failed <;> simp [eventBit]
  case setpointChanged => simp [eventBit]

/-- SENSOR_UPDATE emits behind an open gate only (R71). -/
theorem exec_sensorUpdate_eventsFollow (h : exec .sensorUpdate s = .next t) :
    EventsFollow (readFails s.env s) false s t := by
  rw [readFails]
  by_cases hgate : sensorGateOpen s = true
  · cases Host.Outcome.next.inj ((execSensorUpdate_of_open hgate).symm.trans h)
    rw [hgate, Bool.true_and]
    exact (eventsFollow_sensorRead s).respondWith _ _
  · rw [Bool.not_eq_true] at hgate
    cases Host.Outcome.next.inj ((execSensorUpdate_of_gated hgate).symm.trans h)
    rw [hgate, Bool.false_and]
    exact eventsFollow_of_quiet rfl id id

/-- HEATER_CHECK emits as its check does, and with CST = 3 emits nothing (R75, R85). -/
theorem exec_heaterCheck_eventsFollow {pwr : F32} {on : Bool} {cst : BitVec 2}
    (h : exec (.heaterCheck pwr on cst) s = .next t) : EventsFollow false false s t := by
  rw [exec, execHeaterCheck] at h
  split at h
  · cases Host.Outcome.next.inj h
    exact eventsFollow_of_quiet rfl id id
  · next st _ =>
    cases Host.Outcome.next.inj h
    exact (eventsFollow_heaterCheckState on (lowPower s.cfg pwr st) s).respondWith _ _

/-- BUTTON_POLL emits SETPOINT_CHANGED when it increments (R82). -/
theorem exec_buttonPoll_eventsFollow (h : exec .buttonPoll s = .next t) :
    EventsFollow false (pollButton s.cfg s.env.now s.env.btnPin s.btn).changed s t := by
  cases Host.Outcome.next.inj ((execButtonPoll_spec s).symm.trans h)
  cases (pollButton s.cfg s.env.now s.env.btnPin s.btn).changed <;> constructor <;> simp

section
variable {i : Instr} (h : exec i s = .next t) (hsensor : i ≠ .sensorUpdate) (hheater : ∀ p o c, i ≠ .heaterCheck p o c)
  (hbutton : i ≠ .buttonPoll) (hevents : i ≠ .eventsRead)
include h hsensor hheater hbutton hevents

/-- No other command writes EVT (R85). -/
theorem exec_evt_eq : t.evt = s.evt := by
  obtain ⟨u, -, -, hw, rfl⟩ := exec_writes h
  cases hw with
  | sensorRead => exact absurd rfl hsensor
  | heaterCheck pwr on cst _ => exact absurd rfl (hheater pwr on cst)
  | button => exact absurd rfl hbutton
  | events => exact absurd rfl hevents
  | _ => simp

/-- Every other command is quiet: SH.SAFE falls, and HH.FAILED rises, only by the commands left out (R21). -/
theorem exec_other_eventsFollow : EventsFollow false false s t := by
  obtain ⟨-, hfall, -⟩ := exec_sensor_flags h
  obtain ⟨hrise, -⟩ := exec_heater_flag h
  have hnotHeater : ¬∃ p o c, i = .heaterCheck p o c := fun ⟨p, o, c, e⟩ => hheater p o c e
  refine eventsFollow_of_quiet (exec_evt_eq h hsensor hheater hbutton hevents) (fun hsafe => ?_) (fun hfailed => ?_)
  · by_contra hfell
    exact (hfall hsafe (Bool.eq_false_of_not_eq_true hfell)).elim hsensor hnotHeater
  · by_contra hrose
    exact hnotHeater (hrise hfailed (Bool.eq_true_of_not_eq_false hrose))

end

/-- Each command's events, those of the four that write EVT and those of the rest (R85). -/
theorem exec_eventsFollow {i : Instr} (h : exec i s = .next t) (hevents : i ≠ .eventsRead) :
    EventsFollow (decide (i = .sensorUpdate) && readFails s.env s)
      (decide (i = .buttonPoll) && (pollButton s.cfg s.env.now s.env.btnPin s.btn).changed) s t := by
  cases i with
  | sensorUpdate => exact exec_sensorUpdate_eventsFollow h
  | heaterCheck pwr on cst => exact exec_heaterCheck_eventsFollow h
  | buttonPoll => exact exec_buttonPoll_eventsFollow h
  | eventsRead => exact absurd rfl hevents
  | _ => exact exec_other_eventsFollow h nofun nofun nofun nofun

end

/-- Settles O57: the bits of `EventsFollow`, of which `exec_eventsFollow` says which command has which source. -/
theorem eventsComeFromTheirSources : Obligations.EventsComeFromTheirSources := by
  intro i s t h hevents
  obtain ⟨h0, h1, h2, h3⟩ := exec_eventsFollow h hevents
  exact ⟨h0, h1, h2, h3⟩

/-- Settles O56: the response is made from EVT as it was before the clear. -/
theorem eventsReadAnswersAndClears : Obligations.EventsReadAnswersAndClears := fun _ => rfl

end Sys2Proof.Machine
end

section
/-! The answer to an illegal frame (60_exceptions.md R87), and reset with what follows from it (70_reset_and_hazards.md R100,
R101). -/

namespace Sys2Proof.Machine

theorem step_of_illegalFrame {s : State} {f : Frame} {e : Env} {rest : List Delivery} (hc : cfgWf s.cfg = true)
    (hi : s.inbox = ⟨bytesOfFrame f, e⟩ :: rest) (hd : decode f = none) :
    step s = .next (illegalCommand (dropDelivery rest s)) := by
  rw [step_of_delivery hc hi, runDelivery, frameOfBytes_bytesOfFrame]
  simp only [hd]

/-- Settles O10: a frame that is no command drops its delivery and responds; one that is runs a well-formed command, which
answers with STATUS 0x00. -/
theorem illegalCommandChangesNothing : Obligations.IllegalCommandChangesNothing := by
  intro s f e rest hc hi
  refine ⟨step_of_illegalFrame hc hi, fun i hd => ?_⟩
  obtain ⟨hwf, -⟩ := decode_eq_some hd
  obtain ⟨t, r, he, -, -, hout, hanswer⟩ := exec_adds_response i { s with inbox := rest, env := e }
  refine ⟨t, r, (step_of_frame hc hi hd).trans he, hout, ?_⟩
  rcases hanswer with ⟨-, hstatus⟩ | ⟨hillFormed, -⟩
  · exact hstatus
  · cases hwf.symm.trans hillFormed

/-- Settles O15. -/
theorem resetMeetsTheInvariants : Obligations.ResetMeetsTheInvariants :=
  ⟨fun _ hc => inv_resetWith hc [], inv_resetWith (c := Cfg.ex) (by decide) []⟩

/-- Settles O17. -/
theorem resetValues : Obligations.ResetValues :=
  fun _ => ⟨rfl, rfl, rfl, rfl, rfl, rfl, rfl, rfl, rfl, rfl, fun hc => step_of_idle hc rfl⟩

/-- Two polls of a button at the active level, the first from a raw level of 0: the first starts the debounce window, and the
second, at its end or later, leaves the debounced level pressed (R81). -/
theorem buttonPoll_press {s : State} (hraw : s.btn.raw = false) (hpin : s.env.btnPin = s.cfg.btnActiveLevel) :
    ∃ t, exec .buttonPoll s = .next t ∧ t.btn.raw = true ∧ t.btn.lct = s.env.now ∧
      ∀ e : Env, e.btnPin = s.cfg.btnActiveLevel → s.cfg.debounceMs.toNat ≤ (e.now - s.env.now).toNat →
        ∃ u, exec .buttonPoll { t with env := e } = .next u ∧ u.btn.deb = true := by
  obtain ⟨t, ht, hrawT, hlctT, -⟩ := debounceWaitsForAStableLevel s
  rw [hpin, beq_self_eq_true] at hrawT hlctT
  rw [hraw, if_neg nofun] at hlctT
  refine ⟨t, ht, hrawT, hlctT, fun e hpinE hwindow => ?_⟩
  obtain ⟨u, hu, -, hlctU, hdebU⟩ := debounceWaitsForAStableLevel { t with env := e }
  refine ⟨u, hu, ?_⟩
  dsimp only at hlctU hdebU
  rw [exec_cfg ht, hpinE, beq_self_eq_true] at hlctU hdebU
  rw [hrawT, if_pos rfl] at hlctU
  rw [hlctU, hlctT] at hdebU
  cases hdebT : t.btn.deb with
  | false =>
    have hmoves := hdebU.2 ⟨by simp [hdebT], hwindow⟩
    simpa [hdebT] using hmoves
  | true => simpa [hdebT] using hdebU

/-- Settles O18: at reset both gates measure from time 0, the setpoint is the pattern of 0.0, and the raw level is 0. -/
theorem resetConsequences : Obligations.ResetConsequences := by
  intro c e hc s
  have hsince : elapsed e.now 0#32 = e.now.toNat := by simp [elapsed]
  refine ⟨fun hsample pv => ?pid, fun hinterval => ?sensor, fun _ pv => ?setpoint, buttonPoll_press (s := s) rfl⟩
  case pid =>
    have hrsp : 0x00#8 ++ pidFields 0#32 = 0#64 := by decide
    exact hrsp ▸ exec_pidCompute_of_gated (s := s) pv rfl (hsince.trans_lt hsample)
  case setpoint =>
    have hzero : f32Datum 0#32 = f32Zero := by decide
    exact congrArg (f32Sub · (f32Datum pv)) hzero
  case sensor =>
    have hrsp : 0x00#8 ++ sampleFields 0#16 0#16 = 0#64 := by decide
    have hgate : sensorGateOpen s = false := decide_eq_false (Nat.not_le_of_lt (hsince.trans_lt hinterval))
    exact hrsp ▸ execSensorUpdate_of_gated hgate

end Sys2Proof.Machine
end

section
/-! The host's sequences over `step`: a command issued, the control cycle (70_reset_and_hazards.md R103, R105, R106) and leaving
Unsafe (R109). -/

namespace Sys2Proof.Machine

@[simp] theorem lastRsp_respondWith (rsp : Frame) (dq : List DqEvent) (s : State) : lastRsp (respondWith rsp dq s) = rsp := by
  simp [lastRsp]

theorem heaterCheck_statusBits_wf (pwr : F32) (on : Bool) (st : CurrentStatus) :
    (Instr.heaterCheck pwr on (statusBits st)).wf = true := by
  cases st <;> rfl

section
variable {i : Instr} {s t : State}

/-- A command leaves the deliveries still to be made alone (R35). -/
theorem exec_inbox (h : exec i s = .next t) : t.inbox = s.inbox := by
  obtain ⟨t', -, h', -, -, hin, -⟩ := exec_next i s
  cases Host.Outcome.next.inj (h.symm.trans h')
  exact hin

/-- No invariant reads the environment. -/
theorem Inv.withEnv (h : Inv s) (e : Env) : Inv { s with env := e } := inv_iff.2 ((inv_iff (s := s)).1 h)

/-- The host issues a command, and the FDC runs it to its end (R5, R35). -/
theorem issue_completes (hi : i.wf = true) (e : Env) (hc : cfgWf s.cfg = true) :
    ∃ t, exec i { s with env := e } = .next t ∧ issue i e s = some t ∧ cfgWf t.cfg = true := by
  obtain ⟨t, -, he, hcfg, -⟩ := exec_next i { s with env := e }
  have hstep := step_of_frame (s := { s with inbox := deliver i e :: s.inbox }) hc rfl (decode_encode hi)
  refine ⟨t, he, ?_, hcfg ▸ hc⟩
  rw [issue, hstep, he, nextState]

/-- The third response of the cycle carries SH.SAFE (R50, R72). -/
theorem lastRsp_sensorIsSafe (h : exec .sensorIsSafe s = .next t) : (lastRsp t).getLsbD 0 = s.sh.safe := by
  cases Host.Outcome.next.inj h
  obtain ⟨-, -, -, hsafe, -⟩ := responseFieldPositions
  rw [respond_eq, lastRsp_respondWith]
  exact (hsafe s.sh.safe).2

/-- The second response of the cycle carries HH.FAILED (R50, R76). -/
theorem lastRsp_heaterCheck {pwr : F32} {on : Bool} {st : CurrentStatus}
    (h : exec (.heaterCheck pwr on (statusBits st)) s = .next t) : (lastRsp t).getLsbD 32 = t.hh.failed := by
  cases Host.Outcome.next.inj ((exec_heaterCheck_statusBits pwr on st s).symm.trans h)
  obtain ⟨-, -, -, -, hheater, -⟩ := responseFieldPositions
  rw [respond_eq, lastRsp_respondWith]
  exact (hheater _ _).2.1

section
variable {ss hs : Bool} {spt tt : Tenths}

/-- The fourth response of the cycle carries ARB.SAFE and ARB.DUTY (R50, R79). -/
theorem lastRsp_arbiterStep (h : exec (.arbiterStep ss hs spt tt) s = .next t) :
    (lastRsp t).getLsbD 32 = t.arb.safe ∧ (lastRsp t).extractLsb' 0 32 = t.arb.duty := by
  cases Host.Outcome.next.inj ((exec_arbiterStep ss hs spt tt s).symm.trans h)
  obtain ⟨-, -, -, -, -, harbiter, -⟩ := responseFieldPositions
  obtain ⟨-, -, hsafe, hduty⟩ := harbiter (arbNext s.cfg ss hs spt tt) (ss && hs)
    (arbDuty s.cfg s.env.now (arbNext s.cfg ss hs spt tt) tt s.pid).2
  rw [lastRsp_respondWith]
  exact ⟨hsafe, hduty⟩

/-- The arbiter's decision: overall_safe from the operands; not safe is U with the duty +0.0; and any other duty is the PID.LOUT
that the step leaves (R79). -/
theorem exec_arbiterStep_decides (h : exec (.arbiterStep ss hs spt tt) s = .next t) :
    t.arb.safe = (ss && hs) ∧ (t.arb.safe = false → t.arb.duty = 0#32 ∧ t.arb.st = .u) ∧
      (t.arb.duty = 0#32 ∨ t.arb.duty = t.pid.lout) := by
  cases Host.Outcome.next.inj ((exec_arbiterStep ss hs spt tt s).symm.trans h)
  refine ⟨rfl, fun hunsafe => ?_, arbDuty_output s.cfg s.env.now (arbNext s.cfg ss hs spt tt) tt s.pid⟩
  have hst := (arbNext_eq_u_iff s.cfg ss hs spt tt).2 hunsafe
  exact ⟨congrArg Prod.snd (arbDuty_of_ne_sn s.cfg s.env.now tt s.pid (hst ▸ nofun)), hst⟩

end

/-- A latch stays with every command but the one that clears it: HEATER_RESET and SENSOR_RECOVER (R21). -/
theorem exec_keeps_latched (h : exec i s = .next t) :
    (i ≠ .heaterReset → s.hh.failed = true → t.hh.failed = true) ∧
    (i ≠ .sensorRecover → s.sh.safe = false → t.sh.safe = false) := by
  obtain ⟨hrises, -⟩ := exec_sensor_flags h
  obtain ⟨-, hfalls⟩ := exec_heater_flag h
  constructor
  · intro hi hfailed
    by_contra hcleared
    exact hi (hfalls hfailed (Bool.eq_false_of_not_eq_true hcleared))
  · intro hi hunsafe
    by_contra hset
    exact hi (hrises hunsafe (Bool.eq_true_of_not_eq_false hset))

end

/-- The five commands of a control cycle from `s`, run one after the other, and the state after each of them (R103).
`controlCycle_runs` ties it to `controlCycle`. -/
structure CycleRun (x : CycleInput) (s s1 s2 s3 s4 s5 : State) : Prop where
  read : exec .sensorUpdate { s with env := x.env1 } = .next s1
  check : exec (.heaterCheck x.pwr x.onPrev (statusBits x.cst)) { s1 with env := x.env2 } = .next s2
  query : exec .sensorIsSafe { s2 with env := x.env3 } = .next s3
  arbiter : exec (.arbiterStep s2.sh.safe (!s2.hh.failed) x.sp ((lastRsp s1).extractLsb' 0 16))
    { s3 with env := x.env4 } = .next s4
  events : exec .eventsRead { s4 with env := x.env5 } = .next s5

section
variable {x : CycleInput} {s s1 s2 s3 s4 s5 : State}

/-- A control cycle completes, with the arbiter's registers as its result (R103). -/
theorem controlCycle_runs (x : CycleInput) (hc : cfgWf s.cfg = true) : ∃ s1 s2 s3 s4 s5, CycleRun x s s1 s2 s3 s4 s5 ∧
    controlCycle x s = some ⟨s5, s5.arb.duty, s5.arb.safe, (lastRsp s5).extractLsb' 0 4⟩ := by
  obtain ⟨s1, read, hread, hc1⟩ := issue_completes (i := .sensorUpdate) rfl x.env1 hc
  obtain ⟨s2, check, hcheck, hc2⟩ := issue_completes (heaterCheck_statusBits_wf x.pwr x.onPrev x.cst) x.env2 hc1
  obtain ⟨s3, query, hquery, hc3⟩ := issue_completes (i := .sensorIsSafe) rfl x.env3 hc2
  obtain ⟨s4, arbiter, harbiter, hc4⟩ := issue_completes
    (i := .arbiterStep s2.sh.safe (!s2.hh.failed) x.sp ((lastRsp s1).extractLsb' 0 16)) rfl x.env4 hc3
  obtain ⟨s5, events, hevents, -⟩ := issue_completes (i := .eventsRead) rfl x.env5 hc4
  refine ⟨s1, s2, s3, s4, s5, ⟨read, check, query, arbiter, events⟩, ?_⟩
  obtain ⟨hsafe, hduty⟩ := lastRsp_arbiterStep arbiter
  have harb : s5.arb = s4.arb := by cases Host.Outcome.next.inj events; rfl
  simp only [controlCycle, hread, hcheck, hquery, Option.bind_some, lastRsp_sensorIsSafe query, lastRsp_heaterCheck check,
    harbiter, hevents, hsafe, hduty, harb]

/-- What every command but HEATER_RESET and SENSOR_RECOVER keeps, a control cycle keeps. -/
theorem CycleRun.keeps (run : CycleRun x s s1 s2 s3 s4 s5) {P : State → Prop}
    (hP : ∀ {i u t} (e : Env), exec i { u with env := e } = .next t → i ≠ .heaterReset → i ≠ .sensorRecover →
      P u → P t) (h : P s) : P s5 :=
  hP _ run.events nofun nofun <| hP _ run.arbiter nofun nofun <| hP _ run.query nofun nofun <|
    hP _ run.check nofun nofun <| hP _ run.read nofun nofun h

/-- The cycle's decision is the arbiter's, on the latches as the cycle leaves them (R105). -/
theorem CycleRun.decides (run : CycleRun x s s1 s2 s3 s4 s5) :
    s5.arb.safe = (s5.sh.safe && !s5.hh.failed) ∧ (s5.arb.safe = false → s5.arb.duty = 0#32 ∧ s5.arb.st = .u) ∧
      (s5.arb.duty = 0#32 ∨ s5.arb.duty = s5.pid.lout) := by
  obtain ⟨hsh3, hhh3⟩ : s3.sh = s2.sh ∧ s3.hh = s2.hh := by
    cases Host.Outcome.next.inj run.query; exact ⟨rfl, rfl⟩
  obtain ⟨hsh4, hhh4⟩ : s4.sh = s3.sh ∧ s4.hh = s3.hh := by
    cases Host.Outcome.next.inj run.arbiter; exact ⟨rfl, rfl⟩
  obtain ⟨hsh5, hhh5, harb, hpid⟩ : s5.sh = s4.sh ∧ s5.hh = s4.hh ∧ s5.arb = s4.arb ∧ s5.pid = s4.pid := by
    cases Host.Outcome.next.inj run.events; exact ⟨rfl, rfl, rfl, rfl⟩
  rw [harb, hpid, hsh5, hhh5, hsh4, hhh4, hsh3, hhh3]
  exact exec_arbiterStep_decides run.arbiter

/-- A latch that stands when a cycle starts stands when it ends, so the cycle is not safe, in U, with the duty +0.0 (R91,
R105). -/
theorem controlCycle_of_latched (x : CycleInput) (hc : cfgWf s.cfg = true)
    (h : s.hh.failed = true ∨ s.sh.safe = false) :
    ∃ r, controlCycle x s = some r ∧ r.safe = false ∧ r.state.arb.st = .u ∧ r.duty = 0#32 := by
  obtain ⟨s1, s2, s3, s4, s5, run, hcycle⟩ := controlCycle_runs x hc
  have hlatched : s5.hh.failed = true ∨ s5.sh.safe = false := by
    refine run.keeps (P := fun u => u.hh.failed = true ∨ u.sh.safe = false) (fun e he hreset hrecover hu => ?_) h
    obtain ⟨hfailed, hunsafe⟩ := exec_keeps_latched he
    exact hu.imp (hfailed hreset) (hunsafe hrecover)
  obtain ⟨hsafe, hzero, -⟩ := run.decides
  have hnotSafe : s5.arb.safe = false := by
    rw [hsafe]
    rcases hlatched with hl | hl <;> simp [hl]
  obtain ⟨hduty, hst⟩ := hzero hnotSafe
  exact ⟨_, hcycle, hnotSafe, hst, hduty⟩

end

/-- Settles O59: the cycle is its five commands, its decision the arbiter's, and a duty other than +0.0 is the PID.LOUT of the
final state, which meets invariant (2). -/
theorem controlCycleAppliesASafeDuty : Obligations.ControlCycleAppliesASafeDuty := by
  intro x s hc
  obtain ⟨s1, s2, s3, s4, s5, run, hcycle⟩ := controlCycle_runs x hc
  obtain ⟨hsafe, hzero, hduty⟩ := run.decides
  have hinbox : s5.inbox = s.inbox :=
    run.keeps (P := (·.inbox = s.inbox)) (fun _ he _ _ hu => (exec_inbox he).trans hu) rfl
  have hcfg : s5.cfg = s.cfg := run.keeps (P := (·.cfg = s.cfg)) (fun _ he _ _ hu => (exec_cfg he).trans hu) rfl
  refine ⟨_, hcycle, hinbox, hsafe, rfl, hzero, fun hinv => ?_⟩
  have hinv' : Inv s5 := run.keeps (P := Inv) (fun e he _ _ hu => exec_keeps_inv (hu.withEnv e) he) hinv
  refine ⟨?_, hinv'⟩
  rcases hduty with h | h
  · exact .inl h
  · exact h ▸ hcfg ▸ hinv'.lastOutputClamped

/-- Settles O60: HEATER_RESET clears HH and SENSOR_RECOVER sets SH.SAFE; each keeps the other latch, which alone forces U. -/
theorem leavingUnsafeNeedsBothCommands : Obligations.LeavingUnsafeNeedsBothCommands := by
  refine ⟨fun s e1 e2 hc => ?both, fun s e x hc hfailed => ?recoverAlone, fun s e x hc hunsafe => ?resetAlone⟩
  case both =>
    obtain ⟨t, he, hissue, hc'⟩ := issue_completes (i := .heaterReset) rfl e1 hc
    obtain ⟨u, he', hissue', -⟩ := issue_completes (i := .sensorRecover) rfl e2 hc'
    have hall : issueAll (leaveUnsafe.zip [e1, e2]) s = some u := by
      simp [leaveUnsafe, issueAll, hissue, hissue']
    cases Host.Outcome.next.inj he
    cases Host.Outcome.next.inj he'
    exact ⟨_, hall, recoverSensorSafe_safe _, recoverSensorSafe_hh _⟩
  case recoverAlone =>
    obtain ⟨t, he, hissue, hc'⟩ := issue_completes (i := .sensorRecover) rfl e hc
    obtain ⟨hstays, -⟩ := exec_keeps_latched he
    obtain ⟨r, hr⟩ := controlCycle_of_latched x hc' (.inl (hstays nofun hfailed))
    exact ⟨t, r, hissue, hr⟩
  case resetAlone =>
    obtain ⟨t, he, hissue, hc'⟩ := issue_completes (i := .heaterReset) rfl e hc
    obtain ⟨-, hstays⟩ := exec_keeps_latched he
    obtain ⟨r, hr⟩ := controlCycle_of_latched x hc' (.inr (hstays nofun hunsafe))
    exact ⟨t, r, hissue, hr⟩

end Sys2Proof.Machine
end
